-- ==== Sys2Proof/Word.lean ====
section
/-! DEFINITION. The words of the block: 32-bit registers and command words, bytes, bit sequences, register numbers
and host offsets (00_scope.md rules R6 and R9, 30_encoding.md rule R85, 20_memory.md rule R70). -/

namespace Sys2Proof

/-- A 32-bit scalar register, command word or host register (R9). -/
abbrev Word := BitVec 32

/-- A byte of data memory, of a provider message or of a digest (R11, R60). -/
abbrev Byte := BitVec 8

/-- A bit sequence: index 0 is the first bit, the most significant bit of the first byte (R6). -/
abbrev Bits := List Bool

/-- The number of a buffer register `B0` to `B7` (R21, R85). -/
abbrev BufReg := BitVec 3

/-- The number of a scalar register `S0` to `S7` (R22, R85). -/
abbrev ScalReg := BitVec 3

/-- A byte offset into the block's host window, `0x00000` to `0x1FFFF` (R70). -/
abbrev HostOffset := BitVec 17

end Sys2Proof
end

