-- ==== Sys2Proof/Syntax.lean ====
section
/-! DEFINITION. The 21 commands of IKSZ-CORE-1, one constructor for each row of the opcode map (30_encoding.md rule R88).
Operand names are the fields of rule R81: `d`, `a`, `b`, `c` are the register fields D, A, B and C. -/

namespace Sys2Proof

/-- A command with its operands (R4, R88). Whether a field names a buffer or a scalar register is fixed by the opcode (R85). -/
inductive Instr where
  /-- `NOP` (R100) -/
  | nop
  /-- `LI Sd, imm16` (R101) -/
  | li (d : ScalReg) (imm : BitVec 16)
  /-- `LIH Sd, imm16` (R102) -/
  | lih (d : ScalReg) (imm : BitVec 16)
  /-- `BLEN Sd, Ba` (R103) -/
  | blen (d : ScalReg) (a : BufReg)
  /-- `BCLR Bd` (R104) -/
  | bclr (d : BufReg)
  /-- `BMOV Bd, Ba` (R105) -/
  | bmov (d a : BufReg)
  /-- `BINV Bd` (R106) -/
  | binv (d : BufReg)
  /-- `LDB Bd, Sa, Sb`: address `Sa`, byte count `Sb` (R120) -/
  | ldb (d : BufReg) (a b : ScalReg)
  /-- `STB Ba, Sb`: address `Sb` (R121) -/
  | stb (a : BufReg) (b : ScalReg)
  /-- `HDRX Bd, Ba, h`: a header of `h` bits, at most 32 (R122, R91) -/
  | hdrx (d a : BufReg) (h : BitVec 6)
  /-- `KSB Sd, Ba, Sb`: key `Ba`, index `Sb` (R141) -/
  | ksb (d : ScalReg) (a : BufReg) (b : ScalReg)
  /-- `XOR Bd, Ba, Bb`: payload `Ba`, key `Bb` (R143) -/
  | xor (d a b : BufReg)
  /-- `XORS Bd, Ba, Bb`: as XOR, equal lengths enforced (R144) -/
  | xors (d a b : BufReg)
  /-- `ROTR Bd, Ba, Sb`: amount `Sb` (R165) -/
  | rotr (d a : BufReg) (b : ScalReg)
  /-- `DRV Bd, Ba, Sb`: seed `Ba`, byte count `Sb` (R167) -/
  | drv (d a : BufReg) (b : ScalReg)
  /-- `FENC [F]`: `f` is the F bit, filler supplied in `B3` (R183) -/
  | fenc (f : Bool)
  /-- `FDEC [F]` (R184) -/
  | fdec (f : Bool)
  /-- `PENC [S]`: `st` is the S bit, strict equal lengths (R185) -/
  | penc (st : Bool)
  /-- `PDEC [S]` (R186) -/
  | pdec (st : Bool)
  /-- `CUT Bd, Ba, Sb, Sc`: bits `Sb` up to, not including, `Sc` (R210) -/
  | cut (d a : BufReg) (b c : ScalReg)
  /-- `MRG Bd, Ba, Bb` (R211) -/
  | mrg (d a b : BufReg)
  deriving DecidableEq, Repr

end Sys2Proof
end

