-- ==== Sys2Proof/WellFormed.lean ====
section
/-! DEFINITION. The field-value constraint of the command set: only HDRX has one (30_encoding.md rule R91). Every value of
every other field is legal (rules R85 and R91). -/

namespace Sys2Proof

/-- A command some legal word stands for: HDRX's header length is at most 32 bits (R91). -/
def Instr.wellFormed (i : Instr) : Bool :=
  match i with
  | .hdrx _ _ h => decide (h.toNat ≤ 32)
  | .nop | .li .. | .lih .. | .blen .. | .bclr .. | .bmov .. | .binv .. | .ldb .. | .stb .. | .ksb .. | .xor ..
  | .xors .. | .rotr .. | .drv .. | .fenc .. | .fdec .. | .penc .. | .pdec .. | .cut .. | .mrg .. => true

end Sys2Proof
end

