-- ==== Sys2Proof/Decode.lean ====
section
/-! DEFINITION. The decoder and the encoder of command words, from the formats and the opcode map of 30_encoding.md
(rules R80 to R91), and the opcode map itself as a table of masks and matches. -/

namespace Sys2Proof

/-- Why a word is no command; each raises ILLEGAL_COMMAND (R89 to R91). -/
inductive DecodeError where
  /-- the OPC field is unassigned (R89) -/
  | unassignedOpcode
  /-- a reserved or unused field is not zero (R90) -/
  | reservedBits
  /-- HDRX with a header length over 32 (R91) -/
  | headerTooLong
  deriving DecidableEq, Repr

/-! ### The fields of a command word (R81) -/

/-- OPC, bits 31:26 (R81). -/
def fieldOpc (w : Word) : BitVec 6 := w.extractLsb' 26 6
/-- D, bits 25:23 (R81). -/
def fieldD (w : Word) : BitVec 3 := w.extractLsb' 23 3
/-- A, bits 22:20 (R81). -/
def fieldA (w : Word) : BitVec 3 := w.extractLsb' 20 3
/-- B, bits 19:17 (R81). -/
def fieldB (w : Word) : BitVec 3 := w.extractLsb' 17 3
/-- C, bits 16:14 (R81). -/
def fieldC (w : Word) : BitVec 3 := w.extractLsb' 14 3
/-- Z, bits 13:6, reserved in format R (R81). -/
def fieldZ (w : Word) : BitVec 8 := w.extractLsb' 6 8
/-- M, bits 5:0, the modifier of format R (R81). -/
def fieldM (w : Word) : BitVec 6 := w.extractLsb' 0 6
/-- IMM16, bits 15:0 of format I (R81). -/
def fieldImm (w : Word) : BitVec 16 := w.extractLsb' 0 16
/-- Z_I, bits 22:16, reserved in format I (R81). -/
def fieldZI (w : Word) : BitVec 7 := w.extractLsb' 16 7
/-- Z_N, bits 25:0, reserved in format N (R81). -/
def fieldZN (w : Word) : BitVec 26 := w.extractLsb' 0 26
/-- M[5:1], reserved in the frame commands (R87). -/
def fieldMHigh (w : Word) : BitVec 5 := w.extractLsb' 1 5

/-- The command, if the reserved and unused fields are all zero (R90). -/
def whenReservedZero (zero : Bool) (i : Instr) : Except DecodeError Instr :=
  if zero then .ok i else .error .reservedBits

/-- A frame command: D, A, B, C, Z and M[5:1] are zero, bit 0 is the modifier (R87, R88). -/
def decodeFrame (w : Word) (mk : Bool → Instr) : Except DecodeError Instr :=
  whenReservedZero (fieldD w == 0 && fieldA w == 0 && fieldB w == 0 && fieldC w == 0 && fieldZ w == 0 && fieldMHigh w == 0)
    (mk (w.getLsbD 0))

/-- The command a word stands for, or why it is illegal: the opcode selects the row, then every reserved or unused field
of that row must be zero, then HDRX's length must be at most 32 (R88 to R91, R93). -/
def decode (w : Word) : Except DecodeError Instr :=
  match (fieldOpc w).toNat with
  | 0x01 => whenReservedZero (fieldZN w == 0) .nop
  | 0x02 => whenReservedZero (fieldZI w == 0) (.li (fieldD w) (fieldImm w))
  | 0x03 => whenReservedZero (fieldZI w == 0) (.lih (fieldD w) (fieldImm w))
  | 0x04 => whenReservedZero (fieldB w == 0 && fieldC w == 0 && fieldZ w == 0 && fieldM w == 0) (.blen (fieldD w) (fieldA w))
  | 0x05 => whenReservedZero (fieldA w == 0 && fieldB w == 0 && fieldC w == 0 && fieldZ w == 0 && fieldM w == 0) (.bclr (fieldD w))
  | 0x06 => whenReservedZero (fieldB w == 0 && fieldC w == 0 && fieldZ w == 0 && fieldM w == 0) (.bmov (fieldD w) (fieldA w))
  | 0x07 => whenReservedZero (fieldA w == 0 && fieldB w == 0 && fieldC w == 0 && fieldZ w == 0 && fieldM w == 0) (.binv (fieldD w))
  | 0x08 => whenReservedZero (fieldC w == 0 && fieldZ w == 0 && fieldM w == 0) (.ldb (fieldD w) (fieldA w) (fieldB w))
  | 0x09 => whenReservedZero (fieldD w == 0 && fieldC w == 0 && fieldZ w == 0 && fieldM w == 0) (.stb (fieldA w) (fieldB w))
  | 0x0A =>
    if fieldB w == 0 && fieldC w == 0 && fieldZ w == 0 then
      if (fieldM w).toNat ≤ 32 then .ok (.hdrx (fieldD w) (fieldA w) (fieldM w)) else .error .headerTooLong
    else .error .reservedBits
  | 0x10 => whenReservedZero (fieldC w == 0 && fieldZ w == 0 && fieldM w == 0) (.ksb (fieldD w) (fieldA w) (fieldB w))
  | 0x11 => whenReservedZero (fieldC w == 0 && fieldZ w == 0 && fieldM w == 0) (.xor (fieldD w) (fieldA w) (fieldB w))
  | 0x12 => whenReservedZero (fieldC w == 0 && fieldZ w == 0 && fieldM w == 0) (.xors (fieldD w) (fieldA w) (fieldB w))
  | 0x18 => whenReservedZero (fieldC w == 0 && fieldZ w == 0 && fieldM w == 0) (.rotr (fieldD w) (fieldA w) (fieldB w))
  | 0x19 => whenReservedZero (fieldC w == 0 && fieldZ w == 0 && fieldM w == 0) (.drv (fieldD w) (fieldA w) (fieldB w))
  | 0x20 => decodeFrame w .fenc
  | 0x21 => decodeFrame w .fdec
  | 0x22 => decodeFrame w .penc
  | 0x23 => decodeFrame w .pdec
  | 0x28 => whenReservedZero (fieldZ w == 0 && fieldM w == 0) (.cut (fieldD w) (fieldA w) (fieldB w) (fieldC w))
  | 0x29 => whenReservedZero (fieldC w == 0 && fieldZ w == 0 && fieldM w == 0) (.mrg (fieldD w) (fieldA w) (fieldB w))
  | _ => .error .unassignedOpcode

/-! ### The encoder -/

/-- Format N (R82). -/
def formatN (opc : BitVec 6) : Word := opc ++ 0#26
/-- Format I (R83). -/
def formatI (opc : BitVec 6) (d : BitVec 3) (imm : BitVec 16) : Word := opc ++ d ++ 0#7 ++ imm
/-- Format R (R84). -/
def formatR (opc : BitVec 6) (d a b c : BitVec 3) (m : BitVec 6) : Word := opc ++ d ++ a ++ b ++ c ++ 0#8 ++ m
/-- The modifier field of a frame command: bit 0 is F or S (R87). -/
def frameModifier (f : Bool) : BitVec 6 := 0#5 ++ BitVec.ofBool f

/-- The word of a command (R82 to R84, R88). -/
def encode (i : Instr) : Word :=
  match i with
  | .nop => formatN 0x01
  | .li d imm => formatI 0x02 d imm
  | .lih d imm => formatI 0x03 d imm
  | .blen d a => formatR 0x04 d a 0 0 0
  | .bclr d => formatR 0x05 d 0 0 0 0
  | .bmov d a => formatR 0x06 d a 0 0 0
  | .binv d => formatR 0x07 d 0 0 0 0
  | .ldb d a b => formatR 0x08 d a b 0 0
  | .stb a b => formatR 0x09 0 a b 0 0
  | .hdrx d a h => formatR 0x0A d a 0 0 h
  | .ksb d a b => formatR 0x10 d a b 0 0
  | .xor d a b => formatR 0x11 d a b 0 0
  | .xors d a b => formatR 0x12 d a b 0 0
  | .rotr d a b => formatR 0x18 d a b 0 0
  | .drv d a b => formatR 0x19 d a b 0 0
  | .fenc f => formatR 0x20 0 0 0 0 (frameModifier f)
  | .fdec f => formatR 0x21 0 0 0 0 (frameModifier f)
  | .penc st => formatR 0x22 0 0 0 0 (frameModifier st)
  | .pdec st => formatR 0x23 0 0 0 0 (frameModifier st)
  | .cut d a b c => formatR 0x28 d a b c 0
  | .mrg d a b => formatR 0x29 d a b 0 0

/-! ### The opcode map as a table (R88) -/

/-- A row of the opcode map: the command's mnemonic, and the match and the mask of its words (R88). -/
structure OpcodeRow where
  mnemonic : String
  matchBits : Word
  mask : Word
  deriving DecidableEq, Repr

/-- The 21 rows of the opcode map (R88). -/
def opcodeTable : List OpcodeRow :=
  [⟨"NOP", 0x04000000, 0xFFFFFFFF⟩, ⟨"LI", 0x08000000, 0xFC7F0000⟩, ⟨"LIH", 0x0C000000, 0xFC7F0000⟩,
   ⟨"BLEN", 0x10000000, 0xFC0FFFFF⟩, ⟨"BCLR", 0x14000000, 0xFC7FFFFF⟩, ⟨"BMOV", 0x18000000, 0xFC0FFFFF⟩,
   ⟨"BINV", 0x1C000000, 0xFC7FFFFF⟩, ⟨"LDB", 0x20000000, 0xFC01FFFF⟩, ⟨"STB", 0x24000000, 0xFF81FFFF⟩,
   ⟨"HDRX", 0x28000000, 0xFC0FFFC0⟩] ++
  [⟨"KSB", 0x40000000, 0xFC01FFFF⟩, ⟨"XOR", 0x44000000, 0xFC01FFFF⟩, ⟨"XORS", 0x48000000, 0xFC01FFFF⟩,
   ⟨"ROTR", 0x60000000, 0xFC01FFFF⟩, ⟨"DRV", 0x64000000, 0xFC01FFFF⟩, ⟨"FENC", 0x80000000, 0xFFFFFFFE⟩,
   ⟨"FDEC", 0x84000000, 0xFFFFFFFE⟩, ⟨"PENC", 0x88000000, 0xFFFFFFFE⟩, ⟨"PDEC", 0x8C000000, 0xFFFFFFFE⟩,
   ⟨"CUT", 0xA0000000, 0xFC003FFF⟩, ⟨"MRG", 0xA4000000, 0xFC01FFFF⟩]

/-- A word selects a row when its bits under the mask are the row's match (R88). -/
def OpcodeRow.selects (r : OpcodeRow) (w : Word) : Bool := w &&& r.mask == r.matchBits

/-- The mnemonic of a command (R88, R94). -/
def Instr.mnemonic (i : Instr) : String :=
  match i with
  | .nop => "NOP"
  | .li .. => "LI"
  | .lih .. => "LIH"
  | .blen .. => "BLEN"
  | .bclr .. => "BCLR"
  | .bmov .. => "BMOV"
  | .binv .. => "BINV"
  | .ldb .. => "LDB"
  | .stb .. => "STB"
  | .hdrx .. => "HDRX"
  | .ksb .. => "KSB"
  | .xor .. => "XOR"
  | .xors .. => "XORS"
  | .rotr .. => "ROTR"
  | .drv .. => "DRV"
  | .fenc .. => "FENC"
  | .fdec .. => "FDEC"
  | .penc .. => "PENC"
  | .pdec .. => "PDEC"
  | .cut .. => "CUT"
  | .mrg .. => "MRG"

/-! ### What the host of this package asks for -/

/-- The decoder as an option: `none` where the word is illegal (R89 to R91). -/
def decode? (w : Word) : Option Instr :=
  match decode w with
  | .ok i => some i
  | .error _ => none

/-- The command word made of the low `nbits` bits of `w`, every higher bit 0 (R80: a command is one 32-bit word). -/
def tableWord (nbits w : Nat) : Word := BitVec.ofNat 32 (w % 2 ^ nbits)

/-- The instruction the decoder reads from a word of the opcode table. -/
def decodeTableWord (nbits w : Nat) : Option Instr := decode? (tableWord nbits w)

end Sys2Proof
end

