-- ==== Sys2Proof/Machine/Bits.lean ====
section
/-! DEFINITION. Bit sequences, their packing into bytes, and the keystream XOR: the pure functions the command rules are
written in (00_scope.md rules R6 to R8, 42_keystream_cipher.md rules R140 and R142). -/

namespace Sys2Proof.Machine

/-- `uint(s)`: the unsigned integer of a bit sequence, first bit most significant (R8). -/
def uint (s : Bits) : Nat := s.foldl (fun n b => 2 * n + b.toNat) 0

/-- `be32(n)`: the 32-bit sequence of `n`, bit 31 first (R8). -/
def be32 (n : Nat) : Bits := (List.range 32).map fun j => n.testBit (31 - j)

/-- The eight bits of a byte, most significant first (R7). -/
def byteBits (b : Byte) : Bits :=
  [b.getMsbD 0, b.getMsbD 1, b.getMsbD 2, b.getMsbD 3, b.getMsbD 4, b.getMsbD 5, b.getMsbD 6, b.getMsbD 7]

/-- `toBits`: a byte string as a bit sequence, each byte most significant bit first (R7). -/
def toBits (bytes : List Byte) : Bits := bytes.flatMap byteBits

/-- `s[a:b)`: bits `a` up to, not including, `b` (R6). -/
def slice (s : Bits) (a b : Nat) : Bits := (s.drop a).take (b - a)

/-- `bytesOf`: the byte string of a bit sequence of whole bytes, the inverse of `toBits`: byte `j` is made of bits `8j` to
`8j + 7`, the first most significant (R7). Bits past the last whole byte make no byte: the commands check the length first. -/
def bytesOf (s : Bits) : List Byte :=
  (List.range (s.length / 8)).map fun j => BitVec.ofNat 8 (uint (slice s (8 * j) (8 * j + 8)))

/-- `at(k, i)`: the keystream bit `k[i mod |k|]` of a key that is not empty (R140). -/
def keystreamAt (k : Bits) (i : Nat) : Bool := k.getD (i % k.length) false

/-- The bits of `p` from keystream position `i` on, each XORed with its keystream bit (R142). -/
def xorFrom (k : Bits) : Nat → Bits → Bits
  | _, [] => []
  | i, b :: p => (b ^^ keystreamAt k i) :: xorFrom k (i + 1) p

/-- `xorWith(p, k)`: `p` XORed with the keystream of `k` (R142). -/
def xorWith (p k : Bits) : Bits := xorFrom k 0 p

end Sys2Proof.Machine
end

