-- ==== Sys2Proof/Config.lean ====
section
/-! DEFINITION. What an implementation of the block fixes and what the spec leaves free: the identification constant
(10_state.md rule R33), the hash algorithms (43_hashchain.md rules R160 and R161), and the free values, which have no
body, so that no proof can know one of them (93_implementation_defined.md items I4 to I8, U8). -/

namespace Sys2Proof

/-- The six algorithms of the hash provider (R160, R161). -/
inductive HashAlg where
  /-- SHA-1, index 0 -/
  | sha1
  /-- SHA-256, index 1 -/
  | sha256
  /-- SHA-384, index 2 -/
  | sha384
  /-- SHA-512, index 3 -/
  | sha512
  /-- MD2, index 4 -/
  | md2
  /-- MD5, index 5 -/
  | md5
  deriving DecidableEq, Repr

namespace Config

/-- The value of the ID register (R33, D38). -/
def idValue : Word := 0x494B0001

/-- FREE VALUE. Byte `j` of the provider's digest of a message: the provider is a parameter (R5, R160, U8; log entry 2). -/
opaque digestByte : HashAlg → List Byte → Nat → Byte

/-- FREE VALUE. What data memory holds at an address after the `n`-th hardware reset, until written (R77, I4; log entry 4). -/
opaque powerOnByte : Nat → Nat → Byte

/-- FREE VALUE. The `n`-th unspecified value a host read returns (R66, R260, R273, I5 to I7; log entry 11). -/
opaque freeWord : Nat → Word

/-- FREE VALUE. Whether the byte of draw `n` of a STB abandoned by a soft reset was already written (R262, I8; log entry 13). -/
opaque freeBit : Nat → Bool

end Config

end Sys2Proof
end

