-- ==== Sys2Proof/Machine/State.lean ====
section
/-! DEFINITION. The state of the block as plain data, and its value right after a hardware reset (10_state.md rules R20
to R50, 20_memory.md rule R60). -/

namespace Sys2Proof.Machine

/-- The error codes of ERRINFO (60_exceptions.md rule R220). -/
inductive ErrorCode where
  /-- 0 NONE: nothing raised; also CAUSE where there is none -/
  | none
  /-- 1 EMPTY_KEY -/
  | emptyKey
  /-- 2 KEY_LENGTH_MISMATCH -/
  | keyLengthMismatch
  /-- 3 LENGTH -/
  | length
  /-- 4 HASH_UNAVAILABLE -/
  | hashUnavailable
  /-- 5 CONVERT -/
  | convert
  /-- 6 NULL_OPERAND -/
  | nullOperand
  /-- 7 ILLEGAL_COMMAND -/
  | illegalCommand
  /-- 8 ACCESS_FAULT -/
  | accessFault
  /-- 9 CAPACITY -/
  | capacity
  deriving DecidableEq, Repr

/-- The parameters of the block (00_scope.md rule R5). No step changes them (R163 for the provider's). -/
structure Params where
  /-- MAXLEN, the capacity of a buffer register in bits -/
  maxlen : Nat
  /-- DMEM_BYTES, the size of data memory -/
  dmemBytes : Nat
  /-- HEX_UPPER, whether the provider's hex digits are upper case -/
  hexUpper : Bool
  /-- the algorithms the provider answers UNAVAILABLE for (R163) -/
  unavailable : List HashAlg
  /-- the digests known as data: algorithm, message, digest; any other digest is free (log entry 2) -/
  digests : List (HashAlg × List Byte × List Byte)
  deriving DecidableEq, Repr

/-- The width of a host access (20_memory.md rule R66). -/
inductive AccessWidth where
  | w8
  | w16
  | w32
  /-- any other width -/
  | other
  deriving DecidableEq, Repr

/-- One access of the host to the block's window (R65, R66, R278). -/
inductive HostAccess where
  | read (off : HostOffset) (width : AccessWidth)
  /-- an 8-bit write carries its byte in the low bits of `v` (log entry 12) -/
  | write (off : HostOffset) (width : AccessWidth) (v : Word)
  deriving DecidableEq, Repr

/-- What the outside world does next to the block (R15, R228, R260, R278; log entry 6). -/
inductive Event where
  /-- a host access -/
  | access (a : HostAccess)
  /-- the command in progress ends before the outside world acts again (R270) -/
  | complete
  /-- a host access at the very moment the command in progress ends (R228) -/
  | completeWith (a : HostAccess)
  /-- a host access at the very moment of a host write of `v` to STATUS (R228) -/
  | clearWith (v : Word) (a : HostAccess)
  /-- the hash provider answers the engine's outstanding request (R160, R237) -/
  | providerAnswer
  /-- from now on the provider answers requests, or answers none (R275, I10) -/
  | providerLive (on : Bool)
  /-- the hardware reset input is asserted (R260) -/
  | assertReset
  /-- the hardware reset input is deasserted (R260) -/
  | releaseReset
  deriving DecidableEq, Repr

/-- The engine phase (R46). While executing, the engine holds the command word and the derivation accumulator, empty
before the provider's first answer. -/
inductive Engine where
  | idle
  | executing (w : Word) (acc : List Byte)
  deriving DecidableEq, Repr

/-- Data memory: the bytes written since the last hardware reset, by strictly rising address. -/
abbrev Memory := List Host.Cell

/-- The block (R20 to R48), with its parameters and what the outside world does to it. -/
structure State where
  /-- the parameters (R5) -/
  params : Params
  /-- B0 to B7; `none` is ABSENT (R21) -/
  bufs : Vector (Option Bits) 8
  /-- S0 to S7 (R22) -/
  scalars : Vector Word 8
  /-- ENC_READY (R25) -/
  encReady : Bool
  /-- DEC_READY (R25) -/
  decReady : Bool
  /-- CTRL.IE_DONE (R34) -/
  ieDone : Bool
  /-- CTRL.IE_ERR (R34) -/
  ieErr : Bool
  /-- CTRL.IE_OVR (R34) -/
  ieOvr : Bool
  /-- STATUS.DONE (R35) -/
  stDone : Bool
  /-- STATUS.ERR (R35) -/
  stErr : Bool
  /-- STATUS.OVR (R35) -/
  stOvr : Bool
  /-- ERRINFO (R37) -/
  errInfo : Word
  /-- ERRCMD (R38) -/
  errCmd : Word
  /-- the engine phase; STATUS.BUSY shows it (R46) -/
  engine : Engine
  /-- data memory (R60) -/
  dmem : Memory
  /-- how many hardware resets there were: it selects the unspecified power-on bytes (the model's own; log entry 4) -/
  powerEpoch : Nat
  /-- the hardware reset input (R260) -/
  resetPin : Bool
  /-- whether the hash provider answers requests at present (R275, I10) -/
  providerLive : Bool
  /-- what the outside world does next, in order (the model's own; log entry 6) -/
  inputs : List Event
  /-- what the block returned to the host's last read (the model's own; log entry 12) -/
  busReply : Option Word
  /-- how many unspecified values were drawn so far (the model's own; log entry 11) -/
  draws : Nat
  deriving DecidableEq, Repr

/-- No step of this hardware stops: every error of the block is an error entry, a next state (R222), and a provider that
never answers leaves the block waiting (I10). So there is no fault, and nothing is lost by it (safe). -/
inductive Fault where
  deriving DecidableEq, Repr

/-- Why the model gives a command no meaning. -/
inductive Refusal where
  /-- the command has no meaning in this model; raised by `exec`'s arm only, safe -/
  | notModelled (mnemonic : String)
  deriving DecidableEq, Repr

/-- The parameters the test vectors of 95_test_vectors.md use: MAXLEN 1024, DMEM_BYTES 256, lower-case digits, every
algorithm available. DESIGN CHOICE: the spec leaves them open (log entries 1 and 2). -/
def Params.vectors : Params :=
  { maxlen := 1024, dmemBytes := 256, hexUpper := false, unavailable := [], digests := [] }

/-- The block with parameters `p` right after a hardware reset (R49, R260). -/
def State.resetWith (p : Params) : State :=
  { params := p
    bufs := Vector.replicate 8 none
    scalars := Vector.replicate 8 0
    encReady := false
    decReady := false
    ieDone := false
    ieErr := false
    ieOvr := false
    stDone := false
    stErr := false
    stOvr := false
    errInfo := 0
    errCmd := 0
    engine := .idle
    dmem := []
    powerEpoch := 0
    resetPin := false
    providerLive := true
    inputs := []
    busReply := none
    draws := 0 }

/-- The machine right after reset (R49), with the test vectors' parameters (log entry 1). -/
def State.reset : State := State.resetWith Params.vectors

end Sys2Proof.Machine
end

