-- ==== Sys2Proof/Machine/Flags.lean ====
section
/-! DEFINITION. Every flag and every status word of the block: the frame flags (10_state.md rules R25 to R31), the error
codes (60_exceptions.md rule R220), the words of CTRL, STATUS and FSTAT (rules R34, R35, R39) and the interrupt line
(60_exceptions.md rule R226). -/

namespace Sys2Proof.Machine

/-- The 4-bit code of an error (R220). -/
def ErrorCode.code (e : ErrorCode) : BitVec 4 :=
  match e with
  | .none => 0
  | .emptyKey => 1
  | .keyLengthMismatch => 2
  | .length => 3
  | .hashUnavailable => 4
  | .convert => 5
  | .nullOperand => 6
  | .illegalCommand => 7
  | .accessFault => 8
  | .capacity => 9

/-- The word error entry writes to ERRINFO: CODE in bits 3:0, CAUSE in bits 7:4 (R37, R222). -/
def errInfoWord (e cause : ErrorCode) : Word := 0#24 ++ cause.code ++ e.code

/-- B0, DECODED (R24). -/
def decodedReg : BufReg := 0
/-- B1, KEY (R24). -/
def keyReg : BufReg := 1
/-- B2, ENCODED (R24). -/
def encodedReg : BufReg := 2
/-- B3, FILLER (R24). -/
def fillerReg : BufReg := 3

/-- ENC_READY after a setter write of register `d` (R26). -/
def encAfterSetter (d : BufReg) (v : Option Bits) (old : Bool) : Bool :=
  if d = encodedReg then v.isSome else if d = decodedReg then false else old

/-- DEC_READY after a setter write of register `d` (R26). -/
def decAfterSetter (d : BufReg) (v : Option Bits) (old : Bool) : Bool :=
  if d = decodedReg then v.isSome else if d = encodedReg then false else old

/-- STATUS.BUSY: the engine is executing (R35, R46). -/
def State.busy (s : State) : Bool :=
  match s.engine with
  | .idle => false
  | .executing _ _ => true

/-- `B[r]` (R9, R21). -/
def State.buf (s : State) (r : BufReg) : Option Bits := s.bufs[r.toNat]'r.isLt

/-- `S[r]` (R9, R22). -/
def State.scalar (s : State) (r : ScalReg) : Word := s.scalars[r.toNat]'r.isLt

/-- KEY_SET: the key is present and not empty (R25). -/
def State.keySet (s : State) : Bool :=
  match s.buf keyReg with
  | none => false
  | some k => !k.isEmpty

/-- TOTAL (R25). -/
def State.total (s : State) : Bool := s.encReady && s.decReady && s.keySet

/-- A word whose lowest bits are given, bit 0 last. -/
def lowBits (b3 b2 b1 b0 : Bool) : Word :=
  0#28 ++ BitVec.ofBool b3 ++ BitVec.ofBool b2 ++ BitVec.ofBool b1 ++ BitVec.ofBool b0

/-- FSTAT (R39). -/
def State.fstatWord (s : State) : Word := lowBits s.total s.keySet s.decReady s.encReady

/-- STATUS (R35). -/
def State.statusWord (s : State) : Word := lowBits s.stOvr s.stErr s.stDone s.busy

/-- CTRL: the enables; SRST and the reserved bits read 0 (R34). -/
def State.ctrlWord (s : State) : Word := lowBits false s.ieOvr s.ieErr s.ieDone

/-- BLENRn: the length of a present register, 0 for an absent one (R43). -/
def State.blenWord (s : State) (r : BufReg) : Word :=
  match s.buf r with
  | none => 0
  | some v => BitVec.ofNat 32 v.length

/-- BVALID: bit n says that Bn is present (R44). -/
def State.bvalidWord (s : State) : Word :=
  0#24 ++ BitVec.ofBool (s.buf 7).isSome ++ BitVec.ofBool (s.buf 6).isSome ++ BitVec.ofBool (s.buf 5).isSome ++
    BitVec.ofBool (s.buf 4).isSome ++ BitVec.ofBool (s.buf 3).isSome ++ BitVec.ofBool (s.buf 2).isSome ++
    BitVec.ofBool (s.buf 1).isSome ++ BitVec.ofBool (s.buf 0).isSome

/-- IRQ, the level of the interrupt output (R47, R226). -/
def State.irq (s : State) : Bool := (s.ieDone && s.stDone) || (s.ieErr && s.stErr) || (s.ieOvr && s.stOvr)

end Sys2Proof.Machine
end

