-- ==== Sys2Proof/Machine/Hash.lean ====
section
/-! DEFINITION. The hash provider, the rotation and the derivation (43_hashchain.md rules R160 to R169). -/

namespace Sys2Proof.Machine

/-- `hexChar(v)`: the ASCII code of a hex digit of value `v` below 16, lower or upper case (R11). -/
def hexChar (upper : Bool) (v : Nat) : Byte :=
  if v < 10 then BitVec.ofNat 8 (0x30 + v) else BitVec.ofNat 8 ((if upper then 0x41 else 0x61) + (v - 10))

/-- `hexValue(c)`: the value of the hex digit of ASCII code `c` (R11). Only hex digits are ever asked (log entry 18). -/
def hexValue (c : Byte) : Nat :=
  if 0x61 ≤ c.toNat then c.toNat - 0x61 + 10 else if 0x41 ≤ c.toNat then c.toNat - 0x41 + 10 else c.toNat - 0x30

/-- The digest length of an algorithm in bytes (R160; PRESUMED, the spec's general knowledge, log entry 3). -/
def digestLength (alg : HashAlg) : Nat :=
  match alg with
  | .sha1 => 20
  | .sha256 => 32
  | .sha384 => 48
  | .sha512 => 64
  | .md2 => 16
  | .md5 => 16

/-- `ALG[ord(c) mod 6]`: the algorithm a character selects (R161). -/
def algOf (c : Byte) : HashAlg :=
  match c.toNat % 6 with
  | 0 => .sha1
  | 1 => .sha256
  | 2 => .sha384
  | 3 => .sha512
  | 4 => .md2
  | _ => .md5

/-- The digest known as data for a request, if the parameters list one of the algorithm's fixed length `L(alg)` (R160); a
listed digest of another length is none of that algorithm's and is passed over (log entry 2). -/
def Params.knownDigest (p : Params) (alg : HashAlg) (m : List Byte) : Option (List Byte) :=
  (p.digests.find? fun e => e.1 == alg && e.2.1 == m && e.2.2.length == digestLength alg).map fun e => e.2.2

/-- `Digest(alg, m)`, `none` for UNAVAILABLE: a function of the request, available or not by the algorithm alone
(R160, R163). -/
def Params.digest (p : Params) (alg : HashAlg) (m : List Byte) : Option (List Byte) :=
  if p.unavailable.contains alg then none
  else some ((p.knownDigest alg m).getD ((List.range (digestLength alg)).map (Config.digestByte alg m)))

/-- `hashFirst(alg, m)`: the first character of the digest's hex string, `none` where the provider is unavailable (R162). -/
def Params.hashFirst (p : Params) (alg : HashAlg) (m : List Byte) : Option Byte :=
  (p.digest alg m).map fun g => hexChar p.hexUpper ((g.headD 0).toNat / 16)

/-- `rotr(t, n)`: the last `n mod |t|` characters move to the front; an amount over 2^31 - 1 and an empty text change
nothing (R164). -/
def rotateRight (t : List Byte) (n : Nat) : List Byte :=
  if 2 ^ 31 - 1 < n then t
  else if t.isEmpty then t
  else t.drop (t.length - n % t.length) ++ t.take (t.length - n % t.length)

/-- The request the derivation makes next: MD2 of the seed, then the algorithm of the accumulator's first character on
accumulator and seed (R166). -/
def deriveRequest (seed acc : List Byte) : HashAlg × List Byte :=
  match acc with
  | [] => (.md2, seed)
  | c0 :: _ => (algOf c0, acc ++ seed)

/-- The accumulator after the provider's answer `c`: its start, or `c` appended and the whole rotated right by the value
of its first character (R166). -/
def deriveAbsorb (acc : List Byte) (c : Byte) : List Byte :=
  match acc with
  | [] => [c]
  | c0 :: _ => rotateRight (acc ++ [c]) (hexValue c0)

/-- `k` provider requests of a derivation, from accumulator `acc`; `none` at the first UNAVAILABLE (R166). -/
def derivePasses (hash : HashAlg → List Byte → Option Byte) (seed : List Byte) : Nat → List Byte → Option (List Byte)
  | 0, acc => some acc
  | k + 1, acc =>
    match hash (deriveRequest seed acc).1 (deriveRequest seed acc).2 with
    | none => none
    | some c => derivePasses hash seed k (deriveAbsorb acc c)

/-- How many provider requests a derivation of `n` bytes makes: the MD2 one, then one for each character up to the `n`-th
(R166, R275). -/
def deriveRequests (n : Nat) : Nat := max 1 n

/-- `derive(seed, n)`, `none` where the provider is unavailable (R166). -/
def derive (hash : HashAlg → List Byte → Option Byte) (seed : List Byte) (n : Nat) : Option (List Byte) :=
  (derivePasses hash seed (deriveRequests n) []).map fun acc => acc.take n

end Sys2Proof.Machine
end

