-- ==== Sys2Proof/Machine/Ops.lean ====
section
/-! DEFINITION. The named operations of the block over memory and registers: data memory (20_memory.md rules R60 to R63,
R77), register writes with their frame flags (10_state.md rules R26 and R27), completion (60_exceptions.md rule R225),
ERROR ENTRY and its acknowledgement (rules R222 and R224), and the end of a command. -/

namespace Sys2Proof.Machine

/-! ### Data memory -/

/-- The byte written last at an address since the last hardware reset, if any. -/
def Memory.lookup : Memory → Nat → Option Byte
  | [], _ => none
  | (k, v) :: m, a => if a = k then some v else Memory.lookup m a

/-- Memory with one byte written; the addresses stay strictly rising. -/
def Memory.store : Memory → Nat → Byte → Memory
  | [], a, b => [(a, b)]
  | (k, v) :: m, a, b =>
    if a < k then (a, b) :: (k, v) :: m
    else if a = k then (a, b) :: m
    else (k, v) :: Memory.store m a b

/-- `MemWrite(a, n, v)`: the bytes `v` from address `a` on (R62). -/
def Memory.storeBytes : Memory → Nat → List Byte → Memory
  | m, _, [] => m
  | m, a, b :: bs => Memory.storeBytes (Memory.store m a b) (a + 1) bs

/-- The canonical form of a memory of `size` bytes: strictly rising addresses, all below `size` (R60; log entry 27). -/
def Memory.wf (size : Nat) (m : Memory) : Bool :=
  decide (m.Pairwise fun x y => x.1 < y.1) && m.all fun x => decide (x.1 < size)

/-- `DMEM[a]`: the byte written, or what memory happens to hold since the last hardware reset, a free value (R77). -/
def State.readByte (s : State) (a : Nat) : Byte :=
  (Memory.lookup s.dmem a).getD (Config.powerOnByte s.powerEpoch a)

/-- `MemRead(a, n)` (R61). -/
def State.readBytes (s : State) : Nat → Nat → List Byte
  | _, 0 => []
  | a, n + 1 => s.readByte a :: s.readBytes (a + 1) n

/-- `MemWrite(a, n, v)` (R62). -/
def State.writeBytes (s : State) (a : Nat) (bytes : List Byte) : State :=
  { s with dmem := Memory.storeBytes s.dmem a bytes }

/-! ### Registers -/

/-- `S[d] <- v` (R9). -/
def State.writeScalar (s : State) (d : ScalReg) (v : Word) : State :=
  { s with scalars := s.scalars.set d.toNat v d.isLt }

/-- `B[d] <- v` by a command that is no frame command: a setter write, with its frame flags (R9, R26, R29, R31). -/
def State.writeBuf (s : State) (d : BufReg) (v : Option Bits) : State :=
  { s with
    bufs := s.bufs.set d.toNat v d.isLt
    encReady := encAfterSetter d v s.encReady
    decReady := decAfterSetter d v s.decReady }

/-- `B2 <- v; ENC_READY <- 1`: the write of a successful FENC or PENC (R27). -/
def State.writeEncoded (s : State) (v : Bits) : State :=
  { s with bufs := s.bufs.set encodedReg.toNat (some v) encodedReg.isLt, encReady := true }

/-- `B0 <- v; DEC_READY <- 1`: the write of a successful FDEC or PDEC (R27). -/
def State.writeDecoded (s : State) (v : Bits) : State :=
  { s with bufs := s.bufs.set decodedReg.toNat (some v) decodedReg.isLt, decReady := true }

/-! ### Completion, error entry, acknowledgement -/

/-- Completion without error: DONE is set, the engine is idle, its word and accumulator are gone (R225, R46). -/
def State.complete (s : State) : State := { s with stDone := true, engine := .idle }

/-- The word is a FENC or a PENC by its opcode (R88, R222). -/
def isEncodeWord (w : Word) : Bool := fieldOpc w == 0x20 || fieldOpc w == 0x22

/-- The word is a FDEC or a PDEC by its opcode (R88, R222). -/
def isDecodeWord (w : Word) : Bool := fieldOpc w == 0x21 || fieldOpc w == 0x23

/-- ERROR ENTRY: the command of word `w` raises `e` with cause `cause` (R222). ERRINFO and ERRCMD save the error and the
word, a failed frame command clears its ready flag (R28) unless the word was illegal, ERR is set, BUSY ends; nothing else
changes. -/
def State.raiseError (s : State) (w : Word) (e cause : ErrorCode) : State :=
  { s with
    errInfo := errInfoWord e cause
    errCmd := w
    encReady := s.encReady && !(isEncodeWord w && e != .illegalCommand)
    decReady := s.decReady && !(isDecodeWord w && e != .illegalCommand)
    stErr := true
    engine := .idle }

/-- The acknowledgement and every other W1C write of STATUS: a 1 clears DONE, ERR or OVR (R35, R224). -/
def State.clearStatus (s : State) (v : Word) : State :=
  { s with
    stDone := s.stDone && !v.getLsbD 1
    stErr := s.stErr && !v.getLsbD 2
    stOvr := s.stOvr && !v.getLsbD 3 }

/-- The four frame commands, whose errors are wrapped in CONVERT (R221). -/
def isFrameCommand (i : Instr) : Bool :=
  match i with
  | .fenc _ | .fdec _ | .penc _ | .pdec _ => true
  | .nop | .li .. | .lih .. | .blen .. | .bclr .. | .bmov .. | .binv .. | .ldb .. | .stb .. | .hdrx .. | .ksb ..
  | .xor .. | .xors .. | .rotr .. | .drv .. | .cut .. | .mrg .. => false

/-- Error entry of a legal command: a frame command raises CONVERT with the condition as its cause, any other command the
condition itself (R221, R222). ERRCMD is the command's word (log entry 5). -/
def State.raiseFor (s : State) (i : Instr) (e : ErrorCode) : State :=
  if isFrameCommand i then s.raiseError (encode i) .convert e else s.raiseError (encode i) e .none

/-! ### The end of a command -/

/-- Why a command does not complete now. -/
inductive Stop where
  /-- the rule's pseudocode raises (R10) -/
  | raise (e : ErrorCode)
  /-- the provider has not answered: the command goes on waiting (I10) -/
  | waiting
  deriving DecidableEq, Repr

/-- A check of a command rule: raise `e` unless `c` holds (R229). -/
def require (c : Bool) (e : ErrorCode) : Except Stop Unit :=
  if c then .ok () else .error (.raise e)

/-- The end of a command from what its rule does: its writes and completion (R225), error entry (R222), or the wait for
the provider with nothing changed (R275, I10). -/
def finish (i : Instr) (s : State) (r : Except Stop State) : Host.Outcome State Fault Refusal :=
  match r with
  | .ok t => .next t.complete
  | .error (.raise e) => .next (s.raiseFor i e)
  | .error .waiting => .next s

end Sys2Proof.Machine
end

