-- ==== Sys2Proof/Machine/Operands.lean ====
section
/-! DEFINITION. How the commands read their operands, with the checks that reading makes (10_state.md rule R21,
42_keystream_cipher.md rule R140, 43_hashchain.md rules R165 and R167, 44_secureframe.md rules R181 and R182). -/

namespace Sys2Proof.Machine

/-- A buffer operand: NULL_OPERAND where it is absent (R21). -/
def State.operand (s : State) (r : BufReg) : Except Stop Bits :=
  match s.buf r with
  | none => .error (.raise .nullOperand)
  | some v => .ok v

/-- A key operand: EMPTY_KEY where it is absent or empty (R140). -/
def State.keyOperand (s : State) (r : BufReg) : Except Stop Bits :=
  match s.buf r with
  | none => .error (.raise .emptyKey)
  | some k => if k.isEmpty then .error (.raise .emptyKey) else .ok k

/-- A text operand: present and of whole bytes, as its bytes (R165, R167). -/
def State.textOperand (s : State) (r : BufReg) : Except Stop (List Byte) := do
  let v ← s.operand r
  require (v.length % 8 == 0) .length
  return bytesOf v

/-- A scalar operand as the number it holds (R22). -/
def State.number (s : State) (r : ScalReg) : Nat := (s.scalar r).toNat

/-- The accumulator the engine holds: empty where it holds none (R46). -/
def Engine.accumulator (e : Engine) : List Byte :=
  match e with
  | .idle => []
  | .executing _ acc => acc

/-- `derive(seed, n)` in the command being executed: the requests still to make from the accumulator the engine holds, with
the end of the derivation where one is UNAVAILABLE, and the wait where the provider answers none (R162, R166, R275, I10). -/
def State.runDerivation (s : State) (seed : List Byte) (n : Nat) : Except Stop (List Byte) :=
  if deriveRequests n - s.engine.accumulator.length ≠ 0 ∧ s.providerLive = false then .error .waiting
  else
    match derivePasses s.params.hashFirst seed (deriveRequests n - s.engine.accumulator.length) s.engine.accumulator with
    | none => .error (.raise .hashUnavailable)
    | some acc => .ok (acc.take n)

/-- What frameCheck answers: the payload, the key and the filler length in bytes (R181). -/
structure FrameShape where
  payload : Bits
  key : Bits
  fillerLen : Nat
  deriving DecidableEq, Repr

/-- The largest byte count the 32-bit header can hold (R180, R181). -/
def headerMax : Nat := 2 ^ 32 - 1

/-- `frameCheck(X)` of input register `x` (R181). The filler length is `k - x - 4` on unbounded integers: the last check is
that it is not negative. -/
def State.frameCheck (s : State) (x : BufReg) : Except Stop FrameShape := do
  let p ← s.operand x
  let k ← s.operand keyReg
  require (!k.isEmpty) .emptyKey
  require (p.length % 8 == 0 && k.length % 8 == 0) .length
  require (decide (p.length / 8 ≤ headerMax)) .length
  require (decide (p.length / 8 + 4 ≤ k.length / 8)) .length
  return { payload := p, key := k, fillerLen := k.length / 8 - p.length / 8 - 4 }

/-- `fillerOf(F, X, fl)`: the filler of B3, or the derived one (R182). -/
def State.fillerOf (s : State) (f : Bool) (shape : FrameShape) : Except Stop Bits :=
  if f then do
    let v ← s.operand fillerReg
    require (v.length == 8 * shape.fillerLen) .length
    return v
  else do
    let t ← s.runDerivation (bytesOf shape.payload) shape.fillerLen
    return toBits t

end Sys2Proof.Machine
end

