-- ==== Sys2Proof/Machine/BitBuffer.lean ====
section
/-! DEFINITION. The BitBufferOps commands (45_bitbuffer.md rules R210 and R211). -/

namespace Sys2Proof.Machine

/-- CUT: bits `S[b]` up to `S[c]` of `B[a]` (R210). -/
def execCut (d a : BufReg) (b c : ScalReg) (s : State) : Host.Outcome State Fault Refusal :=
  finish (.cut d a b c) s do
    let v ← s.operand a
    require (decide (s.number b ≤ s.number c ∧ s.number c ≤ v.length)) .length
    return s.writeBuf d (some (slice v (s.number b) (s.number c)))

/-- MRG: `B[a]` then `B[b]` (R211). -/
def execMrg (d a b : BufReg) (s : State) : Host.Outcome State Fault Refusal :=
  finish (.mrg d a b) s do
    let u ← s.operand a
    let v ← s.operand b
    require (decide (u.length + v.length ≤ s.params.maxlen)) .capacity
    return s.writeBuf d (some (u ++ v))

end Sys2Proof.Machine
end

