-- ==== Sys2Proof/Machine/BitCodec.lean ====
section
/-! DEFINITION. The BitCodec commands (41_bitcodec.md rules R120 to R122). -/

namespace Sys2Proof.Machine

/-- LDB: `S[b]` bytes from address `S[a]` as bits (R120). -/
def execLdb (d : BufReg) (a b : ScalReg) (s : State) : Host.Outcome State Fault Refusal :=
  finish (.ldb d a b) s do
    require (decide (s.number a + s.number b ≤ s.params.dmemBytes)) .accessFault
    require (decide (8 * s.number b ≤ s.params.maxlen)) .capacity
    return s.writeBuf d (some (toBits (s.readBytes (s.number a) (s.number b))))

/-- What a STB is to write: its address and its bytes, once its checks are made (R121). -/
def stbPlan (a : BufReg) (b : ScalReg) (s : State) : Except Stop (Nat × List Byte) := do
  let v ← s.operand a
  require (v.length % 8 == 0) .length
  require (decide (s.number b + v.length / 8 ≤ s.params.dmemBytes)) .accessFault
  return (s.number b, bytesOf v)

/-- STB: the bytes of `B[a]` to address `S[b]` (R121). -/
def execStb (a : BufReg) (b : ScalReg) (s : State) : Host.Outcome State Fault Refusal :=
  finish (.stb a b) s do
    let plan ← stbPlan a b s
    return s.writeBytes plan.1 plan.2

/-- HDRX: the last `8 N` bits of `B[a]`, `N` read from its first `h` bits (R122). -/
def execHdrx (d a : BufReg) (h : BitVec 6) (s : State) : Host.Outcome State Fault Refusal :=
  finish (.hdrx d a h) s do
    let v ← s.operand a
    require (decide (h.toNat ≤ v.length)) .length
    require (decide (8 * uint (slice v 0 h.toNat) ≤ v.length - h.toNat)) .length
    return s.writeBuf d (some (slice v (v.length - 8 * uint (slice v 0 h.toNat)) v.length))

end Sys2Proof.Machine
end

