-- ==== Sys2Proof/Machine/Control.lean ====
section
/-! DEFINITION. The control and register commands (40_control.md rules R100 to R106). -/

namespace Sys2Proof.Machine

/-- NOP: nothing but completion (R100). -/
def execNop (s : State) : Host.Outcome State Fault Refusal :=
  finish .nop s (.ok s)

/-- LI: `S[d] <- zext_32(imm)` (R101). -/
def execLi (d : ScalReg) (imm : BitVec 16) (s : State) : Host.Outcome State Fault Refusal :=
  finish (.li d imm) s (.ok (s.writeScalar d (imm.setWidth 32)))

/-- LIH: the upper half of `S[d]` is replaced (R102). -/
def execLih (d : ScalReg) (imm : BitVec 16) (s : State) : Host.Outcome State Fault Refusal :=
  finish (.lih d imm) s (.ok (s.writeScalar d ((imm.setWidth 32 <<< 16) ||| (s.scalar d &&& 0x0000FFFF))))

/-- BLEN: the length in bits of `B[a]` (R103). -/
def execBlen (d : ScalReg) (a : BufReg) (s : State) : Host.Outcome State Fault Refusal :=
  finish (.blen d a) s do
    let v ← s.operand a
    return s.writeScalar d (BitVec.ofNat 32 v.length)

/-- BCLR: `B[d]` becomes present and empty (R104). -/
def execBclr (d : BufReg) (s : State) : Host.Outcome State Fault Refusal :=
  finish (.bclr d) s (.ok (s.writeBuf d (some [])))

/-- BMOV: `B[d] <- B[a]` (R105). -/
def execBmov (d a : BufReg) (s : State) : Host.Outcome State Fault Refusal :=
  finish (.bmov d a) s do
    let v ← s.operand a
    return s.writeBuf d (some v)

/-- BINV: `B[d]` becomes absent (R106). -/
def execBinv (d : BufReg) (s : State) : Host.Outcome State Fault Refusal :=
  finish (.binv d) s (.ok (s.writeBuf d none))

end Sys2Proof.Machine
end

