-- ==== Sys2Proof/Machine/HashChain.lean ====
section
/-! DEFINITION. The rotation and derivation commands (43_hashchain.md rules R165 and R167). -/

namespace Sys2Proof.Machine

/-- ROTR: the text `B[a]` rotated right by `S[b]` characters (R165). -/
def execRotr (d a : BufReg) (b : ScalReg) (s : State) : Host.Outcome State Fault Refusal :=
  finish (.rotr d a b) s do
    let t ← s.textOperand a
    return s.writeBuf d (some (toBits (rotateRight t (s.number b))))

/-- The seed and the length of a DRV's derivation, once its checks are made (R167). -/
def drvSeed (a : BufReg) (b : ScalReg) (s : State) : Except Stop (List Byte × Nat) := do
  let t ← s.textOperand a
  require (decide (8 * s.number b ≤ s.params.maxlen)) .capacity
  return (t, s.number b)

/-- DRV: `S[b]` bytes derived from the seed text `B[a]` (R167). -/
def execDrv (d a : BufReg) (b : ScalReg) (s : State) : Host.Outcome State Fault Refusal :=
  finish (.drv d a b) s do
    let seed ← drvSeed a b s
    let t ← s.runDerivation seed.1 seed.2
    return s.writeBuf d (some (toBits t))

end Sys2Proof.Machine
end

