-- ==== Sys2Proof/Machine/Keystream.lean ====
section
/-! DEFINITION. The keystream and cipher commands (42_keystream_cipher.md rules R141 to R144). -/

namespace Sys2Proof.Machine

/-- KSB: keystream bit `S[b]` of key `B[a]` (R141). -/
def execKsb (d : ScalReg) (a : BufReg) (b : ScalReg) (s : State) : Host.Outcome State Fault Refusal :=
  finish (.ksb d a b) s do
    let k ← s.keyOperand a
    return s.writeScalar d ((BitVec.ofBool (keystreamAt k (s.number b))).setWidth 32)

/-- XOR: payload `B[a]` with the keystream of `B[b]` (R143). -/
def execXor (d a b : BufReg) (s : State) : Host.Outcome State Fault Refusal :=
  finish (.xor d a b) s do
    let p ← s.operand a
    let k ← s.keyOperand b
    return s.writeBuf d (some (xorWith p k))

/-- XORS: as XOR, where payload and key have one length (R144). -/
def execXors (d a b : BufReg) (s : State) : Host.Outcome State Fault Refusal :=
  finish (.xors d a b) s do
    let p ← s.operand a
    let k ← s.keyOperand b
    require (k.length == p.length) .keyLengthMismatch
    return s.writeBuf d (some (xorWith p k))

end Sys2Proof.Machine
end

