-- ==== Sys2Proof/Machine/SecureFrame.lean ====
section
/-! DEFINITION. The frame commands (44_secureframe.md rules R180 to R186). Their errors are wrapped in CONVERT by the end
of the command (`State.raiseFor`, 60_exceptions.md rule R221). -/

namespace Sys2Proof.Machine

/-- The whole frame buffer, header, filler and payload, XORed with the key (R180, R183, R184). -/
def frameXor (shape : FrameShape) (filler : Bits) : Bits :=
  xorWith (be32 (shape.payload.length / 8) ++ filler ++ shape.payload) shape.key

/-- FENC: the last `N` bytes of the frame XORed with the key, `N` read from the header after the XOR (R183). DESIGN CHOICE: with
F = 0 the derivation's provider calls come before the check `8N > |R|`, in the order of R183's pseudocode and R230's row; the
last sentence of R229 says that a command raising any error but the provider's makes no provider call, and the spec does not
settle the two (log entry 28; unsafe). -/
def execFenc (f : Bool) (s : State) : Host.Outcome State Fault Refusal :=
  finish (.fenc f) s do
    let shape ← s.frameCheck decodedReg
    let filler ← s.fillerOf f shape
    let r := frameXor shape filler
    require (decide (8 * uint (slice r 0 32) ≤ r.length)) .length
    return s.writeEncoded (slice r (r.length - 8 * uint (slice r 0 32)) r.length)

/-- FDEC: the whole frame of the ciphertext, XORed with the key (R184). -/
def execFdec (f : Bool) (s : State) : Host.Outcome State Fault Refusal :=
  finish (.fdec f) s do
    let shape ← s.frameCheck encodedReg
    let filler ← s.fillerOf f shape
    return s.writeDecoded (frameXor shape filler)

/-- The operands of a plain frame command: input, key, and equal lengths where it is strict (R185, R186). -/
def State.plainOperands (s : State) (x : BufReg) (strict : Bool) : Except Stop (Bits × Bits) := do
  let p ← s.operand x
  let k ← s.keyOperand keyReg
  require (!strict || k.length == p.length) .keyLengthMismatch
  return (p, k)

/-- PENC: `B2 <- xorWith(B0, B1)` (R185). -/
def execPenc (st : Bool) (s : State) : Host.Outcome State Fault Refusal :=
  finish (.penc st) s do
    let o ← s.plainOperands decodedReg st
    return s.writeEncoded (xorWith o.1 o.2)

/-- PDEC: `B0 <- xorWith(B2, B1)` (R186). -/
def execPdec (st : Bool) (s : State) : Host.Outcome State Fault Refusal :=
  finish (.pdec st) s do
    let o ← s.plainOperands encodedReg st
    return s.writeDecoded (xorWith o.1 o.2)

end Sys2Proof.Machine
end

