-- ==== Sys2Proof/Machine/Dispatch.lean ====
section
/-! DEFINITION. One arm for each command of the opcode map (30_encoding.md rule R88). -/

namespace Sys2Proof.Machine

def exec (i : Instr) (s : State) : Host.Outcome State Fault Refusal :=
  match i with
  | .nop => Sys2Proof.Machine.execNop s
  | .li d imm => Sys2Proof.Machine.execLi d imm s
  | .lih d imm => Sys2Proof.Machine.execLih d imm s
  | .blen d a => Sys2Proof.Machine.execBlen d a s
  | .bclr d => Sys2Proof.Machine.execBclr d s
  | .bmov d a => Sys2Proof.Machine.execBmov d a s
  | .binv d => Sys2Proof.Machine.execBinv d s
  | .ldb d a b => Sys2Proof.Machine.execLdb d a b s
  | .stb a b => Sys2Proof.Machine.execStb a b s
  | .hdrx d a h => Sys2Proof.Machine.execHdrx d a h s
  | .ksb d a b => Sys2Proof.Machine.execKsb d a b s
  | .xor d a b => Sys2Proof.Machine.execXor d a b s
  | .xors d a b => Sys2Proof.Machine.execXors d a b s
  | .rotr d a b => Sys2Proof.Machine.execRotr d a b s
  | .drv d a b => Sys2Proof.Machine.execDrv d a b s
  | .fenc f => Sys2Proof.Machine.execFenc f s
  | .fdec f => Sys2Proof.Machine.execFdec f s
  | .penc st => Sys2Proof.Machine.execPenc st s
  | .pdec st => Sys2Proof.Machine.execPdec st s
  | .cut d a b c => Sys2Proof.Machine.execCut d a b c s
  | .mrg d a b => Sys2Proof.Machine.execMrg d a b s

end Sys2Proof.Machine
end

