-- ==== Sys2Proof/Machine/Engine.lean ====
section
/-! DEFINITION. The engine: the end of the accepted command, decoding first (30_encoding.md rule R93, 70_reset_and_hazards.md
rules R270 and R271), and the hash-provider port (43_hashchain.md rules R160 and R166). -/

namespace Sys2Proof.Machine

/-- The end of the command of word `w`: an illegal word raises ILLEGAL_COMMAND before anything is read (R93, R222). -/
def runWord (w : Word) (s : State) : Host.Outcome State Fault Refusal :=
  match decode w with
  | .ok i => exec i s
  | .error _ => .next (s.raiseError w .illegalCommand .none)

/-- The engine's next step: an executing command ends (R270), an idle engine holds its state (R241). -/
def engineStep (s : State) : Host.Outcome State Fault Refusal :=
  match s.engine with
  | .idle => .next s
  | .executing w _ => runWord w s

/-- The derivation a command needs in this state: its seed and its length, once the checks before it are passed (R167,
R182, R237). -/
def derivationOf (i : Instr) (s : State) : Option (List Byte × Nat) :=
  match i with
  | .drv _ a b => (drvSeed a b s).toOption
  | .fenc false => (s.frameCheck decodedReg).toOption.map fun shape => (bytesOf shape.payload, shape.fillerLen)
  | .fdec false => (s.frameCheck encodedReg).toOption.map fun shape => (bytesOf shape.payload, shape.fillerLen)
  | .fenc true | .fdec true | .penc _ | .pdec _ | .nop | .li .. | .lih .. | .blen .. | .bclr .. | .bmov .. | .binv ..
  | .ldb .. | .stb .. | .hdrx .. | .ksb .. | .xor .. | .xors .. | .rotr .. | .cut .. | .mrg .. => none

/-- The request outstanding at the provider port: command, algorithm and message (R160, R237). -/
def State.request (s : State) : Option (Instr × HashAlg × List Byte) :=
  match s.engine with
  | .idle => none
  | .executing w acc =>
    match decode w with
    | .error _ => none
    | .ok i =>
      match derivationOf i s with
      | none => none
      | some (seed, n) =>
        if acc.length < deriveRequests n then some (i, deriveRequest seed acc) else none

/-- The provider answers the outstanding request: the accumulator takes the answer's first character, an UNAVAILABLE ends
the command (R162, R166). An answer to no request is ignored (R260). -/
def State.providerAnswer (s : State) : State :=
  if s.providerLive = false then s
  else
    match s.request with
    | none => s
    | some (i, alg, m) =>
      match s.params.hashFirst alg m with
      | none => s.raiseFor i .hashUnavailable
      | some c =>
        match s.engine with
        | .idle => s
        | .executing w acc => { s with engine := .executing w (deriveAbsorb acc c) }

end Sys2Proof.Machine
end

