-- ==== Sys2Proof/Machine/Host.lean ====
section
/-! DEFINITION. What the host, the platform and the provider do to the block: the register window (10_state.md rules R32
to R45), the DMEM window (20_memory.md rules R65 and R66), the resets (70_reset_and_hazards.md rules R260 and R262), the
busy rules (R271 to R273) and coincident events (60_exceptions.md rule R228). -/

namespace Sys2Proof.Machine

/-! ### The address map -/

/-- A register of the register window (R32). -/
inductive HostReg where
  | id
  | ctrl
  | status
  | cmd
  | errInfo
  | errCmd
  | fstat
  | capMaxlen
  | capDmem
  | scalar (n : ScalReg)
  | blenr (n : BufReg)
  | bvalid
  | reserved
  deriving DecidableEq, Repr

/-- What a host access reaches (R65, R66, R70). -/
inductive HostTarget where
  | reg (r : HostReg)
  /-- a byte of data memory -/
  | dmem (a : Nat)
  /-- the part of the DMEM window above data memory (R65) -/
  | dmemReserved
  /-- a width or an alignment the window does not support (R66) -/
  | unsupported
  deriving DecidableEq, Repr

/-- The register at a 4-byte aligned offset below 0x10000 (R32). -/
def hostReg (off : Nat) : HostReg :=
  if off = 0x000 then .id
  else if off = 0x004 then .ctrl
  else if off = 0x008 then .status
  else if off = 0x00C then .cmd
  else if off = 0x010 then .errInfo
  else if off = 0x014 then .errCmd
  else if off = 0x018 then .fstat
  else if off = 0x01C then .capMaxlen
  else if off = 0x020 then .capDmem
  else if 0x040 ≤ off ∧ off < 0x060 then .scalar (BitVec.ofNat 3 ((off - 0x040) / 4))
  else if 0x060 ≤ off ∧ off < 0x080 then .blenr (BitVec.ofNat 3 ((off - 0x060) / 4))
  else if off = 0x080 then .bvalid
  else .reserved

/-- What an access of a width at an offset reaches (R65, R66). -/
def State.target (s : State) (off : HostOffset) (width : AccessWidth) : HostTarget :=
  if off.toNat < 0x10000 then
    if width = .w32 ∧ off.toNat % 4 = 0 then .reg (hostReg off.toNat) else .unsupported
  else if width = .w8 then
    if off.toNat - 0x10000 < s.params.dmemBytes then .dmem (off.toNat - 0x10000) else .dmemReserved
  else .unsupported

/-! ### Reads -/

/-- The value a register read returns; `none` where it is unspecified (R32 to R45, R273). -/
def State.readReg (s : State) (r : HostReg) : Option Word :=
  match r with
  | .id => some Config.idValue
  | .ctrl => some s.ctrlWord
  | .status => some s.statusWord
  | .cmd => some 0
  | .errInfo => some s.errInfo
  | .errCmd => some s.errCmd
  | .capMaxlen => some (BitVec.ofNat 32 s.params.maxlen)
  | .capDmem => some (BitVec.ofNat 32 s.params.dmemBytes)
  | .reserved => some 0
  | .fstat => if s.busy then none else some s.fstatWord
  | .scalar n => if s.busy then none else some (s.scalar n)
  | .blenr n => if s.busy then none else some (s.blenWord n)
  | .bvalid => if s.busy then none else some s.bvalidWord

/-- The value a host read returns; `none` where it is unspecified: while reset is asserted (R260), of an unsupported width
or alignment (R66), of operands and data memory while busy (R273). -/
def State.hostRead (s : State) (off : HostOffset) (width : AccessWidth) : Option Word :=
  if s.resetPin then none
  else
    match s.target off width with
    | .reg r => s.readReg r
    | .dmem a => if s.busy then none else some ((s.readByte a).setWidth 32)
    | .dmemReserved => some 0
    | .unsupported => none

/-- A free value cut to the width of the access that reads it (R273; log entry 11). -/
def freeReply (width : AccessWidth) (n : Nat) : Word :=
  match width with
  | .w8 => ((Config.freeWord n).setWidth 8).setWidth 32
  | .w16 => ((Config.freeWord n).setWidth 16).setWidth 32
  | .w32 => Config.freeWord n
  | .other => Config.freeWord n

/-! ### Writes and the soft reset -/

/-- A free bit for each byte of an abandoned STB: written already, or not (R262, I8). -/
def storeSome (m : Memory) (a : Nat) (bytes : List Byte) (draw : Nat) : Memory :=
  match bytes with
  | [] => m
  | b :: bs => storeSome (if Config.freeBit draw then Memory.store m a b else m) (a + 1) bs (draw + 1)

/-- The store in progress, if the engine is executing a STB whose checks pass (R121, R262). -/
def State.pendingStore (s : State) : Option (Nat × List Byte) :=
  match s.engine with
  | .idle => none
  | .executing w _ =>
    match decode w with
    | .ok (.stb a b) => (stbPlan a b s).toOption
    | _ => none

/-- Data memory after the command in progress is abandoned (R262). -/
def State.abandonedDmem (s : State) : Memory :=
  match s.pendingStore with
  | none => s.dmem
  | some (a, bytes) => storeSome s.dmem a bytes s.draws

/-- How many free bits abandoning the command in progress draws. -/
def State.abandonedDraws (s : State) : Nat :=
  match s.pendingStore with
  | none => 0
  | some (_, bytes) => bytes.length

/-- The soft reset (R50, R262): every register at its reset value, data memory kept but for an abandoned STB. The block's
inputs and the model's own counters are no part of it. -/
def State.softReset (s : State) : State :=
  { State.resetWith s.params with
    dmem := s.abandonedDmem
    draws := s.draws + s.abandonedDraws
    powerEpoch := s.powerEpoch
    resetPin := s.resetPin
    providerLive := s.providerLive
    inputs := s.inputs
    busReply := s.busReply }

/-- The end of a hardware reset (R49, R260): as the state right after reset, with data memory unspecified anew. -/
def State.hardwareReset (s : State) : State :=
  { State.resetWith s.params with
    powerEpoch := s.powerEpoch + 1
    providerLive := s.providerLive
    inputs := s.inputs
    busReply := s.busReply
    draws := s.draws }

/-- A dropped access: OVR is set, nothing else changes (R227, R271, R272). -/
def State.drop (s : State) : State := { s with stOvr := true }

/-- A write of `w` to CMD: accepted when not busy and not halted, else dropped (R36, R223, R271). -/
def State.acceptCommand (s : State) (w : Word) : State :=
  if s.busy || s.stErr then s.drop else { s with engine := .executing w [] }

/-- A write of CTRL: SRST performs the soft reset and discards the enables, else the enables are set (R34, R262). -/
def State.writeCtrl (s : State) (v : Word) : State :=
  if v.getLsbD 31 then s.softReset
  else { s with ieDone := v.getLsbD 0, ieErr := v.getLsbD 1, ieOvr := v.getLsbD 2 }

/-- A write of a register (R32 to R45, R271, R272). -/
def State.writeReg (s : State) (r : HostReg) (v : Word) : State :=
  match r with
  | .ctrl => s.writeCtrl v
  | .status => s.clearStatus v
  | .cmd => s.acceptCommand v
  | .scalar n => if s.busy then s.drop else s.writeScalar n v
  | .id | .errInfo | .errCmd | .fstat | .capMaxlen | .capDmem | .blenr _ | .bvalid | .reserved => s

/-- A host write (R65, R66, R260, R272). -/
def State.hostWrite (s : State) (off : HostOffset) (width : AccessWidth) (v : Word) : State :=
  if s.resetPin then s
  else
    match s.target off width with
    | .reg r => s.writeReg r v
    | .dmem a => if s.busy then s.drop else s.writeBytes a [v.setWidth 8]
    | .dmemReserved => s
    | .unsupported => s

/-- A host access: a write, or a read whose reply the host gets, an unspecified one drawn afresh (R273, R278). -/
def State.access (s : State) (a : HostAccess) : State :=
  match a with
  | .write off width v => s.hostWrite off width v
  | .read off width =>
    match s.hostRead off width with
    | some v => { s with busReply := some v }
    | none => { s with busReply := some (freeReply width s.draws), draws := s.draws + 1 }

/-! ### Coincident events -/

/-- The access is a write of STATUS. -/
def isStatusWrite (a : HostAccess) : Bool :=
  match a with
  | .write off width _ => off == 0x008 && width == .w32
  | .read _ _ => false

/-- The block drops the access (R227, R271, R272). -/
def State.drops (s : State) (a : HostAccess) : Bool :=
  match a with
  | .read _ _ => false
  | .write off width _ =>
    !s.resetPin &&
      match s.target off width with
      | .reg .cmd => s.busy || s.stErr
      | .reg (.scalar _) => s.busy
      | .dmem _ => s.busy
      | .reg _ => false
      | .dmemReserved => false
      | .unsupported => false

/-- The state of an outcome goes on to `f`; a stop stays a stop. -/
def andThen (o : Host.Outcome State Fault Refusal) (f : State → State) : Host.Outcome State Fault Refusal :=
  match o with
  | .next s => .next (f s)
  | .fault r => .fault r
  | .refused r => .refused r

/-- A host access at the moment the command in progress ends: the end first, then the access against the new state; but a
STATUS bit the end sets stays set against a write that clears it (R228). -/
def State.completeWith (s : State) (a : HostAccess) : Host.Outcome State Fault Refusal :=
  if isStatusWrite a then engineStep (s.access a) else andThen (engineStep s) fun t => t.access a

/-- A host access at the moment of a write of `v` to STATUS: OVR ends 1 where the access is dropped (R228). DESIGN CHOICE: the
spec gives two host accesses at one moment no order; here the access is judged against the state before the clear, so a CMD
write beside the STATUS write that clears ERR sees ERR 1 and is dropped with OVR, and a read sees the bits before the clear
(log entry 17; unsafe). -/
def State.clearWith (s : State) (v : Word) (a : HostAccess) : State :=
  if s.drops a then ((s.access a).hostWrite 0x008 .w32 v).drop else (s.access a).hostWrite 0x008 .w32 v

/-- What one event of the outside world does (R278). -/
def handleEvent (e : Event) (s : State) : Host.Outcome State Fault Refusal :=
  match e with
  | .access a => .next (s.access a)
  | .complete => engineStep s
  | .completeWith a => s.completeWith a
  | .clearWith v a => .next (s.clearWith v a)
  | .providerAnswer => .next s.providerAnswer
  | .providerLive on => .next { s with providerLive := on }
  | .assertReset => .next { s with resetPin := true, engine := .idle }
  | .releaseReset => .next (if s.resetPin then s.hardwareReset else s)

/-- The state in which the engine has just accepted the command word `w` and nothing else is about to happen (R271). -/
def State.accepted (s : State) (w : Word) : State :=
  { s with engine := .executing w [], inputs := [], resetPin := false }

end Sys2Proof.Machine
end

