-- ==== Sys2Proof/Machine/Step.lean ====
section
/-! DEFINITION. One step of the block: the next event of the outside world, or, where none is scheduled, the engine's own
step (70_reset_and_hazards.md rules R270 to R278). -/

namespace Sys2Proof.Machine

/-- One step (R72: one total order of host accesses and commands; log entry 6). -/
def step (s : State) : Host.Outcome State Fault Refusal :=
  match s.inputs with
  | [] => engineStep s
  | e :: rest => handleEvent e { s with inputs := rest }

/-- The state in which the command word of the opcode table has just been accepted, so that the very next step runs it
(R20, R271; log entry 7). -/
def State.withFetchWord (s : State) (nbits w : Nat) : State := s.accepted (tableWord nbits w)

end Sys2Proof.Machine
end

