-- ==== Sys2Proof/Safety.lean ====
section
/-! DEFINITION. The vocabulary of the claims about the block: the legal states, what a command that completes may have
changed, what error entry leaves, and when the accumulator is what the derivation makes of its requests. -/

namespace Sys2Proof.Machine

/-! ### Legal states -/

/-- The constraints the spec puts on the parameters (00_scope.md rule R5). -/
def Params.legal (p : Params) : Bool :=
  p.maxlen % 8 == 0 && decide (64 ≤ p.maxlen) && decide (p.maxlen < 2 ^ 32) && decide (1 ≤ p.dmemBytes) &&
    decide (p.dmemBytes ≤ 65536)

/-- A word ERRINFO may hold: CODE at most 9, CAUSE one of 1, 2, 3, 4 and 6 where CODE is CONVERT and 0 otherwise, every
other bit 0 (10_state.md rule R37, 60_exceptions.md rules R220 and R221). -/
def errInfoLegal (w : Word) : Bool :=
  w.extractLsb' 8 24 == 0 && decide ((w.extractLsb' 0 4).toNat ≤ 9) &&
    (if w.extractLsb' 0 4 == 5 then [1, 2, 3, 4, 6].contains (w.extractLsb' 4 4).toNat else w.extractLsb' 4 4 == 0)

/-- The invariant of the block: legal parameters (R5), buffers within capacity (R21), data memory in canonical form inside
its range (R60), a legal ERRINFO (R220, R221), no command executing in the halt (R223), no command executing while reset
is asserted (R260), and a ready flag only beside a present register (R26 to R28). -/
structure State.Inv (s : State) : Prop where
  params_legal : s.params.legal = true
  buf_fits : ∀ r v, s.buf r = some v → v.length ≤ s.params.maxlen
  dmem_wf : Memory.wf s.params.dmemBytes s.dmem = true
  errInfo_legal : errInfoLegal s.errInfo = true
  halted_idle : s.stErr = true → s.busy = false
  reset_idle : s.resetPin = true → s.busy = false
  enc_present : s.encReady = true → (s.buf encodedReg).isSome = true
  dec_present : s.decReady = true → (s.buf decodedReg).isSome = true

/-- The accumulator is what the derivation of the command in progress makes of that many provider answers: a command that
derives nothing, or has had no answer, holds none (43_hashchain.md rules R166 and R169). -/
def State.AccHonest (s : State) : Prop :=
  match s.engine with
  | .idle => True
  | .executing w acc =>
    acc = [] ∨ ∃ i seed n, decode w = .ok i ∧ derivationOf i s = some (seed, n) ∧ acc.length ≤ deriveRequests n ∧
      derivePasses s.params.hashFirst seed acc.length [] = some acc

/-- The engine can finish a derivation of `n` bytes at once: its accumulator is fresh and the provider answers. -/
def State.derivationFresh (s : State) : Prop := s.engine.accumulator = [] ∧ s.providerLive = true

/-- The provider answers at present, and every algorithm is available. -/
def State.providerAnswersAll (s : State) : Prop := s.providerLive = true ∧ ∀ alg m, s.params.hashFirst alg m ≠ none

/-- The command in progress makes `c` provider requests from here: one is outstanding after `j` answers exactly where `j` is
below `c` (70_reset_and_hazards.md rule R275). -/
def State.MakesRequests (s : State) (c : Nat) : Prop := ∀ j, (State.providerAnswer^[j] s).request = none ↔ c ≤ j

/-! ### What a command leaves -/

/-- `t` is `s` after a command completed (60_exceptions.md rule R225): DONE is set and the engine idle; only the buffers, the
scalars, the frame flags and data memory may differ besides. -/
def Completed (s t : State) : Prop :=
  t = { s with
    bufs := t.bufs
    scalars := t.scalars
    encReady := t.encReady
    decReady := t.decReady
    dmem := t.dmem
    stDone := true
    engine := .idle }

/-- Every buffer register reads as before. -/
def SameBuffers (s t : State) : Prop := ∀ r, t.buf r = s.buf r
/-- Every scalar register reads as before. -/
def SameScalars (s t : State) : Prop := ∀ r, t.scalar r = s.scalar r
/-- Every byte of data memory reads as before. -/
def SameMemory (s t : State) : Prop := ∀ a, t.readByte a = s.readByte a
/-- Both frame flags are as before. -/
def SameFlags (s t : State) : Prop := t.encReady = s.encReady ∧ t.decReady = s.decReady

/-- The frame flags after a setter write of `d` with a value present or not (10_state.md rules R26, R29, R31). -/
def SetterFlags (s t : State) (d : BufReg) (present : Bool) : Prop :=
  (d = 2 → t.encReady = present ∧ t.decReady = false) ∧
  (d = 0 → t.decReady = present ∧ t.encReady = false) ∧
  (d ≠ 0 → d ≠ 2 → SameFlags s t)

/-- A command completed and wrote the scalar register `d`, and nothing else. -/
def WroteScalar (s t : State) (d : ScalReg) (v : Word) : Prop :=
  Completed s t ∧ t.scalar d = v ∧ (∀ r, r ≠ d → t.scalar r = s.scalar r) ∧ SameBuffers s t ∧ SameMemory s t ∧ SameFlags s t

/-- A command that is no frame command completed and wrote the buffer register `d`, and nothing else but the frame flags of
a setter write. -/
def WroteBuffer (s t : State) (d : BufReg) (v : Option Bits) : Prop :=
  Completed s t ∧ t.buf d = v ∧ (∀ r, r ≠ d → t.buf r = s.buf r) ∧ SameScalars s t ∧ SameMemory s t ∧
    SetterFlags s t d v.isSome

/-- A frame encode completed: B2 and ENC_READY written, nothing else (10_state.md rule R27). -/
def WroteEncoded (s t : State) (v : Bits) : Prop :=
  Completed s t ∧ t.buf 2 = some v ∧ (∀ r, r ≠ 2 → t.buf r = s.buf r) ∧ SameScalars s t ∧ SameMemory s t ∧
    t.encReady = true ∧ t.decReady = s.decReady

/-- A frame decode completed: B0 and DEC_READY written, nothing else (10_state.md rule R27). -/
def WroteDecoded (s t : State) (v : Bits) : Prop :=
  Completed s t ∧ t.buf 0 = some v ∧ (∀ r, r ≠ 0 → t.buf r = s.buf r) ∧ SameScalars s t ∧ SameMemory s t ∧
    t.decReady = true ∧ t.encReady = s.encReady

/-- A command that is no frame command raised: ERRINFO and ERRCMD are written, ERR is set, the engine is idle, and NOTHING
else changed (60_exceptions.md rule R222). -/
def Raised (s t : State) (info cmd : Word) : Prop :=
  t = { s with errInfo := info, errCmd := cmd, stErr := true, engine := .idle }

/-- FENC or PENC raised: as `Raised`, and ENC_READY is cleared (R222, 10_state.md rule R28). -/
def RaisedEncode (s t : State) (info cmd : Word) : Prop :=
  t = { s with errInfo := info, errCmd := cmd, encReady := false, stErr := true, engine := .idle }

/-- FDEC or PDEC raised: as `Raised`, and DEC_READY is cleared (R222, 10_state.md rule R28). -/
def RaisedDecode (s t : State) (info cmd : Word) : Prop :=
  t = { s with errInfo := info, errCmd := cmd, decReady := false, stErr := true, engine := .idle }

/-- The words error entry may write to ERRINFO for a legal command (60_exceptions.md rule R230's table, with the codes of
R220 and R221). -/
def possibleErrors (i : Instr) : List Word :=
  match i with
  | .nop | .li .. | .lih .. | .bclr .. | .binv .. => []
  | .blen .. | .bmov .. => [0x6]
  | .ldb .. => [0x8, 0x9]
  | .stb .. => [0x6, 0x3, 0x8]
  | .hdrx .. | .rotr .. | .cut .. => [0x6, 0x3]
  | .ksb .. => [0x1]
  | .xor .. => [0x6, 0x1]
  | .xors .. => [0x6, 0x1, 0x2]
  | .drv .. => [0x6, 0x3, 0x9, 0x4]
  | .fenc f | .fdec f => if f then [0x65, 0x15, 0x35] else [0x65, 0x15, 0x35, 0x45]
  | .penc st | .pdec st => if st then [0x65, 0x15, 0x25] else [0x65, 0x15]
  | .mrg .. => [0x6, 0x9]

/-- Error entry of a legal command leaves just this: the frame flag it clears depends on the command (R222, R230). -/
def RaisedBy (i : Instr) (s t : State) (info : Word) : Prop :=
  match i with
  | .fenc _ | .penc _ => RaisedEncode s t info (encode i)
  | .fdec _ | .pdec _ => RaisedDecode s t info (encode i)
  | .nop | .li .. | .lih .. | .blen .. | .bclr .. | .bmov .. | .binv .. | .ldb .. | .stb .. | .hdrx .. | .ksb ..
  | .xor .. | .xors .. | .rotr .. | .drv .. | .cut .. | .mrg .. => Raised s t info (encode i)

/-! ### Frame operands -/

/-- Payload `p` of register `x` and key `k` pass frameCheck (44_secureframe.md rule R181). -/
def FrameReady (s : State) (x : BufReg) (p k : Bits) : Prop :=
  s.buf x = some p ∧ s.buf 1 = some k ∧ k ≠ [] ∧ p.length % 8 = 0 ∧ k.length % 8 = 0 ∧ p.length / 8 ≤ headerMax ∧
    p.length / 8 + 4 ≤ k.length / 8

/-- The filler length in bytes, `k - x - 4` (44_secureframe.md rule R180). -/
def fillerBytes (p k : Bits) : Nat := k.length / 8 - p.length / 8 - 4

/-- `fil` is the filler of the frame: B3, of the right length, or the derivation from the payload, made at once
(44_secureframe.md rule R182). -/
def FillerIs (s : State) (f : Bool) (p k fil : Bits) : Prop :=
  match f with
  | true => s.buf 3 = some fil ∧ fil.length = 8 * fillerBytes p k
  | false =>
    s.derivationFresh ∧ ∃ bytes, derive s.params.hashFirst (bytesOf p) (fillerBytes p k) = some bytes ∧ fil = toBits bytes

/-- `r` is the frame buffer of header, filler and payload, XORed bit by bit with the key, which is as long (R180, R142). -/
def IsFrame (p fil k r : Bits) : Prop :=
  r.length = k.length ∧
    ∀ i < k.length, r.getD i false = ((be32 (p.length / 8) ++ fil ++ p).getD i false ^^ k.getD i false)

/-! ### What the host may learn -/

/-- Two states that differ at most in the bits of their buffer registers: each register is present in both or in neither,
with one length. -/
def SameButBufferBits (s t : State) : Prop :=
  t = { s with bufs := t.bufs } ∧ ∀ r, (t.buf r).map List.length = (s.buf r).map List.length

end Sys2Proof.Machine
end

