-- ==== Sys2Proof/Certificates/Slice0/Obligations.lean ====
section
/-! DEFINITION. The statements about the block, one for each entry of OBLIGATIONS.json. Words of ERRINFO are written as
numbers: 0x65 is CODE 5 (CONVERT) with CAUSE 6 (60_exceptions.md rule R222). -/

open Sys2Proof Sys2Proof.Machine

/-! ### Encoding -/

/-- Decoding the word of a well-formed command gives the command back (30_encoding.md rules R82 to R88). -/
def Obligations.DecodeOfEncodeIsTheCommand : Prop :=
  ∀ i : Instr, i.wellFormed = true → decode (encode i) = .ok i

/-- A legal word stands for a well-formed command, and is that command's word: no bit is dropped (R88 to R91). -/
def Obligations.LegalWordIsTheWordOfItsCommand : Prop :=
  ∀ (w : Word) (i : Instr), decode w = .ok i → i.wellFormed = true ∧ encode i = w

/-- The legal words are those the opcode map selects, HDRX with a length over 32 apart, and no word is selected by two rows
(R88 to R91). -/
def Obligations.DecodeFollowsTheOpcodeMap : Prop :=
  ∀ w : Word,
    (∀ i, decode w = .ok i → ∃ r ∈ opcodeTable, r.mnemonic = i.mnemonic ∧ w &&& r.mask = r.matchBits) ∧
    (∀ r ∈ opcodeTable, w &&& r.mask = r.matchBits →
      if r.mnemonic = "HDRX" ∧ 32 < (w &&& 0x3F).toNat then decode w = .error .headerTooLong
      else ∃ i, decode w = .ok i ∧ i.mnemonic = r.mnemonic) ∧
    (∀ q ∈ opcodeTable, ∀ r ∈ opcodeTable, w &&& q.mask = q.matchBits → w &&& r.mask = r.matchBits → q = r)

/-- Where each operand of a format R and a format I word stands (R81, R83, R84, R96). -/
def Obligations.OperandsStandInTheirFields : Prop :=
  (∀ (d a b c : BitVec 3), encode (.cut d a b c) =
    0xA0000000 ||| d.setWidth 32 <<< 23 ||| a.setWidth 32 <<< 20 ||| b.setWidth 32 <<< 17 ||| c.setWidth 32 <<< 14) ∧
  (∀ (d a b : BitVec 3),
    encode (.ldb d a b) = 0x20000000 ||| d.setWidth 32 <<< 23 ||| a.setWidth 32 <<< 20 ||| b.setWidth 32 <<< 17 ∧
    encode (.ksb d a b) = 0x40000000 ||| d.setWidth 32 <<< 23 ||| a.setWidth 32 <<< 20 ||| b.setWidth 32 <<< 17 ∧
    encode (.xor d a b) = 0x44000000 ||| d.setWidth 32 <<< 23 ||| a.setWidth 32 <<< 20 ||| b.setWidth 32 <<< 17 ∧
    encode (.xors d a b) = 0x48000000 ||| d.setWidth 32 <<< 23 ||| a.setWidth 32 <<< 20 ||| b.setWidth 32 <<< 17 ∧
    encode (.rotr d a b) = 0x60000000 ||| d.setWidth 32 <<< 23 ||| a.setWidth 32 <<< 20 ||| b.setWidth 32 <<< 17 ∧
    encode (.drv d a b) = 0x64000000 ||| d.setWidth 32 <<< 23 ||| a.setWidth 32 <<< 20 ||| b.setWidth 32 <<< 17 ∧
    encode (.mrg d a b) = 0xA4000000 ||| d.setWidth 32 <<< 23 ||| a.setWidth 32 <<< 20 ||| b.setWidth 32 <<< 17) ∧
  (∀ (d a : BitVec 3),
    encode (.blen d a) = 0x10000000 ||| d.setWidth 32 <<< 23 ||| a.setWidth 32 <<< 20 ∧
    encode (.bmov d a) = 0x18000000 ||| d.setWidth 32 <<< 23 ||| a.setWidth 32 <<< 20 ∧
    encode (.bclr d) = 0x14000000 ||| d.setWidth 32 <<< 23 ∧
    encode (.binv d) = 0x1C000000 ||| d.setWidth 32 <<< 23 ∧
    encode (.stb a d) = 0x24000000 ||| a.setWidth 32 <<< 20 ||| d.setWidth 32 <<< 17) ∧
  (∀ (d a : BitVec 3) (h : BitVec 6),
    encode (.hdrx d a h) = 0x28000000 ||| d.setWidth 32 <<< 23 ||| a.setWidth 32 <<< 20 ||| h.setWidth 32) ∧
  (∀ (d : BitVec 3) (imm : BitVec 16),
    encode (.li d imm) = 0x08000000 ||| d.setWidth 32 <<< 23 ||| imm.setWidth 32 ∧
    encode (.lih d imm) = 0x0C000000 ||| d.setWidth 32 <<< 23 ||| imm.setWidth 32) ∧
  (∀ f : Bool,
    encode (.fenc f) = 0x80000000 ||| (BitVec.ofBool f).setWidth 32 ∧
    encode (.fdec f) = 0x84000000 ||| (BitVec.ofBool f).setWidth 32 ∧
    encode (.penc f) = 0x88000000 ||| (BitVec.ofBool f).setWidth 32 ∧
    encode (.pdec f) = 0x8C000000 ||| (BitVec.ofBool f).setWidth 32) ∧
  encode .nop = 0x04000000

/-- Words written out from the spec's encodings, one or more a family, and illegal ones (R96; 95_test_vectors.md E1 to
E16). -/
def Obligations.SampleWordsDecode : Prop :=
  decode 0x04000000 = .ok .nop ∧ decode 0x0B80FFFF = .ok (.li 7 0xFFFF) ∧ decode 0x2A000020 = .ok (.hdrx 4 0 32) ∧
  decode 0x46020000 = .ok (.xor 4 0 1) ∧ decode 0x65840000 = .ok (.drv 3 0 2) ∧ decode 0x80000001 = .ok (.fenc true) ∧
  decode 0x8C000001 = .ok (.pdec true) ∧ decode 0xA2C04000 = .ok (.cut 5 4 0 1) ∧ decode 0xA74A0000 = .ok (.mrg 6 4 5) ∧
  decode 0x00000000 = .error .unassignedOpcode ∧ decode 0x04000001 = .error .reservedBits ∧
  decode 0x2A000021 = .error .headerTooLong ∧ decode 0x24800000 = .error .reservedBits

/-- An illegal word raises ILLEGAL_COMMAND and has no other effect, on no register, byte or frame flag (R93). -/
def Obligations.IllegalWordRaisesIllegalCommand : Prop :=
  ∀ (s : State) (w : Word) (acc : List Byte) (e : DecodeError),
    s.inputs = [] → s.engine = .executing w acc → decode w = .error e →
      ∃ t, step s = .next t ∧ Raised s t 0x7 w

/-- A step runs the decoded command: where no input comes first, or the schedule says that the command ends now, the step
at a state whose engine holds a legal word is `exec` of its command there. -/
def Obligations.StepRunsTheDecodedCommand : Prop :=
  ∀ (s : State) (w : Word) (acc : List Byte) (i : Instr), s.engine = .executing w acc → decode w = .ok i →
    (s.inputs = [] → step s = exec i s) ∧
    (∀ rest, s.inputs = .complete :: rest → step s = exec i { s with inputs := rest })

/-! ### Control -/

/-- NOP changes nothing but DONE and the engine phase (R100). -/
def Obligations.NopOnlyCompletes : Prop :=
  ∀ s : State, exec .nop s = .next { s with stDone := true, engine := .idle }

/-- LI writes the zero-extended immediate, LIH the upper half only (R101, R102). -/
def Obligations.LoadImmediates : Prop :=
  ∀ (d : ScalReg) (imm : BitVec 16) (s : State),
    (∃ t, exec (.li d imm) s = .next t ∧ WroteScalar s t d (0#16 ++ imm)) ∧
    (∃ t, exec (.lih d imm) s = .next t ∧ WroteScalar s t d (imm ++ (s.scalar d).extractLsb' 0 16))

/-- BLEN gives the length in bits of a present buffer (R103). -/
def Obligations.BlenGivesTheLength : Prop :=
  ∀ (d : ScalReg) (a : BufReg) (s : State), s.Inv →
    (s.buf a = none → ∃ t, exec (.blen d a) s = .next t ∧ Raised s t 0x6 (encode (.blen d a))) ∧
    (∀ v, s.buf a = some v → ∃ t n, exec (.blen d a) s = .next t ∧ WroteScalar s t d n ∧ n.toNat = v.length)

/-- BCLR makes a register present and empty, BINV makes it absent (R104, R106). -/
def Obligations.ClearAndInvalidate : Prop :=
  ∀ (d : BufReg) (s : State),
    (∃ t, exec (.bclr d) s = .next t ∧ WroteBuffer s t d (some [])) ∧
    (∃ t, exec (.binv d) s = .next t ∧ WroteBuffer s t d none)

/-- BMOV copies a present buffer (R105). -/
def Obligations.BmovCopies : Prop :=
  ∀ (d a : BufReg) (s : State),
    (s.buf a = none → ∃ t, exec (.bmov d a) s = .next t ∧ Raised s t 0x6 (encode (.bmov d a))) ∧
    (∀ v, s.buf a = some v → ∃ t, exec (.bmov d a) s = .next t ∧ WroteBuffer s t d (some v))

/-! ### BitCodec -/

/-- LDB loads bytes as bits, the most significant bit of each byte first (R120, R64). -/
def Obligations.LdbLoadsBytesMsbFirst : Prop :=
  ∀ (d : BufReg) (a b : ScalReg) (s : State) (addr n : Nat), (s.scalar a).toNat = addr → (s.scalar b).toNat = n →
    (s.params.dmemBytes < addr + n → ∃ t, exec (.ldb d a b) s = .next t ∧ Raised s t 0x8 (encode (.ldb d a b))) ∧
    (addr + n ≤ s.params.dmemBytes → s.params.maxlen < 8 * n →
      ∃ t, exec (.ldb d a b) s = .next t ∧ Raised s t 0x9 (encode (.ldb d a b))) ∧
    (addr + n ≤ s.params.dmemBytes → 8 * n ≤ s.params.maxlen →
      ∃ t v, exec (.ldb d a b) s = .next t ∧ WroteBuffer s t d (some v) ∧ v.length = 8 * n ∧
        ∀ j < n, ∀ k < 8, v[8 * j + k]? = some ((s.readByte (addr + j)).getLsbD (7 - k)))

/-- STB stores the bits as bytes at its address and changes no other byte and no register (R121, R62). -/
def Obligations.StbStoresItsBytesOnly : Prop :=
  ∀ (a : BufReg) (b : ScalReg) (s : State) (addr : Nat), (s.scalar b).toNat = addr →
    (s.buf a = none → ∃ t, exec (.stb a b) s = .next t ∧ Raised s t 0x6 (encode (.stb a b))) ∧
    (∀ v, s.buf a = some v →
      (v.length % 8 ≠ 0 → ∃ t, exec (.stb a b) s = .next t ∧ Raised s t 0x3 (encode (.stb a b))) ∧
      (v.length % 8 = 0 → s.params.dmemBytes < addr + v.length / 8 →
        ∃ t, exec (.stb a b) s = .next t ∧ Raised s t 0x8 (encode (.stb a b))) ∧
      (v.length % 8 = 0 → addr + v.length / 8 ≤ s.params.dmemBytes →
        ∃ t, exec (.stb a b) s = .next t ∧ Completed s t ∧ SameBuffers s t ∧ SameScalars s t ∧ SameFlags s t ∧
          (∀ x, ¬(addr ≤ x ∧ x < addr + v.length / 8) → t.readByte x = s.readByte x) ∧
          ∀ j < v.length / 8, ∀ k < 8, v[8 * j + k]? = some ((t.readByte (addr + j)).getLsbD (7 - k))))

/-- HDRX keeps the last `8 N` bits, `N` the number in the first `h` bits (R122). -/
def Obligations.HdrxStripsHeaderAndFiller : Prop :=
  ∀ (d a : BufReg) (h : BitVec 6) (s : State),
    (s.buf a = none → ∃ t, exec (.hdrx d a h) s = .next t ∧ Raised s t 0x6 (encode (.hdrx d a h))) ∧
    (∀ v n, s.buf a = some v → n = uint (v.take h.toNat) →
      (v.length < h.toNat → ∃ t, exec (.hdrx d a h) s = .next t ∧ Raised s t 0x3 (encode (.hdrx d a h))) ∧
      (h.toNat ≤ v.length → v.length - h.toNat < 8 * n →
        ∃ t, exec (.hdrx d a h) s = .next t ∧ Raised s t 0x3 (encode (.hdrx d a h))) ∧
      (h.toNat ≤ v.length → 8 * n ≤ v.length - h.toNat →
        ∃ t r, exec (.hdrx d a h) s = .next t ∧ WroteBuffer s t d (some r) ∧ r.length = 8 * n ∧
          ∀ i < 8 * n, r[i]? = v[v.length - 8 * n + i]?))

/-- `uint` and `be32` are the positional readings of rule R8. -/
def Obligations.UintAndBe32ArePositional : Prop :=
  (∀ s : Bits, uint s = ∑ i ∈ Finset.range s.length, (s.getD i false).toNat * 2 ^ (s.length - 1 - i)) ∧
  (∀ n : Nat, n < 2 ^ 32 → (be32 n).length = 32 ∧ uint (be32 n) = n ∧
    ∀ j < 32, (be32 n).getD j false = decide ((n >>> (31 - j)) % 2 = 1))

/-- Storing a buffer of whole bytes and loading it back gives the buffer (R123). -/
def Obligations.StoreThenLoadGivesTheBuffer : Prop :=
  ∀ (s : State) (a d : BufReg) (b n : ScalReg) (v : Bits),
    s.buf a = some v → v.length % 8 = 0 → v.length ≤ s.params.maxlen → (s.scalar n).toNat = v.length / 8 →
    (s.scalar b).toNat + v.length / 8 ≤ s.params.dmemBytes →
      ∃ t u, exec (.stb a b) s = .next t ∧ exec (.ldb d b n) t = .next u ∧ u.buf d = some v

/-! ### Keystream and cipher -/

/-- KSB gives the keystream bit of its index (R140, R141). -/
def Obligations.KsbGivesTheKeystreamBit : Prop :=
  ∀ (d : ScalReg) (a : BufReg) (b : ScalReg) (s : State),
    (s.buf a = none ∨ s.buf a = some [] → ∃ t, exec (.ksb d a b) s = .next t ∧ Raised s t 0x1 (encode (.ksb d a b))) ∧
    (∀ k, s.buf a = some k → k ≠ [] →
      ∃ t x, exec (.ksb d a b) s = .next t ∧ WroteScalar s t d x ∧
        x.toNat = (k.getD ((s.scalar b).toNat % k.length) false).toNat)

/-- XOR gives the payload XORed with the cyclic key (R142, R143). -/
def Obligations.XorAppliesTheCyclicKey : Prop :=
  ∀ (d a b : BufReg) (s : State),
    (s.buf a = none → ∃ t, exec (.xor d a b) s = .next t ∧ Raised s t 0x6 (encode (.xor d a b))) ∧
    (∀ p, s.buf a = some p →
      (s.buf b = none ∨ s.buf b = some [] → ∃ t, exec (.xor d a b) s = .next t ∧ Raised s t 0x1 (encode (.xor d a b))) ∧
      (∀ k, s.buf b = some k → k ≠ [] →
        ∃ t r, exec (.xor d a b) s = .next t ∧ WroteBuffer s t d (some r) ∧ r.length = p.length ∧
          ∀ i < p.length, r.getD i false = (p.getD i false ^^ k.getD (i % k.length) false)))

/-- XORS does so where payload and key have one length, and raises KEY_LENGTH_MISMATCH where not (R144). -/
def Obligations.XorsNeedsEqualLengths : Prop :=
  ∀ (d a b : BufReg) (s : State),
    (s.buf a = none → ∃ t, exec (.xors d a b) s = .next t ∧ Raised s t 0x6 (encode (.xors d a b))) ∧
    (∀ p, s.buf a = some p →
      (s.buf b = none ∨ s.buf b = some [] →
        ∃ t, exec (.xors d a b) s = .next t ∧ Raised s t 0x1 (encode (.xors d a b))) ∧
      (∀ k, s.buf b = some k → k ≠ [] →
        (k.length ≠ p.length → ∃ t, exec (.xors d a b) s = .next t ∧ Raised s t 0x2 (encode (.xors d a b))) ∧
        (k.length = p.length →
          ∃ t r, exec (.xors d a b) s = .next t ∧ WroteBuffer s t d (some r) ∧ r.length = p.length ∧
            ∀ i < p.length, r.getD i false = (p.getD i false ^^ k.getD i false))))

/-- XOR twice with one key gives the payload back (R145). -/
def Obligations.XorTwiceRestoresThePayload : Prop :=
  ∀ (s : State) (d a b e : BufReg) (p k : Bits), s.buf a = some p → s.buf b = some k → k ≠ [] → d ≠ b →
    ∃ t u, exec (.xor d a b) s = .next t ∧ exec (.xor e d b) t = .next u ∧ u.buf e = some p

/-! ### Hash chain -/

/-- ROTR moves character `(j - n) mod |t|` to place `j`; an amount over 2^31 - 1 changes nothing (R164, R165). -/
def Obligations.RotrRotatesWholeBytes : Prop :=
  ∀ (d a : BufReg) (b : ScalReg) (s : State) (n : Nat), (s.scalar b).toNat = n →
    (s.buf a = none → ∃ t, exec (.rotr d a b) s = .next t ∧ Raised s t 0x6 (encode (.rotr d a b))) ∧
    (∀ v len, s.buf a = some v → v.length / 8 = len →
      (v.length % 8 ≠ 0 → ∃ t, exec (.rotr d a b) s = .next t ∧ Raised s t 0x3 (encode (.rotr d a b))) ∧
      (v.length % 8 = 0 →
        ∃ t r, exec (.rotr d a b) s = .next t ∧ WroteBuffer s t d (some r) ∧ r.length = v.length ∧
          (2 ^ 31 - 1 < n → r = v) ∧
          (n ≤ 2 ^ 31 - 1 → ∀ j < len, ∀ k < 8, r[8 * j + k]? = v[8 * ((j + len - n % len) % len) + k]?)))

/-- The algorithm a hex digit selects (R161's table), and the digits' codes and values (R11). That characters are ASCII codes
is presumed (log entry 20). -/
def Obligations.AlgorithmOfEachHexDigit : Prop :=
  ((List.range 16).map fun v => algOf (hexChar false v)) =
    [.sha1, .sha256, .sha384, .sha512, .md2, .md5, .sha1, .sha256, .sha384, .sha512, .sha256, .sha384, .sha512, .md2,
      .md5, .sha1] ∧
  ((List.range' 10 6).map fun v => algOf (hexChar true v)) = [.md5, .sha1, .sha256, .sha384, .sha512, .md2] ∧
  (∀ v < 16, ∀ upper, hexValue (hexChar upper v) = v) ∧
  ((List.range 16).map (hexChar false)) =
    [0x30, 0x31, 0x32, 0x33, 0x34, 0x35, 0x36, 0x37, 0x38, 0x39, 0x61, 0x62, 0x63, 0x64, 0x65, 0x66] ∧
  ((List.range 16).map (hexChar true)) =
    [0x30, 0x31, 0x32, 0x33, 0x34, 0x35, 0x36, 0x37, 0x38, 0x39, 0x41, 0x42, 0x43, 0x44, 0x45, 0x46]

/-- `derive` is the loop of rule R166: MD2 of the seed, then one character a pass from the algorithm the accumulator's first
character selects, and a rotation by that character's value, up to `n` characters; truncated to `n`. -/
def Obligations.DeriveIsTheLoop : Prop :=
  ∀ (hash : HashAlg → List Byte → Option Byte) (seed out : List Byte) (n : Nat),
    derive hash seed n = some out ↔
      ∃ acc : Nat → List Byte,
        (∃ c, hash .md2 seed = some c ∧ acc 1 = [c]) ∧
        (∀ m, 1 ≤ m → m < n → ∃ c0 c, (acc m).head? = some c0 ∧ hash (algOf c0) (acc m ++ seed) = some c ∧
          acc (m + 1) = rotateRight (acc m ++ [c]) (hexValue c0)) ∧
        out = (acc (max 1 n)).take n

/-- The character of a digest the derivation uses: none exactly for an unavailable algorithm, else the hex digit of the high
nibble of the first byte of the digest, which has the algorithm's fixed length (R160, R162; lengths: log entry 3). A derivation
of `n` bytes has `n` bytes, each a hex digit of the provider's case (R166, R168). -/
def Obligations.DerivedBytesAreHexDigits : Prop :=
  (∀ (p : Params) (alg : HashAlg) (m : List Byte),
    (p.hashFirst alg m = none ↔ p.unavailable.contains alg = true) ∧
    (p.unavailable.contains alg = false → ∃ g0 gs, p.digest alg m = some (g0 :: gs) ∧ gs.length + 1 = digestLength alg ∧
      p.hashFirst alg m = some (hexChar p.hexUpper (g0 >>> 4).toNat))) ∧
  (∀ (p : Params) (seed out : List Byte) (n : Nat), derive p.hashFirst seed n = some out →
    out.length = n ∧ ∀ c ∈ out, ∃ v < 16, c = hexChar p.hexUpper v)

/-- DRV writes the derivation of its seed; it raises HASH_UNAVAILABLE where the provider has an algorithm it needs not
(R167). The derivation is stated where the engine makes it from its start and the provider answers. -/
def Obligations.DrvDerivesFromItsSeed : Prop :=
  ∀ (d a : BufReg) (b : ScalReg) (s : State) (n : Nat), (s.scalar b).toNat = n →
    (s.buf a = none → ∃ t, exec (.drv d a b) s = .next t ∧ Raised s t 0x6 (encode (.drv d a b))) ∧
    (∀ v, s.buf a = some v →
      (v.length % 8 ≠ 0 → ∃ t, exec (.drv d a b) s = .next t ∧ Raised s t 0x3 (encode (.drv d a b))) ∧
      (v.length % 8 = 0 → s.params.maxlen < 8 * n →
        ∃ t, exec (.drv d a b) s = .next t ∧ Raised s t 0x9 (encode (.drv d a b))) ∧
      (v.length % 8 = 0 → 8 * n ≤ s.params.maxlen → s.derivationFresh →
        (derive s.params.hashFirst (bytesOf v) n = none →
          ∃ t, exec (.drv d a b) s = .next t ∧ Raised s t 0x4 (encode (.drv d a b))) ∧
        (∀ out, derive s.params.hashFirst (bytesOf v) n = some out →
          ∃ t, exec (.drv d a b) s = .next t ∧ WroteBuffer s t d (some (toBits out)))))

/-- How many provider requests a command makes (R275's table): DRV of `n` bytes, and FENC and FDEC with F = 0 and a filler of
`n` bytes, one request if `n` is at most 1, else `n`, the first of them MD2 of the seed; FENC and FDEC with F = 1, every other
command, and a command that raises before its derivation (R229) none. The requests are counted where the provider answers and
every algorithm is available. That a FENC which raises at `8N > |R|` derives first is the model's choice (log entry 28). -/
def Obligations.ProviderRequestsAreCounted : Prop :=
  ∀ (s : State) (w : Word) (i : Instr), s.engine = .executing w [] → decode w = .ok i →
    (∀ (d a : BufReg) (b : ScalReg) (n : Nat), i = .drv d a b → (s.scalar b).toNat = n →
      (s.buf a = none → s.request = none) ∧
      (∀ v, s.buf a = some v →
        (v.length % 8 ≠ 0 ∨ s.params.maxlen < 8 * n → s.request = none) ∧
        (v.length % 8 = 0 → 8 * n ≤ s.params.maxlen →
          s.request = some (i, .md2, bytesOf v) ∧
          (s.providerAnswersAll → s.MakesRequests (if n ≤ 1 then 1 else n))))) ∧
    (∀ x : BufReg, (i = .fenc false ∧ x = 0) ∨ (i = .fdec false ∧ x = 2) →
      ((∀ p k, ¬FrameReady s x p k) → s.request = none) ∧
      (∀ p k n, FrameReady s x p k → fillerBytes p k = n →
        s.request = some (i, .md2, bytesOf p) ∧
        (s.providerAnswersAll → s.MakesRequests (if n ≤ 1 then 1 else n)))) ∧
    ((∀ d a b, i ≠ .drv d a b) → i ≠ .fenc false → i ≠ .fdec false → s.request = none)

/-- An answer UNAVAILABLE ends the command at that request: HASH_UNAVAILABLE, wrapped for a frame command (R162, R166). -/
def Obligations.UnavailableEndsTheCommand : Prop :=
  ∀ (s : State) (i : Instr) (alg : HashAlg) (m : List Byte), s.providerLive = true → s.request = some (i, alg, m) →
    s.params.unavailable.contains alg = true →
      RaisedBy i s s.providerAnswer (if isFrameCommand i then 0x45 else 0x4)

/-- Whatever answers the provider gave already, the command ends as it would from its first request on (R166, R169). -/
def Obligations.EarlierAnswersDoNotChangeTheResult : Prop :=
  ∀ (s : State) (w : Word) (acc : List Byte), s.engine = .executing w acc → s.AccHonest → s.providerLive = true →
    engineStep s = engineStep { s with engine := .executing w [] }

/-- Every step keeps the accumulator what the derivation makes of its answers (R46, R166, R169). -/
def Obligations.EveryStepKeepsTheAccumulatorHonest : Prop :=
  ∀ s t : State, s.AccHonest → step s = .next t → t.AccHonest

/-! ### Secure frames -/

/-- FENC and FDEC check their input and key in order, and clear their flag where a check fails (R181, R221, R28). -/
def Obligations.FrameChecksRaiseInOrder : Prop :=
  ∀ (f : Bool) (s : State) (i : Instr) (x : BufReg), (i = .fenc f ∧ x = 0) ∨ (i = .fdec f ∧ x = 2) →
    (s.buf x = none ∨ s.buf 1 = none → ∃ t, exec i s = .next t ∧ RaisedBy i s t 0x65) ∧
    (∀ p k, s.buf x = some p → s.buf 1 = some k →
      (k = [] → ∃ t, exec i s = .next t ∧ RaisedBy i s t 0x15) ∧
      (k ≠ [] → p.length % 8 ≠ 0 ∨ k.length % 8 ≠ 0 → ∃ t, exec i s = .next t ∧ RaisedBy i s t 0x35) ∧
      (k ≠ [] → p.length % 8 = 0 → k.length % 8 = 0 → headerMax < p.length / 8 ∨ k.length / 8 < p.length / 8 + 4 →
        ∃ t, exec i s = .next t ∧ RaisedBy i s t 0x35))

/-- The filler of FENC and FDEC: absent or of a wrong length where it is supplied, or an unavailable algorithm where it is
derived (R182). That the unavailable algorithm comes before FENC's check `8N > |R|` is the model's choice (log entry 28). -/
def Obligations.FillerErrors : Prop :=
  ∀ (s : State) (x : BufReg) (p k : Bits), FrameReady s x p k →
    ∀ mk : Bool → Instr, (mk = .fenc ∧ x = 0) ∨ (mk = .fdec ∧ x = 2) →
      (s.buf 3 = none → ∃ t, exec (mk true) s = .next t ∧ RaisedBy (mk true) s t 0x65) ∧
      (∀ fil, s.buf 3 = some fil → fil.length ≠ 8 * fillerBytes p k →
        ∃ t, exec (mk true) s = .next t ∧ RaisedBy (mk true) s t 0x35) ∧
      (s.derivationFresh → derive s.params.hashFirst (bytesOf p) (fillerBytes p k) = none →
        ∃ t, exec (mk false) s = .next t ∧ RaisedBy (mk false) s t 0x45)

/-- FENC keeps the last `N` bytes of the frame XORed with the key, `N` read from the header after the XOR; too large an `N`
raises (R183). -/
def Obligations.FencKeepsTheTailItsHeaderNames : Prop :=
  ∀ (f : Bool) (s : State) (p k fil : Bits), FrameReady s 0 p k → FillerIs s f p k fil →
    ∃ r, IsFrame p fil k r ∧
      (k.length < 8 * uint (r.take 32) →
        ∃ t, exec (.fenc f) s = .next t ∧ RaisedEncode s t 0x35 (encode (.fenc f))) ∧
      (8 * uint (r.take 32) ≤ k.length →
        ∃ t, exec (.fenc f) s = .next t ∧ WroteEncoded s t (r.drop (k.length - 8 * uint (r.take 32))))

/-- FDEC gives the whole frame of the ciphertext XORed with the key (R184); the decoded header is the byte count of the
ciphertext XORed with the key's first 32 bits (R188). -/
def Obligations.FdecGivesTheWholeFrame : Prop :=
  ∀ (f : Bool) (s : State) (c k fil : Bits), FrameReady s 2 c k → FillerIs s f c k fil →
    ∃ t r, exec (.fdec f) s = .next t ∧ WroteDecoded s t r ∧ IsFrame c fil k r ∧
      ∀ i < 32, r.getD i false = ((be32 (c.length / 8)).getD i false ^^ k.getD i false)

/-- PENC and PDEC XOR with the cyclic key, and need equal lengths where they are strict (R185, R186). -/
def Obligations.PlainFramesXorWithTheKey : Prop :=
  ∀ (strict : Bool) (s : State) (i : Instr) (x : BufReg), (i = .penc strict ∧ x = 0) ∨ (i = .pdec strict ∧ x = 2) →
    (s.buf x = none → ∃ t, exec i s = .next t ∧ RaisedBy i s t 0x65) ∧
    (∀ p, s.buf x = some p →
      (s.buf 1 = none ∨ s.buf 1 = some [] → ∃ t, exec i s = .next t ∧ RaisedBy i s t 0x15) ∧
      (∀ k, s.buf 1 = some k → k ≠ [] →
        (strict = true → k.length ≠ p.length → ∃ t, exec i s = .next t ∧ RaisedBy i s t 0x25) ∧
        ((strict = true → k.length = p.length) →
          ∃ t r, exec i s = .next t ∧ (if x = 0 then WroteEncoded s t r else WroteDecoded s t r) ∧
            r.length = p.length ∧ ∀ j < p.length, r.getD j false = (p.getD j false ^^ k.getD (j % k.length) false))))

/-- Plain mode round trip (R186): PENC writes a ciphertext to B2, and PDEC, from any state with that ciphertext and that key
and whatever in B0 and elsewhere, writes the plaintext to B0; each strict or not, where a strict one needs equal lengths. -/
def Obligations.PlainRoundTrip : Prop :=
  ∀ (strictE strictD : Bool) (s : State) (p k : Bits), s.buf 0 = some p → s.buf 1 = some k → k ≠ [] →
    (strictE = true ∨ strictD = true → k.length = p.length) →
      ∃ t c, exec (.penc strictE) s = .next t ∧ WroteEncoded s t c ∧ c.length = p.length ∧
        ∀ t' : State, t'.buf 1 = t.buf 1 → t'.buf 2 = t.buf 2 →
          ∃ u, exec (.pdec strictD) t' = .next u ∧ WroteDecoded t' u p

/-- Secure mode round trip with a zero key prefix: FENC gives a ciphertext as long as the payload; FDEC of it, with any
filler, and HDRX of 32 header bits give the payload back (R187). -/
def Obligations.SecureRoundTripWithZeroKeyPrefix : Prop :=
  ∀ (f g : Bool) (s : State) (p k fil : Bits) (d : BufReg), FrameReady s 0 p k → FillerIs s f p k fil →
    (∀ i < 32, k.getD i false = false) →
    ∃ t c, exec (.fenc f) s = .next t ∧ t.buf 2 = some c ∧ c.length = p.length ∧
      (∀ i < p.length, c.getD i false = (p.getD i false ^^ k.getD (k.length - p.length + i) false)) ∧
      ∀ fil', FillerIs t g c k fil' →
        ∃ u x, exec (.fdec g) t = .next u ∧ exec (.hdrx d 0 32) u = .next x ∧ x.buf d = some p

/-! ### Bit buffers -/

/-- CUT gives the bits from its start up to its end (R210). -/
def Obligations.CutSlices : Prop :=
  ∀ (d a : BufReg) (b c : ScalReg) (s : State) (st en : Nat), (s.scalar b).toNat = st → (s.scalar c).toNat = en →
    (s.buf a = none → ∃ t, exec (.cut d a b c) s = .next t ∧ Raised s t 0x6 (encode (.cut d a b c))) ∧
    (∀ v, s.buf a = some v →
      (¬(st ≤ en ∧ en ≤ v.length) → ∃ t, exec (.cut d a b c) s = .next t ∧ Raised s t 0x3 (encode (.cut d a b c))) ∧
      (st ≤ en ∧ en ≤ v.length →
        ∃ t r, exec (.cut d a b c) s = .next t ∧ WroteBuffer s t d (some r) ∧ r.length = en - st ∧
          ∀ i < en - st, r[i]? = v[st + i]?))

/-- MRG concatenates (R211). -/
def Obligations.MrgConcatenates : Prop :=
  ∀ (d a b : BufReg) (s : State),
    (s.buf a = none ∨ s.buf b = none → ∃ t, exec (.mrg d a b) s = .next t ∧ Raised s t 0x6 (encode (.mrg d a b))) ∧
    (∀ u v, s.buf a = some u → s.buf b = some v →
      (s.params.maxlen < u.length + v.length →
        ∃ t, exec (.mrg d a b) s = .next t ∧ Raised s t 0x9 (encode (.mrg d a b))) ∧
      (u.length + v.length ≤ s.params.maxlen →
        ∃ t r, exec (.mrg d a b) s = .next t ∧ WroteBuffer s t d (some r) ∧ r.length = u.length + v.length ∧
          (∀ i < u.length, r[i]? = u[i]?) ∧ ∀ i < v.length, r[u.length + i]? = v[i]?))

/-- Cutting a buffer in two and merging the parts gives the buffer (R212). -/
def Obligations.CutThenMergeRestores : Prop :=
  ∀ (s : State) (a d e g : BufReg) (z m l : ScalReg) (v : Bits),
    s.Inv → s.buf a = some v → (s.scalar z).toNat = 0 → (s.scalar m).toNat ≤ v.length → (s.scalar l).toNat = v.length →
    d ≠ a → d ≠ e →
      ∃ t u x, exec (.cut d a z m) s = .next t ∧ exec (.cut e a m l) t = .next u ∧ exec (.mrg g d e) u = .next x ∧
        x.buf g = some v

/-! ### Errors, halt, interrupts -/

/-- Every legal command ends in one of these ways: it completes; it raises one of the errors its row of rule R230 lists, and
the state is the one before but for what error entry writes (R222, R229); or it waits for a provider that answers nothing,
with nothing changed (I10). -/
def Obligations.EveryCommandCompletesOrRaisesPrecisely : Prop :=
  ∀ (i : Instr) (s : State), ∃ t, exec i s = .next t ∧
    (Completed s t ∨ (∃ info ∈ possibleErrors i, RaisedBy i s t info) ∨
      (t = s ∧ s.providerLive = false ∧ (∃ o, derivationOf i s = some o)))

/-- The word error entry writes to ERRINFO: CODE in bits 3:0, CAUSE in bits 7:4 (R220 to R222). -/
def Obligations.ErrorCodesAreThoseOfTheTable : Prop :=
  [ErrorCode.none, .emptyKey, .keyLengthMismatch, .length, .hashUnavailable, .convert, .nullOperand, .illegalCommand,
    .accessFault, .capacity].map ErrorCode.code = [0, 1, 2, 3, 4, 5, 6, 7, 8, 9] ∧
  ∀ e c : ErrorCode, errInfoWord e c = (c.code.setWidth 32 <<< 4) ||| e.code.setWidth 32

/-- The interrupt output (R226). -/
def Obligations.IrqIsTheEnabledPendingBits : Prop :=
  ∀ s : State, s.irq = true ↔
    (s.ieDone = true ∧ s.stDone = true) ∨ (s.ieErr = true ∧ s.stErr = true) ∨ (s.ieOvr = true ∧ s.stOvr = true)

/-- A write of STATUS clears the bits written 1, and nothing else: the acknowledgement of an error too (R35, R224). -/
def Obligations.StatusWriteClearsWrittenOnes : Prop :=
  ∀ (s : State) (v : Word), s.resetPin = false →
    s.access (.write 0x008 .w32 v) =
      { s with stDone := s.stDone && !v.getLsbD 1, stErr := s.stErr && !v.getLsbD 2, stOvr := s.stOvr && !v.getLsbD 3 }

/-- A bit set at the moment it is cleared ends 1: the end of a command against a host write of STATUS, a dropped access
against one. A command that ends at the moment of any other access ends first, and the access meets the state it left: a CMD
write is accepted after a completion and dropped after a raise, writes of scalars and data memory are not dropped, and reads
give what the command wrote. A soft reset at the moment of the end of a command, or of a write of STATUS, takes effect last and
leaves the reset values; data memory keeps what the command wrote (R228, R50).
The form of the events is log entry 17's. -/
def Obligations.CoincidentEventsEndFirst : Prop :=
  (∀ (s t : State) (w v : Word) (acc : List Byte),
    s.Inv → s.engine = .executing w acc → engineStep s = .next t → t.engine = .idle →
    (t.stErr = false →
      s.completeWith (.write 0x008 .w32 v) = .next { t with stOvr := s.stOvr && !v.getLsbD 3 } ∧ t.stDone = true ∧
      s.completeWith (.write 0x00C .w32 v) = .next { t with engine := .executing v [] }) ∧
    (t.stErr = true →
      s.completeWith (.write 0x008 .w32 v) =
        .next { t with stDone := s.stDone && !v.getLsbD 1, stOvr := s.stOvr && !v.getLsbD 3 } ∧
      s.completeWith (.write 0x00C .w32 v) = .next { t with stOvr := true }) ∧
    (v.getLsbD 31 = true →
      s.completeWith (.write 0x004 .w32 v) = .next { State.resetWith t.params with
        dmem := t.dmem, draws := t.draws, powerEpoch := t.powerEpoch, providerLive := t.providerLive, inputs := t.inputs,
        busReply := t.busReply }) ∧
    (∀ n : BitVec 3, ∃ u, s.completeWith (.write (0x040 + 4 * n.setWidth 17) .w32 v) = .next u ∧
      u = { t with scalars := u.scalars } ∧ u.scalar n = v ∧ ∀ r, r ≠ n → u.scalar r = t.scalar r) ∧
    (∀ off : HostOffset, 0x10000 ≤ off.toNat → off.toNat < 0x10000 + s.params.dmemBytes →
      (∃ u, s.completeWith (.write off .w8 v) = .next u ∧ u = { t with dmem := u.dmem } ∧
        u.readByte (off.toNat - 0x10000) = v.setWidth 8 ∧
        ∀ x, x ≠ off.toNat - 0x10000 → u.readByte x = t.readByte x) ∧
      s.completeWith (.read off .w8) =
        .next { t with busReply := some ((t.readByte (off.toNat - 0x10000)).setWidth 32) }) ∧
    (∀ n : BitVec 3, s.completeWith (.read (0x040 + 4 * n.setWidth 17) .w32) =
      .next { t with busReply := some (t.scalar n) }) ∧
    (∀ a : HostAccess, (∀ x, a ≠ .write 0x008 .w32 x) → s.completeWith a = .next (t.access a))) ∧
  (∀ (s : State) (v : Word) (a : HostAccess), s.drops a = true → (s.clearWith v a).stOvr = true) ∧
  (∀ (s : State) (v u : Word), s.resetPin = false → u.getLsbD 31 = true →
    s.clearWith v (.write 0x004 .w32 u) = s.access (.write 0x004 .w32 u))

/-! ### The whole machine -/

/-- The state right after reset is legal. -/
def Obligations.ResetStateIsLegal : Prop := State.reset.Inv ∧ State.reset.AccHonest

/-- Every step from a legal state leads to a legal state. -/
def Obligations.EveryStepKeepsTheInvariant : Prop :=
  ∀ s t : State, s.Inv → step s = .next t → t.Inv

/-- Every step ends in a next state, and none changes the parameters (R5, R163). -/
def Obligations.NoStepStopsOrChangesTheParameters : Prop :=
  ∀ s : State, ∃ t, step s = .next t ∧ t.params = s.params

/-- What every piece of state holds after a hardware reset, for any parameters; data memory holds free bytes (R49). -/
def Obligations.ResetValues : Prop :=
  ∀ (p : Params) (s : State), s = State.resetWith p →
    (∀ r, s.buf r = none) ∧ (∀ r, s.scalar r = 0) ∧ s.encReady = false ∧ s.decReady = false ∧ s.fstatWord = 0 ∧
      s.ctrlWord = 0 ∧ s.statusWord = 0 ∧ s.errInfo = 0 ∧ s.errCmd = 0 ∧ s.engine = .idle ∧ s.irq = false ∧
      s.hostRead 0x000 .w32 = some 0x494B0001 ∧ s.hostRead 0x01C .w32 = some (BitVec.ofNat 32 p.maxlen) ∧
      s.hostRead 0x020 .w32 = some (BitVec.ofNat 32 p.dmemBytes) ∧
      ∀ x, s.readByte x = Config.powerOnByte s.powerEpoch x

/-! ### The host -/

/-- A write of CMD is accepted when the engine is idle and no error is pending; else it is dropped and OVR is set. A read of
CMD returns 0 (R36, R223, R271). -/
def Obligations.CommandAcceptance : Prop :=
  ∀ (s : State) (w : Word), s.resetPin = false →
    (s.busy = false → s.stErr = false →
      s.access (.write 0x00C .w32 w) = { s with engine := .executing w [] }) ∧
    (s.busy = true ∨ s.stErr = true → s.access (.write 0x00C .w32 w) = { s with stOvr := true }) ∧
    s.hostRead 0x00C .w32 = some 0

/-- While busy, writes of the scalars, of data memory and of CMD are dropped and set OVR, and writes of CTRL (the soft reset
too) and of STATUS take effect (R272). A write of a read-only or reserved register is ignored, busy or idle (R33, R37 to R41,
R43 to R45). -/
def Obligations.WritesWhileBusy : Prop :=
  (∀ (s : State) (v : Word), s.resetPin = false → s.busy = true →
    (∀ n : BitVec 3, s.access (.write (0x040 + 4 * n.setWidth 17) .w32 v) = { s with stOvr := true }) ∧
    (∀ off : HostOffset, 0x10000 ≤ off.toNat → off.toNat < 0x10000 + s.params.dmemBytes →
      s.access (.write off .w8 v) = { s with stOvr := true }) ∧
    s.access (.write 0x00C .w32 v) = { s with stOvr := true } ∧
    (v.getLsbD 31 = false → s.access (.write 0x004 .w32 v) =
      { s with ieDone := v.getLsbD 0, ieErr := v.getLsbD 1, ieOvr := v.getLsbD 2 }) ∧
    (v.getLsbD 31 = true → s.access (.write 0x004 .w32 v) = s.softReset) ∧
    s.access (.write 0x008 .w32 v) =
      { s with stDone := s.stDone && !v.getLsbD 1, stErr := s.stErr && !v.getLsbD 2, stOvr := s.stOvr && !v.getLsbD 3 }) ∧
  (∀ (s : State) (v : Word) (off : HostOffset), s.resetPin = false → off.toNat % 4 = 0 →
    off.toNat = 0x000 ∨ (0x010 ≤ off.toNat ∧ off.toNat < 0x040) ∨ (0x060 ≤ off.toNat ∧ off.toNat < 0x10000) →
      s.access (.write off .w32 v) = s)

/-- While busy, a read of the scalars, FSTAT, BLENR, BVALID or data memory has no specified value; STATUS shows BUSY 1 beside
its stored bits; a read of every other register is as when idle (R273, R35). Busy or not, a read changes nothing but the
model's record of the reply, and where the value is not specified the reply is a free value drawn afresh (R69, R273; log
entries 11, 12 and 26). -/
def Obligations.ReadsWhileBusy : Prop :=
  (∀ s : State, s.resetPin = false → s.busy = true →
    (∀ n : BitVec 3, s.hostRead (0x040 + 4 * n.setWidth 17) .w32 = none) ∧
    (∀ n : BitVec 3, s.hostRead (0x060 + 4 * n.setWidth 17) .w32 = none) ∧
    s.hostRead 0x018 .w32 = none ∧ s.hostRead 0x080 .w32 = none ∧
    (∀ off : HostOffset, 0x10000 ≤ off.toNat → off.toNat < 0x10000 + s.params.dmemBytes → s.hostRead off .w8 = none) ∧
    (∃ v, s.hostRead 0x008 .w32 = some v ∧ v.getLsbD 0 = true ∧ v.getLsbD 1 = s.stDone ∧ v.getLsbD 2 = s.stErr ∧
      v.getLsbD 3 = s.stOvr ∧ v >>> 4 = 0) ∧
    (∀ off : HostOffset, off.toNat < 0x10000 → off.toNat % 4 = 0 → off ≠ 0x008 → off ≠ 0x018 → off ≠ 0x080 →
      ¬(0x040 ≤ off.toNat ∧ off.toNat < 0x080) →
      s.hostRead off .w32 = ({ s with engine := .idle } : State).hostRead off .w32 ∧ s.hostRead off .w32 ≠ none)) ∧
  (∀ (s : State) (off : HostOffset) (width : AccessWidth),
    (∀ v, s.hostRead off width = some v → s.access (.read off width) = { s with busReply := some v }) ∧
    (s.hostRead off width = none →
      s.access (.read off width) = { s with busReply := some (freeReply width s.draws), draws := s.draws + 1 }))

/-- What the registers read as when the engine is idle (R33 to R44). -/
def Obligations.ReadsWhenIdle : Prop :=
  ∀ s : State, s.Inv → s.resetPin = false → s.busy = false →
    s.hostRead 0x000 .w32 = some 0x494B0001 ∧ s.hostRead 0x00C .w32 = some 0 ∧
    s.hostRead 0x010 .w32 = some s.errInfo ∧ s.hostRead 0x014 .w32 = some s.errCmd ∧
    (∃ v, s.hostRead 0x01C .w32 = some v ∧ v.toNat = s.params.maxlen) ∧
    (∃ v, s.hostRead 0x020 .w32 = some v ∧ v.toNat = s.params.dmemBytes) ∧
    (∀ n : BitVec 3, s.hostRead (0x040 + 4 * n.setWidth 17) .w32 = some (s.scalar n)) ∧
    (∃ v, s.hostRead 0x004 .w32 = some v ∧ v.getLsbD 0 = s.ieDone ∧ v.getLsbD 1 = s.ieErr ∧ v.getLsbD 2 = s.ieOvr ∧
      v >>> 3 = 0) ∧
    (∃ v, s.hostRead 0x008 .w32 = some v ∧ v.getLsbD 0 = false ∧ v.getLsbD 1 = s.stDone ∧ v.getLsbD 2 = s.stErr ∧
      v.getLsbD 3 = s.stOvr ∧ v >>> 4 = 0) ∧
    (∃ v, s.hostRead 0x018 .w32 = some v ∧ v.getLsbD 0 = s.encReady ∧ v.getLsbD 1 = s.decReady ∧
      (v.getLsbD 2 = true ↔ ∃ k, s.buf 1 = some k ∧ k ≠ []) ∧
      v.getLsbD 3 = (s.encReady && s.decReady && v.getLsbD 2) ∧ v >>> 4 = 0) ∧
    (∀ n : BitVec 3, ∃ v, s.hostRead (0x060 + 4 * n.setWidth 17) .w32 = some v ∧
      v.toNat = ((s.buf n).map List.length).getD 0) ∧
    (∃ v, s.hostRead 0x080 .w32 = some v ∧ (∀ n : BitVec 3, v.getLsbD n.toNat = (s.buf n).isSome) ∧ v >>> 8 = 0)

/-- Reserved offsets of the register window read 0 and ignore writes, busy or not (R45). -/
def Obligations.ReservedOffsetsReadZero : Prop :=
  ∀ (s : State) (off : HostOffset) (v : Word), s.resetPin = false → off.toNat % 4 = 0 →
    (0x024 ≤ off.toNat ∧ off.toNat < 0x040) ∨ (0x084 ≤ off.toNat ∧ off.toNat < 0x10000) →
      s.access (.read off .w32) = { s with busReply := some 0 } ∧ s.access (.write off .w32 v) = s

/-- An access of a width or an alignment the window does not support: the write is ignored, the read returns a free value,
no STATUS bit is set (R66). -/
def Obligations.UnsupportedAccesses : Prop :=
  ∀ (s : State) (off : HostOffset) (width : AccessWidth) (v : Word), s.resetPin = false →
    (off.toNat < 0x10000 ∧ (width ≠ .w32 ∨ off.toNat % 4 ≠ 0)) ∨ (0x10000 ≤ off.toNat ∧ width ≠ .w8) →
      s.access (.write off width v) = s ∧
      s.access (.read off width) = { s with busReply := some (freeReply width s.draws), draws := s.draws + 1 }

/-- The DMEM window when idle: a byte written is read back, no other byte and nothing else changes; above data memory it
reads 0 and ignores writes (R65). -/
def Obligations.DmemWindowWhenIdle : Prop :=
  ∀ (s : State) (off : HostOffset) (v : Word), s.resetPin = false → s.busy = false → 0x10000 ≤ off.toNat →
    (off.toNat < 0x10000 + s.params.dmemBytes →
      s.hostRead off .w8 = some ((s.readByte (off.toNat - 0x10000)).setWidth 32) ∧
      ∃ t, s.access (.write off .w8 v) = t ∧ t = { s with dmem := t.dmem } ∧
        t.readByte (off.toNat - 0x10000) = v.setWidth 8 ∧
        ∀ x, x ≠ off.toNat - 0x10000 → t.readByte x = s.readByte x) ∧
    (0x10000 + s.params.dmemBytes ≤ off.toNat → s.hostRead off .w8 = some 0 ∧ s.access (.write off .w8 v) = s)

/-- A write of a scalar register when idle, and of the interrupt enables (R34, R42). -/
def Obligations.HostWritesScalarsAndEnables : Prop :=
  ∀ (s : State) (v : Word), s.resetPin = false → s.busy = false →
    (∀ n : BitVec 3, ∃ t, s.access (.write (0x040 + 4 * n.setWidth 17) .w32 v) = t ∧
      t = { s with scalars := t.scalars } ∧ t.scalar n = v ∧ ∀ r, r ≠ n → t.scalar r = s.scalar r) ∧
    (v.getLsbD 31 = false → s.access (.write 0x004 .w32 v) =
      { s with ieDone := v.getLsbD 0, ieErr := v.getLsbD 1, ieOvr := v.getLsbD 2 })

/-- The soft reset: every register at its reset value, the enables written with it discarded; a byte of data memory keeps
its value, but a byte an abandoned STB was to write may hold the new one (R50, R262). -/
def Obligations.SoftResetKeepsDataMemory : Prop :=
  ∀ (s t : State) (v : Word), s.resetPin = false → v.getLsbD 31 = true → s.access (.write 0x004 .w32 v) = t →
    t = { State.resetWith s.params with
      dmem := t.dmem, draws := t.draws, powerEpoch := s.powerEpoch, providerLive := s.providerLive, inputs := s.inputs,
      busReply := s.busReply } ∧
    ∀ x, t.readByte x = s.readByte x ∨
      ∃ (w : Word) (acc : List Byte) (a : BufReg) (b : ScalReg) (bits : Bits) (j : Nat),
        s.engine = .executing w acc ∧ decode w = .ok (.stb a b) ∧ s.buf a = some bits ∧ bits.length % 8 = 0 ∧
        (s.scalar b).toNat + bits.length / 8 ≤ s.params.dmemBytes ∧ j < bits.length / 8 ∧
        x = (s.scalar b).toNat + j ∧ (bytesOf bits)[j]? = some (t.readByte x)

/-- The hardware reset: while it is asserted writes are ignored and reads return free values; at its end every piece of
state holds its reset value, and every byte of data memory is what it happens to hold anew (R260, R77). -/
def Obligations.HardwareResetResetsEverything : Prop :=
  ∀ s : State, ∃ t u, handleEvent .assertReset s = .next t ∧ handleEvent .releaseReset t = .next u ∧
    (∀ off width v, t.access (.write off width v) = t ∧ t.hostRead off width = none) ∧ engineStep t = .next t ∧
    u = { State.resetWith s.params with
      powerEpoch := s.powerEpoch + 1, providerLive := s.providerLive, inputs := s.inputs, busReply := s.busReply,
      draws := s.draws } ∧
    ∀ x, u.readByte x = Config.powerOnByte (s.powerEpoch + 1) x

/-- The host can read the presence and the length of a buffer register, but not its bits (R21). -/
def Obligations.HostReadsNoBufferBits : Prop :=
  ∀ (s t : State) (off : HostOffset) (width : AccessWidth), SameButBufferBits s t →
    t.hostRead off width = s.hostRead off width
end

