-- ==== Sys2Proof/Laws/Bits.lean ====
section
/-! SUPPORT. Lengths and elements of the bit-sequence functions (00_scope.md rules R6 to R8, 42_keystream_cipher.md rules
R140 and R142). -/

namespace Sys2Proof.Machine

/-! ### Slices -/

@[simp] theorem slice_length (s : Bits) (a b : Nat) : (slice s a b).length = min (b - a) (s.length - a) := by
  simp [slice]

theorem slice_getElem (s : Bits) (a b i : Nat) (h : i < (slice s a b).length) :
    (slice s a b)[i] = s[a + i]'(by simp at h; omega) := by
  simp [slice]

theorem slice_zero (s : Bits) (n : Nat) : slice s 0 n = s.take n := by simp [slice]

/-- The last `n` bits. -/
theorem slice_tail (s : Bits) (n : Nat) : slice s (s.length - n) s.length = s.drop (s.length - n) := by
  simp only [slice]
  exact List.take_of_length_le (by simp)

/-! ### Integers -/

theorem uint_foldl (s : Bits) (n : Nat) :
    s.foldl (fun n b => 2 * n + b.toNat) n = n * 2 ^ s.length + uint s := by
  induction s generalizing n with
  | nil => simp [uint]
  | cons b s ih =>
    simp only [uint, List.foldl_cons, List.length_cons]
    rw [ih (2 * n + b.toNat), ih (2 * 0 + b.toNat)]
    ring

@[simp] theorem uint_nil : uint [] = 0 := rfl

/-- The first bit is the most significant (R8). -/
theorem uint_cons (b : Bool) (s : Bits) : uint (b :: s) = b.toNat * 2 ^ s.length + uint s := by
  conv_lhs => rw [uint, List.foldl_cons, uint_foldl]
  simp

theorem uint_append (s t : Bits) : uint (s ++ t) = uint s * 2 ^ t.length + uint t := by
  rw [uint, List.foldl_append, uint_foldl, ← uint]

theorem uint_lt (s : Bits) : uint s < 2 ^ s.length := by
  induction s with
  | nil => simp
  | cons b s ih =>
    rw [uint_cons, List.length_cons, pow_succ]
    cases b <;> simp <;> omega

@[simp] theorem be32_length (n : Nat) : (be32 n).length = 32 := by simp [be32]

theorem be32_getElem (n j : Nat) (h : j < (be32 n).length) : (be32 n)[j] = n.testBit (31 - j) := by simp [be32]

/-- The bits of `n` from bit `k - 1` down are those of `n mod 2^k`. -/
theorem uint_range_testBit (n k : Nat) :
    uint ((List.range k).map fun j => n.testBit (k - 1 - j)) = n % 2 ^ k := by
  induction k with
  | zero => simp [Nat.mod_one]
  | succ k ih =>
    rw [List.range_succ_eq_map, List.map_cons, List.map_map, uint_cons]
    have : ((fun j => n.testBit (k + 1 - 1 - j)) ∘ Nat.succ) = fun j => n.testBit (k - 1 - j) := by
      funext j
      simp only [Function.comp, Nat.succ_eq_add_one]
      congr 1
      omega
    rw [this, ih]
    simp only [List.length_map, List.length_range, Nat.add_sub_cancel, Nat.sub_zero]
    rw [Nat.testBit_eq_decide_div_mod_eq, Nat.pow_succ, Nat.mod_mul]
    have : (decide (n / 2 ^ k % 2 = 1)).toNat = n / 2 ^ k % 2 := by
      rcases Nat.mod_two_eq_zero_or_one (n / 2 ^ k) with h | h <;> simp [h]
    rw [this]
    ring

/-- The header reads back (R8). -/
theorem uint_be32 (n : Nat) (h : n < 2 ^ 32) : uint (be32 n) = n := by
  rw [be32, uint_range_testBit n 32, Nat.mod_eq_of_lt h]

/-! ### Bytes -/

@[simp] theorem byteBits_length (b : Byte) : (byteBits b).length = 8 := rfl

theorem byteBits_getElem (b : Byte) (k : Nat) (h : k < (byteBits b).length) : (byteBits b)[k] = b.getMsbD k := by
  simp only [byteBits_length] at h
  interval_cases k <;> rfl

theorem byte_of_byteBits (b : Byte) : BitVec.ofNat 8 (uint (byteBits b)) = b := by
  revert b
  decide

theorem byteBits_of_uint (s : Bits) (h : s.length = 8) : byteBits (BitVec.ofNat 8 (uint s)) = s := by
  match s, h with
  | [b0, b1, b2, b3, b4, b5, b6, b7], _ =>
    revert b0 b1 b2 b3 b4 b5 b6 b7
    decide

@[simp] theorem toBits_nil : toBits [] = [] := rfl

theorem toBits_cons (b : Byte) (bs : List Byte) : toBits (b :: bs) = byteBits b ++ toBits bs := by simp [toBits]

@[simp] theorem toBits_length (bs : List Byte) : (toBits bs).length = 8 * bs.length := by
  induction bs with
  | nil => rfl
  | cons b bs ih => rw [toBits_cons, List.length_append, ih, byteBits_length, List.length_cons]; ring

/-- Bit `8j + k` is bit `k` of byte `j`, counted from the most significant (R7). -/
theorem toBits_getElem (bs : List Byte) (i : Nat) (h : i < (toBits bs).length) :
    (toBits bs)[i] = (bs[i / 8]'(by simp at h; omega)).getMsbD (i % 8) := by
  induction bs generalizing i with
  | nil => simp at h
  | cons b bs ih =>
    simp only [toBits_cons]
    by_cases hi : i < 8
    · rw [List.getElem_append_left (by simpa using hi), byteBits_getElem]
      simp [Nat.div_eq_of_lt hi, Nat.mod_eq_of_lt hi]
    · rw [List.getElem_append_right (by simpa using hi)]
      simp only [byteBits_length]
      rw [ih (i - 8)]
      have h1 : i / 8 = (i - 8) / 8 + 1 := by omega
      have h2 : (i - 8) % 8 = i % 8 := by omega
      simp only [h1, h2, List.getElem_cons_succ]

/-- Bit `8j + k` of a byte string as bits is bit `7 - k` of byte `j` (R7). -/
theorem toBits_bit (bs : List Byte) (j k : Nat) (hj : j < bs.length) (hk : k < 8) :
    (toBits bs)[8 * j + k]? = some (bs[j].getLsbD (7 - k)) := by
  rw [List.getElem?_eq_getElem (by simp; omega), toBits_getElem]
  have h1 : (8 * j + k) / 8 = j := by omega
  have h2 : (8 * j + k) % 8 = k := by omega
  simp only [h1, h2, BitVec.getMsbD, hk, decide_true, Bool.true_and]

@[simp] theorem bytesOf_length (s : Bits) : (bytesOf s).length = s.length / 8 := by simp [bytesOf]

theorem bytesOf_getElem (s : Bits) (j : Nat) (h : j < (bytesOf s).length) :
    (bytesOf s)[j] = BitVec.ofNat 8 (uint (slice s (8 * j) (8 * j + 8))) := by simp [bytesOf]

/-- `toBits` undoes `bytesOf` on whole bytes (R7). -/
theorem toBits_bytesOf (s : Bits) (h : s.length % 8 = 0) : toBits (bytesOf s) = s := by
  apply List.ext_getElem
  · simp; omega
  · intro i h1 h2
    rw [toBits_getElem, bytesOf_getElem, ← byteBits_getElem, ]
    · simp only [byteBits_of_uint (slice s (8 * (i / 8)) (8 * (i / 8) + 8)) (by simp; omega)]
      rw [slice_getElem]
      congr 1
      omega
    · simp; omega

/-- `bytesOf` undoes `toBits` (R7). -/
theorem bytesOf_toBits (bs : List Byte) : bytesOf (toBits bs) = bs := by
  apply List.ext_getElem
  · simp
  · intro j h1 h2
    rw [bytesOf_getElem, ← byte_of_byteBits bs[j]]
    congr 2
    apply List.ext_getElem
    · simp at h1 ⊢; omega
    · intro k hk1 hk2
      have hk : k < 8 := hk2
      rw [slice_getElem, toBits_getElem, byteBits_getElem]
      have h1 : (8 * j + k) / 8 = j := by omega
      have h2 : (8 * j + k) % 8 = k := by omega
      simp only [h1, h2]

/-! ### The keystream -/

theorem xorFrom_length (k : Bits) (i : Nat) (p : Bits) : (xorFrom k i p).length = p.length := by
  induction p generalizing i with
  | nil => rfl
  | cons b p ih => simp [xorFrom, ih]

theorem xorFrom_getElem (k : Bits) (i : Nat) (p : Bits) (j : Nat) (h : j < (xorFrom k i p).length) :
    (xorFrom k i p)[j] = ((p[j]'(by rwa [xorFrom_length] at h)) ^^ keystreamAt k (i + j)) := by
  induction p generalizing i j with
  | nil => simp [xorFrom] at h
  | cons b p ih =>
    cases j with
    | zero => simp [xorFrom]
    | succ j =>
      simp only [xorFrom, List.getElem_cons_succ]
      rw [ih (i + 1) j]
      rw [show i + 1 + j = i + (j + 1) by omega]

@[simp] theorem xorWith_length (p k : Bits) : (xorWith p k).length = p.length := xorFrom_length k 0 p

/-- Bit `i` of `xorWith` (R142). -/
theorem xorWith_getElem (p k : Bits) (i : Nat) (h : i < (xorWith p k).length) :
    (xorWith p k)[i] = ((p[i]'(by simpa using h)) ^^ keystreamAt k i) := by
  simp only [xorWith]
  rw [xorFrom_getElem]
  simp

/-- Bit `i` of `xorWith`, read with a default (R140, R142). -/
theorem xorWith_getD (p k : Bits) (i : Nat) (h : i < p.length) :
    (xorWith p k).getD i false = (p.getD i false ^^ k.getD (i % k.length) false) := by
  rw [List.getD_eq_getElem _ _ (by simpa using h), xorWith_getElem, List.getD_eq_getElem _ _ h]
  rfl

/-- `at(k, i)` (R140). -/
theorem keystreamAt_eq (k : Bits) (i : Nat) (h : k ≠ []) :
    keystreamAt k i = k[i % k.length]'(Nat.mod_lt _ (List.length_pos_iff.mpr h)) := by
  simp [keystreamAt, List.getD_eq_getElem?_getD, Nat.mod_lt _ (List.length_pos_iff.mpr h)]

/-- The same key undoes the XOR (R145). -/
theorem xorWith_involutive (p k : Bits) : xorWith (xorWith p k) k = p := by
  apply List.ext_getElem
  · simp
  · intro i h1 h2
    simp [xorWith_getElem]

end Sys2Proof.Machine
end

