-- ==== Sys2Proof/Laws/Encoding.lean ====
section
/-! SUPPORT. The fields of a word in each format, and a word from its fields (30_encoding.md rules R81 to R84). -/

namespace Sys2Proof

/-! ### The fields of a format N word -/

@[simp] theorem fieldOpc_formatN (o : BitVec 6) : fieldOpc (formatN o) = o := by
  apply BitVec.eq_of_getLsbD_eq
  intro i hi
  interval_cases i <;> simp only [fieldOpc, formatN, BitVec.getLsbD_extractLsb', BitVec.getLsbD_append] <;> simp

@[simp] theorem fieldZN_formatN (o : BitVec 6) : fieldZN (formatN o) = 0 := by
  apply BitVec.eq_of_getLsbD_eq
  intro i hi
  interval_cases i <;> simp only [fieldZN, formatN, BitVec.getLsbD_extractLsb', BitVec.getLsbD_append] <;> simp

/-! ### The fields of a format I word -/

section
variable (o : BitVec 6) (d : BitVec 3) (imm : BitVec 16)

@[simp] theorem fieldOpc_formatI : fieldOpc (formatI o d imm) = o := by
  apply BitVec.eq_of_getLsbD_eq
  intro i hi
  interval_cases i <;> simp only [fieldOpc, formatI, BitVec.getLsbD_extractLsb', BitVec.getLsbD_append] <;> simp

@[simp] theorem fieldD_formatI : fieldD (formatI o d imm) = d := by
  apply BitVec.eq_of_getLsbD_eq
  intro i hi
  interval_cases i <;> simp only [fieldD, formatI, BitVec.getLsbD_extractLsb', BitVec.getLsbD_append] <;> simp

@[simp] theorem fieldZI_formatI : fieldZI (formatI o d imm) = 0 := by
  apply BitVec.eq_of_getLsbD_eq
  intro i hi
  interval_cases i <;> simp only [fieldZI, formatI, BitVec.getLsbD_extractLsb', BitVec.getLsbD_append] <;> simp

@[simp] theorem fieldImm_formatI : fieldImm (formatI o d imm) = imm := by
  apply BitVec.eq_of_getLsbD_eq
  intro i hi
  interval_cases i <;> simp only [fieldImm, formatI, BitVec.getLsbD_extractLsb', BitVec.getLsbD_append] <;> simp
end

/-! ### The fields of a format R word -/

section
variable (o : BitVec 6) (d a b c : BitVec 3) (m : BitVec 6)

@[simp] theorem fieldOpc_formatR : fieldOpc (formatR o d a b c m) = o := by
  apply BitVec.eq_of_getLsbD_eq
  intro i hi
  interval_cases i <;> simp only [fieldOpc, formatR, BitVec.getLsbD_extractLsb', BitVec.getLsbD_append] <;> simp

@[simp] theorem fieldD_formatR : fieldD (formatR o d a b c m) = d := by
  apply BitVec.eq_of_getLsbD_eq
  intro i hi
  interval_cases i <;> simp only [fieldD, formatR, BitVec.getLsbD_extractLsb', BitVec.getLsbD_append] <;> simp

@[simp] theorem fieldA_formatR : fieldA (formatR o d a b c m) = a := by
  apply BitVec.eq_of_getLsbD_eq
  intro i hi
  interval_cases i <;> simp only [fieldA, formatR, BitVec.getLsbD_extractLsb', BitVec.getLsbD_append] <;> simp

@[simp] theorem fieldB_formatR : fieldB (formatR o d a b c m) = b := by
  apply BitVec.eq_of_getLsbD_eq
  intro i hi
  interval_cases i <;> simp only [fieldB, formatR, BitVec.getLsbD_extractLsb', BitVec.getLsbD_append] <;> simp

@[simp] theorem fieldC_formatR : fieldC (formatR o d a b c m) = c := by
  apply BitVec.eq_of_getLsbD_eq
  intro i hi
  interval_cases i <;> simp only [fieldC, formatR, BitVec.getLsbD_extractLsb', BitVec.getLsbD_append] <;> simp

@[simp] theorem fieldZ_formatR : fieldZ (formatR o d a b c m) = 0 := by
  apply BitVec.eq_of_getLsbD_eq
  intro i hi
  interval_cases i <;> simp only [fieldZ, formatR, BitVec.getLsbD_extractLsb', BitVec.getLsbD_append] <;> simp

@[simp] theorem fieldM_formatR : fieldM (formatR o d a b c m) = m := by
  apply BitVec.eq_of_getLsbD_eq
  intro i hi
  interval_cases i <;> simp only [fieldM, formatR, BitVec.getLsbD_extractLsb', BitVec.getLsbD_append] <;> simp

@[simp] theorem fieldMHigh_frame (f : Bool) : fieldMHigh (formatR o d a b c (frameModifier f)) = 0 := by
  apply BitVec.eq_of_getLsbD_eq
  intro i hi
  interval_cases i <;>
    simp only [fieldMHigh, formatR, frameModifier, BitVec.getLsbD_extractLsb', BitVec.getLsbD_append] <;> simp

theorem getLsbD_frame (f : Bool) : (formatR o d a b c (frameModifier f)).getLsbD 0 = f := by
  simp only [formatR, frameModifier, BitVec.getLsbD_append]
  simp

@[simp] theorem getElem_frame (f : Bool) : (formatR o d a b c (frameModifier f))[0] = f := getLsbD_frame o d a b c f
end

/-- The opcode field as a literal, where its number is known. -/
theorem fieldOpc_of_toNat {w : Word} {n : Nat} (h : (fieldOpc w).toNat = n) : fieldOpc w = BitVec.ofNat 6 n := by
  rw [← h, BitVec.ofNat_toNat, BitVec.setWidth_eq]

/-! ### A word from its fields -/

/-- A word of format N is its opcode and zeros (R82). -/
theorem formatN_of_fields (w : Word) (hz : fieldZN w = 0) : formatN (fieldOpc w) = w := by
  conv_rhs => rw [show w = fieldOpc w ++ fieldZN w by
    apply BitVec.eq_of_getLsbD_eq
    intro i hi
    interval_cases i <;> simp only [fieldOpc, fieldZN, BitVec.getLsbD_extractLsb', BitVec.getLsbD_append] <;> simp]
  rw [hz]
  rfl

/-- A word of format I is made of its fields (R83). -/
theorem formatI_of_fields (w : Word) (hz : fieldZI w = 0) : formatI (fieldOpc w) (fieldD w) (fieldImm w) = w := by
  conv_rhs => rw [show w = fieldOpc w ++ fieldD w ++ fieldZI w ++ fieldImm w by
    apply BitVec.eq_of_getLsbD_eq
    intro i hi
    interval_cases i <;>
      simp only [fieldOpc, fieldD, fieldZI, fieldImm, BitVec.getLsbD_extractLsb', BitVec.getLsbD_append] <;> simp]
  rw [hz]
  rfl

/-- A word of format R is made of its fields (R84). -/
theorem formatR_of_fields (w : Word) (hz : fieldZ w = 0) :
    formatR (fieldOpc w) (fieldD w) (fieldA w) (fieldB w) (fieldC w) (fieldM w) = w := by
  conv_rhs => rw [show w = fieldOpc w ++ fieldD w ++ fieldA w ++ fieldB w ++ fieldC w ++ fieldZ w ++ fieldM w by
    apply BitVec.eq_of_getLsbD_eq
    intro i hi
    interval_cases i <;>
      simp only [fieldOpc, fieldD, fieldA, fieldB, fieldC, fieldZ, fieldM, BitVec.getLsbD_extractLsb', BitVec.getLsbD_append] <;> simp]
  rw [hz]
  rfl

/-- A word of format R as its shifted fields (R81, R84). -/
theorem formatR_eq_or (o : BitVec 6) (d a b c : BitVec 3) (m : BitVec 6) :
    formatR o d a b c m =
      o.setWidth 32 <<< 26 ||| d.setWidth 32 <<< 23 ||| a.setWidth 32 <<< 20 ||| b.setWidth 32 <<< 17 |||
        c.setWidth 32 <<< 14 ||| m.setWidth 32 := by
  apply BitVec.eq_of_getLsbD_eq
  intro i hi
  interval_cases i <;> simp only [formatR, BitVec.getLsbD_append, BitVec.getLsbD_or] <;> simp

/-- A word of format I as its shifted fields (R81, R83). -/
theorem formatI_eq_or (o : BitVec 6) (d : BitVec 3) (imm : BitVec 16) :
    formatI o d imm = o.setWidth 32 <<< 26 ||| d.setWidth 32 <<< 23 ||| imm.setWidth 32 := by
  apply BitVec.eq_of_getLsbD_eq
  intro i hi
  interval_cases i <;> simp only [formatI, BitVec.getLsbD_append, BitVec.getLsbD_or] <;> simp

/-- The modifier of a frame command from its low bit (R87). -/
theorem frameModifier_of_word (w : Word) (hz : fieldMHigh w = 0) : frameModifier (w.getLsbD 0) = fieldM w := by
  rw [show fieldM w = fieldMHigh w ++ BitVec.ofBool (w.getLsbD 0) by
    apply BitVec.eq_of_getLsbD_eq
    intro i hi
    interval_cases i <;>
      simp only [fieldM, fieldMHigh, BitVec.getLsbD_extractLsb', BitVec.getLsbD_append, BitVec.getLsbD_ofBool] <;> simp, hz]
  rfl

/-- A reserved-field check gives its command exactly where the check holds (R90). -/
theorem whenReservedZero_ok {zero : Bool} {i j : Instr} : whenReservedZero zero i = .ok j ↔ zero = true ∧ i = j := by
  cases zero <;> simp [whenReservedZero]

/-- What a legal frame word is (R87, R90). -/
theorem decodeFrame_ok {w : Word} {mk : Bool → Instr} {i : Instr} (h : decodeFrame w mk = .ok i) :
    i = mk (w.getLsbD 0) ∧ w = formatR (fieldOpc w) 0 0 0 0 (frameModifier (w.getLsbD 0)) := by
  simp only [decodeFrame, whenReservedZero_ok, Bool.and_eq_true, beq_iff_eq] at h
  obtain ⟨⟨⟨⟨⟨⟨hd, ha⟩, hb⟩, hc⟩, hz⟩, hm⟩, rfl⟩ := h
  refine ⟨rfl, ?_⟩
  conv_lhs => rw [← formatR_of_fields w hz, hd, ha, hb, hc, ← frameModifier_of_word w hm]

end Sys2Proof
end

