-- ==== Sys2Proof/Laws/State.lean ====
section
/-! SUPPORT. What each named update of the state does to each field, one lemma a field and an update, true by rfl, so that
no proof unfolds a record update. -/

namespace Sys2Proof.Machine

/-! ### writeBytes: MemWrite (R62) -/

@[simp] theorem State.writeBytes_params (s : State) (a : Nat) (bs : List Byte) : (s.writeBytes a bs).params = s.params := rfl
@[simp] theorem State.writeBytes_bufs (s : State) (a : Nat) (bs : List Byte) : (s.writeBytes a bs).bufs = s.bufs := rfl
@[simp] theorem State.writeBytes_scalars (s : State) (a : Nat) (bs : List Byte) : (s.writeBytes a bs).scalars = s.scalars := rfl
@[simp] theorem State.writeBytes_encReady (s : State) (a : Nat) (bs : List Byte) : (s.writeBytes a bs).encReady = s.encReady := rfl
@[simp] theorem State.writeBytes_decReady (s : State) (a : Nat) (bs : List Byte) : (s.writeBytes a bs).decReady = s.decReady := rfl
@[simp] theorem State.writeBytes_ieDone (s : State) (a : Nat) (bs : List Byte) : (s.writeBytes a bs).ieDone = s.ieDone := rfl
@[simp] theorem State.writeBytes_ieErr (s : State) (a : Nat) (bs : List Byte) : (s.writeBytes a bs).ieErr = s.ieErr := rfl
@[simp] theorem State.writeBytes_ieOvr (s : State) (a : Nat) (bs : List Byte) : (s.writeBytes a bs).ieOvr = s.ieOvr := rfl
@[simp] theorem State.writeBytes_stDone (s : State) (a : Nat) (bs : List Byte) : (s.writeBytes a bs).stDone = s.stDone := rfl
@[simp] theorem State.writeBytes_stErr (s : State) (a : Nat) (bs : List Byte) : (s.writeBytes a bs).stErr = s.stErr := rfl
@[simp] theorem State.writeBytes_stOvr (s : State) (a : Nat) (bs : List Byte) : (s.writeBytes a bs).stOvr = s.stOvr := rfl
@[simp] theorem State.writeBytes_errInfo (s : State) (a : Nat) (bs : List Byte) : (s.writeBytes a bs).errInfo = s.errInfo := rfl
@[simp] theorem State.writeBytes_errCmd (s : State) (a : Nat) (bs : List Byte) : (s.writeBytes a bs).errCmd = s.errCmd := rfl
@[simp] theorem State.writeBytes_engine (s : State) (a : Nat) (bs : List Byte) : (s.writeBytes a bs).engine = s.engine := rfl
@[simp] theorem State.writeBytes_dmem (s : State) (a : Nat) (bs : List Byte) : (s.writeBytes a bs).dmem = Memory.storeBytes s.dmem a bs := rfl
@[simp] theorem State.writeBytes_powerEpoch (s : State) (a : Nat) (bs : List Byte) : (s.writeBytes a bs).powerEpoch = s.powerEpoch := rfl
@[simp] theorem State.writeBytes_resetPin (s : State) (a : Nat) (bs : List Byte) : (s.writeBytes a bs).resetPin = s.resetPin := rfl
@[simp] theorem State.writeBytes_providerLive (s : State) (a : Nat) (bs : List Byte) : (s.writeBytes a bs).providerLive = s.providerLive := rfl
@[simp] theorem State.writeBytes_inputs (s : State) (a : Nat) (bs : List Byte) : (s.writeBytes a bs).inputs = s.inputs := rfl
@[simp] theorem State.writeBytes_busReply (s : State) (a : Nat) (bs : List Byte) : (s.writeBytes a bs).busReply = s.busReply := rfl
@[simp] theorem State.writeBytes_draws (s : State) (a : Nat) (bs : List Byte) : (s.writeBytes a bs).draws = s.draws := rfl

/-! ### writeScalar: a scalar write (R9) -/

@[simp] theorem State.writeScalar_params (s : State) (d : ScalReg) (v : Word) : (s.writeScalar d v).params = s.params := rfl
@[simp] theorem State.writeScalar_bufs (s : State) (d : ScalReg) (v : Word) : (s.writeScalar d v).bufs = s.bufs := rfl
@[simp] theorem State.writeScalar_scalars (s : State) (d : ScalReg) (v : Word) : (s.writeScalar d v).scalars = s.scalars.set d.toNat v d.isLt := rfl
@[simp] theorem State.writeScalar_encReady (s : State) (d : ScalReg) (v : Word) : (s.writeScalar d v).encReady = s.encReady := rfl
@[simp] theorem State.writeScalar_decReady (s : State) (d : ScalReg) (v : Word) : (s.writeScalar d v).decReady = s.decReady := rfl
@[simp] theorem State.writeScalar_ieDone (s : State) (d : ScalReg) (v : Word) : (s.writeScalar d v).ieDone = s.ieDone := rfl
@[simp] theorem State.writeScalar_ieErr (s : State) (d : ScalReg) (v : Word) : (s.writeScalar d v).ieErr = s.ieErr := rfl
@[simp] theorem State.writeScalar_ieOvr (s : State) (d : ScalReg) (v : Word) : (s.writeScalar d v).ieOvr = s.ieOvr := rfl
@[simp] theorem State.writeScalar_stDone (s : State) (d : ScalReg) (v : Word) : (s.writeScalar d v).stDone = s.stDone := rfl
@[simp] theorem State.writeScalar_stErr (s : State) (d : ScalReg) (v : Word) : (s.writeScalar d v).stErr = s.stErr := rfl
@[simp] theorem State.writeScalar_stOvr (s : State) (d : ScalReg) (v : Word) : (s.writeScalar d v).stOvr = s.stOvr := rfl
@[simp] theorem State.writeScalar_errInfo (s : State) (d : ScalReg) (v : Word) : (s.writeScalar d v).errInfo = s.errInfo := rfl
@[simp] theorem State.writeScalar_errCmd (s : State) (d : ScalReg) (v : Word) : (s.writeScalar d v).errCmd = s.errCmd := rfl
@[simp] theorem State.writeScalar_engine (s : State) (d : ScalReg) (v : Word) : (s.writeScalar d v).engine = s.engine := rfl
@[simp] theorem State.writeScalar_dmem (s : State) (d : ScalReg) (v : Word) : (s.writeScalar d v).dmem = s.dmem := rfl
@[simp] theorem State.writeScalar_powerEpoch (s : State) (d : ScalReg) (v : Word) : (s.writeScalar d v).powerEpoch = s.powerEpoch := rfl
@[simp] theorem State.writeScalar_resetPin (s : State) (d : ScalReg) (v : Word) : (s.writeScalar d v).resetPin = s.resetPin := rfl
@[simp] theorem State.writeScalar_providerLive (s : State) (d : ScalReg) (v : Word) : (s.writeScalar d v).providerLive = s.providerLive := rfl
@[simp] theorem State.writeScalar_inputs (s : State) (d : ScalReg) (v : Word) : (s.writeScalar d v).inputs = s.inputs := rfl
@[simp] theorem State.writeScalar_busReply (s : State) (d : ScalReg) (v : Word) : (s.writeScalar d v).busReply = s.busReply := rfl
@[simp] theorem State.writeScalar_draws (s : State) (d : ScalReg) (v : Word) : (s.writeScalar d v).draws = s.draws := rfl

/-! ### writeBuf: a setter write (R26) -/

@[simp] theorem State.writeBuf_params (s : State) (d : BufReg) (v : Option Bits) : (s.writeBuf d v).params = s.params := rfl
@[simp] theorem State.writeBuf_bufs (s : State) (d : BufReg) (v : Option Bits) : (s.writeBuf d v).bufs = s.bufs.set d.toNat v d.isLt := rfl
@[simp] theorem State.writeBuf_scalars (s : State) (d : BufReg) (v : Option Bits) : (s.writeBuf d v).scalars = s.scalars := rfl
@[simp] theorem State.writeBuf_encReady (s : State) (d : BufReg) (v : Option Bits) : (s.writeBuf d v).encReady = encAfterSetter d v s.encReady := rfl
@[simp] theorem State.writeBuf_decReady (s : State) (d : BufReg) (v : Option Bits) : (s.writeBuf d v).decReady = decAfterSetter d v s.decReady := rfl
@[simp] theorem State.writeBuf_ieDone (s : State) (d : BufReg) (v : Option Bits) : (s.writeBuf d v).ieDone = s.ieDone := rfl
@[simp] theorem State.writeBuf_ieErr (s : State) (d : BufReg) (v : Option Bits) : (s.writeBuf d v).ieErr = s.ieErr := rfl
@[simp] theorem State.writeBuf_ieOvr (s : State) (d : BufReg) (v : Option Bits) : (s.writeBuf d v).ieOvr = s.ieOvr := rfl
@[simp] theorem State.writeBuf_stDone (s : State) (d : BufReg) (v : Option Bits) : (s.writeBuf d v).stDone = s.stDone := rfl
@[simp] theorem State.writeBuf_stErr (s : State) (d : BufReg) (v : Option Bits) : (s.writeBuf d v).stErr = s.stErr := rfl
@[simp] theorem State.writeBuf_stOvr (s : State) (d : BufReg) (v : Option Bits) : (s.writeBuf d v).stOvr = s.stOvr := rfl
@[simp] theorem State.writeBuf_errInfo (s : State) (d : BufReg) (v : Option Bits) : (s.writeBuf d v).errInfo = s.errInfo := rfl
@[simp] theorem State.writeBuf_errCmd (s : State) (d : BufReg) (v : Option Bits) : (s.writeBuf d v).errCmd = s.errCmd := rfl
@[simp] theorem State.writeBuf_engine (s : State) (d : BufReg) (v : Option Bits) : (s.writeBuf d v).engine = s.engine := rfl
@[simp] theorem State.writeBuf_dmem (s : State) (d : BufReg) (v : Option Bits) : (s.writeBuf d v).dmem = s.dmem := rfl
@[simp] theorem State.writeBuf_powerEpoch (s : State) (d : BufReg) (v : Option Bits) : (s.writeBuf d v).powerEpoch = s.powerEpoch := rfl
@[simp] theorem State.writeBuf_resetPin (s : State) (d : BufReg) (v : Option Bits) : (s.writeBuf d v).resetPin = s.resetPin := rfl
@[simp] theorem State.writeBuf_providerLive (s : State) (d : BufReg) (v : Option Bits) : (s.writeBuf d v).providerLive = s.providerLive := rfl
@[simp] theorem State.writeBuf_inputs (s : State) (d : BufReg) (v : Option Bits) : (s.writeBuf d v).inputs = s.inputs := rfl
@[simp] theorem State.writeBuf_busReply (s : State) (d : BufReg) (v : Option Bits) : (s.writeBuf d v).busReply = s.busReply := rfl
@[simp] theorem State.writeBuf_draws (s : State) (d : BufReg) (v : Option Bits) : (s.writeBuf d v).draws = s.draws := rfl

/-! ### writeEncoded: the write of an encode (R27) -/

@[simp] theorem State.writeEncoded_params (s : State) (v : Bits) : (s.writeEncoded v).params = s.params := rfl
@[simp] theorem State.writeEncoded_bufs (s : State) (v : Bits) : (s.writeEncoded v).bufs = s.bufs.set encodedReg.toNat (some v) encodedReg.isLt := rfl
@[simp] theorem State.writeEncoded_scalars (s : State) (v : Bits) : (s.writeEncoded v).scalars = s.scalars := rfl
@[simp] theorem State.writeEncoded_encReady (s : State) (v : Bits) : (s.writeEncoded v).encReady = true := rfl
@[simp] theorem State.writeEncoded_decReady (s : State) (v : Bits) : (s.writeEncoded v).decReady = s.decReady := rfl
@[simp] theorem State.writeEncoded_ieDone (s : State) (v : Bits) : (s.writeEncoded v).ieDone = s.ieDone := rfl
@[simp] theorem State.writeEncoded_ieErr (s : State) (v : Bits) : (s.writeEncoded v).ieErr = s.ieErr := rfl
@[simp] theorem State.writeEncoded_ieOvr (s : State) (v : Bits) : (s.writeEncoded v).ieOvr = s.ieOvr := rfl
@[simp] theorem State.writeEncoded_stDone (s : State) (v : Bits) : (s.writeEncoded v).stDone = s.stDone := rfl
@[simp] theorem State.writeEncoded_stErr (s : State) (v : Bits) : (s.writeEncoded v).stErr = s.stErr := rfl
@[simp] theorem State.writeEncoded_stOvr (s : State) (v : Bits) : (s.writeEncoded v).stOvr = s.stOvr := rfl
@[simp] theorem State.writeEncoded_errInfo (s : State) (v : Bits) : (s.writeEncoded v).errInfo = s.errInfo := rfl
@[simp] theorem State.writeEncoded_errCmd (s : State) (v : Bits) : (s.writeEncoded v).errCmd = s.errCmd := rfl
@[simp] theorem State.writeEncoded_engine (s : State) (v : Bits) : (s.writeEncoded v).engine = s.engine := rfl
@[simp] theorem State.writeEncoded_dmem (s : State) (v : Bits) : (s.writeEncoded v).dmem = s.dmem := rfl
@[simp] theorem State.writeEncoded_powerEpoch (s : State) (v : Bits) : (s.writeEncoded v).powerEpoch = s.powerEpoch := rfl
@[simp] theorem State.writeEncoded_resetPin (s : State) (v : Bits) : (s.writeEncoded v).resetPin = s.resetPin := rfl
@[simp] theorem State.writeEncoded_providerLive (s : State) (v : Bits) : (s.writeEncoded v).providerLive = s.providerLive := rfl
@[simp] theorem State.writeEncoded_inputs (s : State) (v : Bits) : (s.writeEncoded v).inputs = s.inputs := rfl
@[simp] theorem State.writeEncoded_busReply (s : State) (v : Bits) : (s.writeEncoded v).busReply = s.busReply := rfl
@[simp] theorem State.writeEncoded_draws (s : State) (v : Bits) : (s.writeEncoded v).draws = s.draws := rfl

/-! ### writeDecoded: the write of a decode (R27) -/

@[simp] theorem State.writeDecoded_params (s : State) (v : Bits) : (s.writeDecoded v).params = s.params := rfl
@[simp] theorem State.writeDecoded_bufs (s : State) (v : Bits) : (s.writeDecoded v).bufs = s.bufs.set decodedReg.toNat (some v) decodedReg.isLt := rfl
@[simp] theorem State.writeDecoded_scalars (s : State) (v : Bits) : (s.writeDecoded v).scalars = s.scalars := rfl
@[simp] theorem State.writeDecoded_encReady (s : State) (v : Bits) : (s.writeDecoded v).encReady = s.encReady := rfl
@[simp] theorem State.writeDecoded_decReady (s : State) (v : Bits) : (s.writeDecoded v).decReady = true := rfl
@[simp] theorem State.writeDecoded_ieDone (s : State) (v : Bits) : (s.writeDecoded v).ieDone = s.ieDone := rfl
@[simp] theorem State.writeDecoded_ieErr (s : State) (v : Bits) : (s.writeDecoded v).ieErr = s.ieErr := rfl
@[simp] theorem State.writeDecoded_ieOvr (s : State) (v : Bits) : (s.writeDecoded v).ieOvr = s.ieOvr := rfl
@[simp] theorem State.writeDecoded_stDone (s : State) (v : Bits) : (s.writeDecoded v).stDone = s.stDone := rfl
@[simp] theorem State.writeDecoded_stErr (s : State) (v : Bits) : (s.writeDecoded v).stErr = s.stErr := rfl
@[simp] theorem State.writeDecoded_stOvr (s : State) (v : Bits) : (s.writeDecoded v).stOvr = s.stOvr := rfl
@[simp] theorem State.writeDecoded_errInfo (s : State) (v : Bits) : (s.writeDecoded v).errInfo = s.errInfo := rfl
@[simp] theorem State.writeDecoded_errCmd (s : State) (v : Bits) : (s.writeDecoded v).errCmd = s.errCmd := rfl
@[simp] theorem State.writeDecoded_engine (s : State) (v : Bits) : (s.writeDecoded v).engine = s.engine := rfl
@[simp] theorem State.writeDecoded_dmem (s : State) (v : Bits) : (s.writeDecoded v).dmem = s.dmem := rfl
@[simp] theorem State.writeDecoded_powerEpoch (s : State) (v : Bits) : (s.writeDecoded v).powerEpoch = s.powerEpoch := rfl
@[simp] theorem State.writeDecoded_resetPin (s : State) (v : Bits) : (s.writeDecoded v).resetPin = s.resetPin := rfl
@[simp] theorem State.writeDecoded_providerLive (s : State) (v : Bits) : (s.writeDecoded v).providerLive = s.providerLive := rfl
@[simp] theorem State.writeDecoded_inputs (s : State) (v : Bits) : (s.writeDecoded v).inputs = s.inputs := rfl
@[simp] theorem State.writeDecoded_busReply (s : State) (v : Bits) : (s.writeDecoded v).busReply = s.busReply := rfl
@[simp] theorem State.writeDecoded_draws (s : State) (v : Bits) : (s.writeDecoded v).draws = s.draws := rfl

/-! ### complete: completion (R225) -/

@[simp] theorem State.complete_params (s : State) : (s.complete).params = s.params := rfl
@[simp] theorem State.complete_bufs (s : State) : (s.complete).bufs = s.bufs := rfl
@[simp] theorem State.complete_scalars (s : State) : (s.complete).scalars = s.scalars := rfl
@[simp] theorem State.complete_encReady (s : State) : (s.complete).encReady = s.encReady := rfl
@[simp] theorem State.complete_decReady (s : State) : (s.complete).decReady = s.decReady := rfl
@[simp] theorem State.complete_ieDone (s : State) : (s.complete).ieDone = s.ieDone := rfl
@[simp] theorem State.complete_ieErr (s : State) : (s.complete).ieErr = s.ieErr := rfl
@[simp] theorem State.complete_ieOvr (s : State) : (s.complete).ieOvr = s.ieOvr := rfl
@[simp] theorem State.complete_stDone (s : State) : (s.complete).stDone = true := rfl
@[simp] theorem State.complete_stErr (s : State) : (s.complete).stErr = s.stErr := rfl
@[simp] theorem State.complete_stOvr (s : State) : (s.complete).stOvr = s.stOvr := rfl
@[simp] theorem State.complete_errInfo (s : State) : (s.complete).errInfo = s.errInfo := rfl
@[simp] theorem State.complete_errCmd (s : State) : (s.complete).errCmd = s.errCmd := rfl
@[simp] theorem State.complete_engine (s : State) : (s.complete).engine = .idle := rfl
@[simp] theorem State.complete_dmem (s : State) : (s.complete).dmem = s.dmem := rfl
@[simp] theorem State.complete_powerEpoch (s : State) : (s.complete).powerEpoch = s.powerEpoch := rfl
@[simp] theorem State.complete_resetPin (s : State) : (s.complete).resetPin = s.resetPin := rfl
@[simp] theorem State.complete_providerLive (s : State) : (s.complete).providerLive = s.providerLive := rfl
@[simp] theorem State.complete_inputs (s : State) : (s.complete).inputs = s.inputs := rfl
@[simp] theorem State.complete_busReply (s : State) : (s.complete).busReply = s.busReply := rfl
@[simp] theorem State.complete_draws (s : State) : (s.complete).draws = s.draws := rfl

/-! ### raiseError: error entry (R222) -/

@[simp] theorem State.raiseError_params (s : State) (w : Word) (e c : ErrorCode) : (s.raiseError w e c).params = s.params := rfl
@[simp] theorem State.raiseError_bufs (s : State) (w : Word) (e c : ErrorCode) : (s.raiseError w e c).bufs = s.bufs := rfl
@[simp] theorem State.raiseError_scalars (s : State) (w : Word) (e c : ErrorCode) : (s.raiseError w e c).scalars = s.scalars := rfl
@[simp] theorem State.raiseError_encReady (s : State) (w : Word) (e c : ErrorCode) : (s.raiseError w e c).encReady = (s.encReady && !(isEncodeWord w && e != .illegalCommand)) := rfl
@[simp] theorem State.raiseError_decReady (s : State) (w : Word) (e c : ErrorCode) : (s.raiseError w e c).decReady = (s.decReady && !(isDecodeWord w && e != .illegalCommand)) := rfl
@[simp] theorem State.raiseError_ieDone (s : State) (w : Word) (e c : ErrorCode) : (s.raiseError w e c).ieDone = s.ieDone := rfl
@[simp] theorem State.raiseError_ieErr (s : State) (w : Word) (e c : ErrorCode) : (s.raiseError w e c).ieErr = s.ieErr := rfl
@[simp] theorem State.raiseError_ieOvr (s : State) (w : Word) (e c : ErrorCode) : (s.raiseError w e c).ieOvr = s.ieOvr := rfl
@[simp] theorem State.raiseError_stDone (s : State) (w : Word) (e c : ErrorCode) : (s.raiseError w e c).stDone = s.stDone := rfl
@[simp] theorem State.raiseError_stErr (s : State) (w : Word) (e c : ErrorCode) : (s.raiseError w e c).stErr = true := rfl
@[simp] theorem State.raiseError_stOvr (s : State) (w : Word) (e c : ErrorCode) : (s.raiseError w e c).stOvr = s.stOvr := rfl
@[simp] theorem State.raiseError_errInfo (s : State) (w : Word) (e c : ErrorCode) : (s.raiseError w e c).errInfo = errInfoWord e c := rfl
@[simp] theorem State.raiseError_errCmd (s : State) (w : Word) (e c : ErrorCode) : (s.raiseError w e c).errCmd = w := rfl
@[simp] theorem State.raiseError_engine (s : State) (w : Word) (e c : ErrorCode) : (s.raiseError w e c).engine = .idle := rfl
@[simp] theorem State.raiseError_dmem (s : State) (w : Word) (e c : ErrorCode) : (s.raiseError w e c).dmem = s.dmem := rfl
@[simp] theorem State.raiseError_powerEpoch (s : State) (w : Word) (e c : ErrorCode) : (s.raiseError w e c).powerEpoch = s.powerEpoch := rfl
@[simp] theorem State.raiseError_resetPin (s : State) (w : Word) (e c : ErrorCode) : (s.raiseError w e c).resetPin = s.resetPin := rfl
@[simp] theorem State.raiseError_providerLive (s : State) (w : Word) (e c : ErrorCode) : (s.raiseError w e c).providerLive = s.providerLive := rfl
@[simp] theorem State.raiseError_inputs (s : State) (w : Word) (e c : ErrorCode) : (s.raiseError w e c).inputs = s.inputs := rfl
@[simp] theorem State.raiseError_busReply (s : State) (w : Word) (e c : ErrorCode) : (s.raiseError w e c).busReply = s.busReply := rfl
@[simp] theorem State.raiseError_draws (s : State) (w : Word) (e c : ErrorCode) : (s.raiseError w e c).draws = s.draws := rfl

/-! ### clearStatus: a W1C write of STATUS (R35) -/

@[simp] theorem State.clearStatus_params (s : State) (v : Word) : (s.clearStatus v).params = s.params := rfl
@[simp] theorem State.clearStatus_bufs (s : State) (v : Word) : (s.clearStatus v).bufs = s.bufs := rfl
@[simp] theorem State.clearStatus_scalars (s : State) (v : Word) : (s.clearStatus v).scalars = s.scalars := rfl
@[simp] theorem State.clearStatus_encReady (s : State) (v : Word) : (s.clearStatus v).encReady = s.encReady := rfl
@[simp] theorem State.clearStatus_decReady (s : State) (v : Word) : (s.clearStatus v).decReady = s.decReady := rfl
@[simp] theorem State.clearStatus_ieDone (s : State) (v : Word) : (s.clearStatus v).ieDone = s.ieDone := rfl
@[simp] theorem State.clearStatus_ieErr (s : State) (v : Word) : (s.clearStatus v).ieErr = s.ieErr := rfl
@[simp] theorem State.clearStatus_ieOvr (s : State) (v : Word) : (s.clearStatus v).ieOvr = s.ieOvr := rfl
@[simp] theorem State.clearStatus_stDone (s : State) (v : Word) : (s.clearStatus v).stDone = (s.stDone && !v.getLsbD 1) := rfl
@[simp] theorem State.clearStatus_stErr (s : State) (v : Word) : (s.clearStatus v).stErr = (s.stErr && !v.getLsbD 2) := rfl
@[simp] theorem State.clearStatus_stOvr (s : State) (v : Word) : (s.clearStatus v).stOvr = (s.stOvr && !v.getLsbD 3) := rfl
@[simp] theorem State.clearStatus_errInfo (s : State) (v : Word) : (s.clearStatus v).errInfo = s.errInfo := rfl
@[simp] theorem State.clearStatus_errCmd (s : State) (v : Word) : (s.clearStatus v).errCmd = s.errCmd := rfl
@[simp] theorem State.clearStatus_engine (s : State) (v : Word) : (s.clearStatus v).engine = s.engine := rfl
@[simp] theorem State.clearStatus_dmem (s : State) (v : Word) : (s.clearStatus v).dmem = s.dmem := rfl
@[simp] theorem State.clearStatus_powerEpoch (s : State) (v : Word) : (s.clearStatus v).powerEpoch = s.powerEpoch := rfl
@[simp] theorem State.clearStatus_resetPin (s : State) (v : Word) : (s.clearStatus v).resetPin = s.resetPin := rfl
@[simp] theorem State.clearStatus_providerLive (s : State) (v : Word) : (s.clearStatus v).providerLive = s.providerLive := rfl
@[simp] theorem State.clearStatus_inputs (s : State) (v : Word) : (s.clearStatus v).inputs = s.inputs := rfl
@[simp] theorem State.clearStatus_busReply (s : State) (v : Word) : (s.clearStatus v).busReply = s.busReply := rfl
@[simp] theorem State.clearStatus_draws (s : State) (v : Word) : (s.clearStatus v).draws = s.draws := rfl

/-! ### drop: a dropped access (R227) -/

@[simp] theorem State.drop_params (s : State) : (s.drop).params = s.params := rfl
@[simp] theorem State.drop_bufs (s : State) : (s.drop).bufs = s.bufs := rfl
@[simp] theorem State.drop_scalars (s : State) : (s.drop).scalars = s.scalars := rfl
@[simp] theorem State.drop_encReady (s : State) : (s.drop).encReady = s.encReady := rfl
@[simp] theorem State.drop_decReady (s : State) : (s.drop).decReady = s.decReady := rfl
@[simp] theorem State.drop_ieDone (s : State) : (s.drop).ieDone = s.ieDone := rfl
@[simp] theorem State.drop_ieErr (s : State) : (s.drop).ieErr = s.ieErr := rfl
@[simp] theorem State.drop_ieOvr (s : State) : (s.drop).ieOvr = s.ieOvr := rfl
@[simp] theorem State.drop_stDone (s : State) : (s.drop).stDone = s.stDone := rfl
@[simp] theorem State.drop_stErr (s : State) : (s.drop).stErr = s.stErr := rfl
@[simp] theorem State.drop_stOvr (s : State) : (s.drop).stOvr = true := rfl
@[simp] theorem State.drop_errInfo (s : State) : (s.drop).errInfo = s.errInfo := rfl
@[simp] theorem State.drop_errCmd (s : State) : (s.drop).errCmd = s.errCmd := rfl
@[simp] theorem State.drop_engine (s : State) : (s.drop).engine = s.engine := rfl
@[simp] theorem State.drop_dmem (s : State) : (s.drop).dmem = s.dmem := rfl
@[simp] theorem State.drop_powerEpoch (s : State) : (s.drop).powerEpoch = s.powerEpoch := rfl
@[simp] theorem State.drop_resetPin (s : State) : (s.drop).resetPin = s.resetPin := rfl
@[simp] theorem State.drop_providerLive (s : State) : (s.drop).providerLive = s.providerLive := rfl
@[simp] theorem State.drop_inputs (s : State) : (s.drop).inputs = s.inputs := rfl
@[simp] theorem State.drop_busReply (s : State) : (s.drop).busReply = s.busReply := rfl
@[simp] theorem State.drop_draws (s : State) : (s.drop).draws = s.draws := rfl

/-! ### accepted: acceptance with nothing else scheduled (R271) -/

@[simp] theorem State.accepted_params (s : State) (w : Word) : (s.accepted w).params = s.params := rfl
@[simp] theorem State.accepted_bufs (s : State) (w : Word) : (s.accepted w).bufs = s.bufs := rfl
@[simp] theorem State.accepted_scalars (s : State) (w : Word) : (s.accepted w).scalars = s.scalars := rfl
@[simp] theorem State.accepted_encReady (s : State) (w : Word) : (s.accepted w).encReady = s.encReady := rfl
@[simp] theorem State.accepted_decReady (s : State) (w : Word) : (s.accepted w).decReady = s.decReady := rfl
@[simp] theorem State.accepted_ieDone (s : State) (w : Word) : (s.accepted w).ieDone = s.ieDone := rfl
@[simp] theorem State.accepted_ieErr (s : State) (w : Word) : (s.accepted w).ieErr = s.ieErr := rfl
@[simp] theorem State.accepted_ieOvr (s : State) (w : Word) : (s.accepted w).ieOvr = s.ieOvr := rfl
@[simp] theorem State.accepted_stDone (s : State) (w : Word) : (s.accepted w).stDone = s.stDone := rfl
@[simp] theorem State.accepted_stErr (s : State) (w : Word) : (s.accepted w).stErr = s.stErr := rfl
@[simp] theorem State.accepted_stOvr (s : State) (w : Word) : (s.accepted w).stOvr = s.stOvr := rfl
@[simp] theorem State.accepted_errInfo (s : State) (w : Word) : (s.accepted w).errInfo = s.errInfo := rfl
@[simp] theorem State.accepted_errCmd (s : State) (w : Word) : (s.accepted w).errCmd = s.errCmd := rfl
@[simp] theorem State.accepted_engine (s : State) (w : Word) : (s.accepted w).engine = .executing w [] := rfl
@[simp] theorem State.accepted_dmem (s : State) (w : Word) : (s.accepted w).dmem = s.dmem := rfl
@[simp] theorem State.accepted_powerEpoch (s : State) (w : Word) : (s.accepted w).powerEpoch = s.powerEpoch := rfl
@[simp] theorem State.accepted_resetPin (s : State) (w : Word) : (s.accepted w).resetPin = false := rfl
@[simp] theorem State.accepted_providerLive (s : State) (w : Word) : (s.accepted w).providerLive = s.providerLive := rfl
@[simp] theorem State.accepted_inputs (s : State) (w : Word) : (s.accepted w).inputs = [] := rfl
@[simp] theorem State.accepted_busReply (s : State) (w : Word) : (s.accepted w).busReply = s.busReply := rfl
@[simp] theorem State.accepted_draws (s : State) (w : Word) : (s.accepted w).draws = s.draws := rfl

end Sys2Proof.Machine
end

