-- ==== Sys2Proof/Laws/Memory.lean ====
section
/-! SUPPORT. Data memory and the register files: read after write, what a write leaves alone, and that every memory
operation keeps the canonical form (20_memory.md rules R60 to R63). -/

namespace Sys2Proof.Machine

/-! ### One byte -/

theorem Memory.lookup_store (m : Memory) (a x : Nat) (b : Byte) :
    Memory.lookup (Memory.store m a b) x = if x = a then some b else Memory.lookup m x := by
  induction m with
  | nil => simp [Memory.store, Memory.lookup]
  | cons p m ih =>
    obtain ⟨k, v⟩ := p
    simp only [Memory.store]
    split
    · simp [Memory.lookup]
    · split
      · subst_vars
        simp only [Memory.lookup]
        split <;> simp_all
      · simp only [Memory.lookup, ih]
        split <;> split <;> simp_all

theorem Memory.store_keys (m : Memory) (a : Nat) (b : Byte) :
    ∀ p ∈ Memory.store m a b, p.1 = a ∨ p ∈ m := by
  induction m with
  | nil => simp [Memory.store]
  | cons q m ih =>
    intro p hp
    simp only [Memory.store] at hp
    split at hp
    · rcases List.mem_cons.mp hp with h | h
      · exact .inl (by rw [h])
      · exact .inr h
    · split at hp
      · rcases List.mem_cons.mp hp with h | h
        · exact .inl (by rw [h])
        · exact .inr (List.mem_cons_of_mem _ h)
      · rcases List.mem_cons.mp hp with h | h
        · exact .inr (h ▸ List.mem_cons_self)
        · exact (ih p h).imp_right (List.mem_cons_of_mem _)

theorem Memory.store_rising (m : Memory) (a : Nat) (b : Byte) (hm : m.Pairwise fun p q => p.1 < q.1) :
    (Memory.store m a b).Pairwise fun p q => p.1 < q.1 := by
  induction m with
  | nil => simp [Memory.store]
  | cons p m ih =>
    obtain ⟨k, v⟩ := p
    obtain ⟨hk, hm'⟩ := List.pairwise_cons.mp hm
    simp only [Memory.store]
    split
    · refine List.pairwise_cons.mpr ⟨fun q hq => ?_, hm⟩
      rcases List.mem_cons.mp hq with h | h
      · subst h; assumption
      · exact lt_trans ‹_› (hk q h)
    · split
      · subst_vars
        exact List.pairwise_cons.mpr ⟨hk, hm'⟩
      · refine List.pairwise_cons.mpr ⟨fun q hq => ?_, ih hm'⟩
        rcases Memory.store_keys m a b q hq with h | h
        · simp only [h]; omega
        · exact hk q h

theorem Memory.wf_iff (size : Nat) (m : Memory) :
    Memory.wf size m = true ↔ (m.Pairwise fun p q => p.1 < q.1) ∧ ∀ p ∈ m, p.1 < size := by
  simp [Memory.wf, List.all_eq_true]

theorem Memory.wf_rising {size : Nat} {m : Memory} (h : Memory.wf size m = true) : m.Pairwise fun p q => p.1 < q.1 :=
  ((Memory.wf_iff size m).mp h).1

@[simp] theorem Memory.wf_nil (size : Nat) : Memory.wf size [] = true := by simp [Memory.wf]

/-- A store inside the range keeps the canonical form. -/
theorem Memory.wf_store {size : Nat} {m : Memory} (h : Memory.wf size m = true) {a : Nat} (ha : a < size) (b : Byte) :
    Memory.wf size (Memory.store m a b) = true := by
  obtain ⟨hp, hs⟩ := (Memory.wf_iff size m).mp h
  refine (Memory.wf_iff size _).mpr ⟨Memory.store_rising m a b hp, fun p hp' => ?_⟩
  rcases Memory.store_keys m a b p hp' with h | h
  · rw [h]; exact ha
  · exact hs p h

/-! ### A byte string -/

/-- A store of bytes inside the range keeps the canonical form (R62). -/
theorem Memory.wf_storeBytes {size : Nat} {m : Memory} (h : Memory.wf size m = true) {a : Nat} {bs : List Byte}
    (ha : a + bs.length ≤ size) : Memory.wf size (Memory.storeBytes m a bs) = true := by
  induction bs generalizing m a with
  | nil => exact h
  | cons b bs ih =>
    simp only [List.length_cons] at ha
    exact ih (Memory.wf_store h (by omega) b) (by omega)

/-- What a byte reads as after a store of bytes: the byte stored there, or what it was (R62). -/
theorem Memory.lookup_storeBytes (m : Memory) (a x : Nat) (bs : List Byte) :
    Memory.lookup (Memory.storeBytes m a bs) x =
      if a ≤ x ∧ x < a + bs.length then bs[x - a]? else Memory.lookup m x := by
  induction bs generalizing m a with
  | nil => simp only [Memory.storeBytes, List.length_nil]; rw [if_neg (by omega)]
  | cons b bs ih =>
    simp only [Memory.storeBytes, List.length_cons]
    rw [ih, Memory.lookup_store m a x b]
    rcases lt_trichotomy x a with h | h | h
    · rw [if_neg (by omega), if_neg (by omega), if_neg (by omega)]
    · subst h
      rw [if_neg (by omega), if_pos rfl, if_pos (by omega)]
      simp
    · by_cases hx : x < a + 1 + bs.length
      · rw [if_pos (by omega), if_pos (by omega), show x - a = (x - (a + 1)) + 1 by omega]
        simp
      · rw [if_neg (by omega), if_neg (by omega), if_neg (by omega)]

/-- Soft-reset draws keep the canonical form too (R262). -/
theorem Memory.wf_storeSome {size : Nat} {m : Memory} (h : Memory.wf size m = true) {a : Nat} {bs : List Byte} {n : Nat}
    (ha : a + bs.length ≤ size) : Memory.wf size (storeSome m a bs n) = true := by
  induction bs generalizing m a n with
  | nil => exact h
  | cons b bs ih =>
    simp only [List.length_cons] at ha
    simp only [storeSome]
    refine ih ?_ (by omega)
    split
    · exact Memory.wf_store h (by omega) b
    · exact h

/-! ### Reading the state's memory -/

/-- A byte after `MemWrite` (R62): the byte written there, or what it was. -/
theorem State.readByte_writeBytes (s : State) (a x : Nat) (bs : List Byte) :
    (s.writeBytes a bs).readByte x = if h : a ≤ x ∧ x < a + bs.length then bs[x - a] else s.readByte x := by
  unfold State.readByte
  simp only [State.writeBytes_dmem, State.writeBytes_powerEpoch, Memory.lookup_storeBytes s.dmem a x bs]
  split
  · rename_i h
    have : x - a < bs.length := by omega
    simp [this]
  · rfl

/-- Reading a byte asks for data memory and the power-on epoch only. -/
theorem State.readByte_congr {s t : State} (hd : t.dmem = s.dmem) (he : t.powerEpoch = s.powerEpoch) (a : Nat) :
    t.readByte a = s.readByte a := by
  unfold State.readByte
  rw [hd, he]

theorem State.readBytes_congr {s t : State} {a b n : Nat} (h : ∀ j < n, t.readByte (a + j) = s.readByte (b + j)) :
    t.readBytes a n = s.readBytes b n := by
  induction n generalizing a b with
  | zero => rfl
  | succ n ih =>
    simp only [State.readBytes]
    refine congrArg₂ _ (by simpa using h 0 (by omega)) (ih fun j hj => ?_)
    have := h (j + 1) (by omega)
    rwa [show a + (j + 1) = a + 1 + j by omega, show b + (j + 1) = b + 1 + j by omega] at this

@[simp] theorem State.readBytes_length (s : State) (a n : Nat) : (s.readBytes a n).length = n := by
  induction n generalizing a with
  | zero => rfl
  | succ n ih => simp [State.readBytes, ih]

/-- Byte `j` of `MemRead` (R61). -/
theorem State.readBytes_getElem (s : State) (a n j : Nat) (h : j < (s.readBytes a n).length) :
    (s.readBytes a n)[j] = s.readByte (a + j) := by
  induction n generalizing a j with
  | zero => simp [State.readBytes] at h
  | succ n ih =>
    cases j with
    | zero => simp [State.readBytes]
    | succ j =>
      simp only [State.readBytes, List.getElem_cons_succ]
      rw [ih (a + 1) j (by simpa [State.readBytes] using h)]
      congr 1
      omega

/-! ### What an update keeps, through the accessors -/

@[simp] theorem State.buf_complete (s : State) (r : BufReg) : s.complete.buf r = s.buf r := rfl
@[simp] theorem State.scalar_complete (s : State) (r : ScalReg) : s.complete.scalar r = s.scalar r := rfl
@[simp] theorem State.number_complete (s : State) (r : ScalReg) : s.complete.number r = s.number r := rfl
@[simp] theorem State.readByte_complete (s : State) (a : Nat) : s.complete.readByte a = s.readByte a := rfl
@[simp] theorem State.buf_writeBytes (s : State) (a : Nat) (bs : List Byte) (r : BufReg) :
    (s.writeBytes a bs).buf r = s.buf r := rfl
@[simp] theorem State.number_writeBytes (s : State) (a : Nat) (bs : List Byte) (r : ScalReg) :
    (s.writeBytes a bs).number r = s.number r := rfl
@[simp] theorem State.number_writeBuf (s : State) (d : BufReg) (v : Option Bits) (r : ScalReg) :
    (s.writeBuf d v).number r = s.number r := rfl
@[simp] theorem State.readByte_writeBuf (s : State) (d : BufReg) (v : Option Bits) (a : Nat) :
    (s.writeBuf d v).readByte a = s.readByte a := rfl
@[simp] theorem State.buf_writeScalar (s : State) (d : ScalReg) (v : Word) (r : BufReg) :
    (s.writeScalar d v).buf r = s.buf r := rfl
@[simp] theorem State.readByte_writeScalar (s : State) (d : ScalReg) (v : Word) (a : Nat) :
    (s.writeScalar d v).readByte a = s.readByte a := rfl

/-! ### The register files -/

theorem State.buf_congr {s t : State} (h : t.bufs = s.bufs) (r : BufReg) : t.buf r = s.buf r := by
  unfold State.buf
  simp only [h]

theorem State.scalar_congr {s t : State} (h : t.scalars = s.scalars) (r : ScalReg) : t.scalar r = s.scalar r := by
  unfold State.scalar
  simp only [h]

theorem buf_of_set {s t : State} {d : BufReg} {v : Option Bits} (h : t.bufs = s.bufs.set d.toNat v d.isLt) (r : BufReg) :
    t.buf r = if r = d then v else s.buf r := by
  unfold State.buf
  simp only [h, Vector.getElem_set, BitVec.toNat_inj, eq_comm (a := d)]

/-- A scalar register after a scalar write. -/
theorem State.scalar_writeScalar (s : State) (d r : ScalReg) (v : Word) :
    (s.writeScalar d v).scalar r = if r = d then v else s.scalar r := by
  unfold State.scalar
  simp only [State.writeScalar_scalars, Vector.getElem_set, BitVec.toNat_inj, eq_comm (a := d)]

/-- A buffer register after a setter write. -/
theorem State.buf_writeBuf (s : State) (d r : BufReg) (v : Option Bits) :
    (s.writeBuf d v).buf r = if r = d then v else s.buf r :=
  buf_of_set rfl r

theorem State.buf_writeEncoded (s : State) (r : BufReg) (v : Bits) :
    (s.writeEncoded v).buf r = if r = encodedReg then some v else s.buf r :=
  buf_of_set (d := encodedReg) rfl r

theorem State.buf_writeDecoded (s : State) (r : BufReg) (v : Bits) :
    (s.writeDecoded v).buf r = if r = decodedReg then some v else s.buf r :=
  buf_of_set (d := decodedReg) rfl r

end Sys2Proof.Machine
end

