-- ==== Sys2Proof/Laws/Ops.lean ====
section
/-! SUPPORT. What each shared operation can do, once each: the checks, the operands, the derivation, the frame checks and
the end of a command. A proof about a command cites these and unfolds none of them. -/

namespace Sys2Proof.Machine

/-! ### The pseudocode of a command: its steps in order, the first that raises ends it (R229) -/

@[simp] theorem except_ok_bind {α β : Type} (a : α) (f : α → Except Stop β) : (Except.ok a >>= f) = f a := rfl
@[simp] theorem except_error_bind {α β : Type} (e : Stop) (f : α → Except Stop β) :
    ((Except.error e : Except Stop α) >>= f) = .error e := rfl
@[simp] theorem except_map_ok {α β : Type} (a : α) (f : α → β) : f <$> (Except.ok a : Except Stop α) = .ok (f a) := rfl
@[simp] theorem except_map_error {α β : Type} (e : Stop) (f : α → β) :
    f <$> (Except.error e : Except Stop α) = .error e := rfl
@[simp] theorem except_pure {α : Type} (a : α) : (pure a : Except Stop α) = .ok a := rfl

theorem except_bind_ok {α β : Type} {x : Except Stop α} {f : α → Except Stop β} {b : β} :
    (x >>= f) = .ok b ↔ ∃ a, x = .ok a ∧ f a = .ok b := by
  cases x <;> simp [bind, Except.bind]

theorem except_bind_error {α β : Type} {x : Except Stop α} {f : α → Except Stop β} {e : Stop} :
    (x >>= f) = .error e ↔ x = .error e ∨ ∃ a, x = .ok a ∧ f a = .error e := by
  cases x <;> simp [bind, Except.bind]

theorem except_pure_ok {α : Type} {a b : α} : (pure a : Except Stop α) = .ok b ↔ a = b := by
  simp [pure, Except.pure]

theorem except_pure_error {α : Type} {a : α} {e : Stop} : ¬(pure a : Except Stop α) = .error e := by
  simp [pure, Except.pure]

theorem require_ok {c : Bool} {e : ErrorCode} {u : Unit} : require c e = .ok u ↔ c = true := by
  cases c <;> simp [require]

theorem require_error {c : Bool} {e : ErrorCode} {x : Stop} : require c e = .error x ↔ c = false ∧ x = .raise e := by
  cases c <;> simp [require, eq_comm]

/-! ### Operands -/

theorem operand_ok {s : State} {r : BufReg} {v : Bits} : s.operand r = .ok v ↔ s.buf r = some v := by
  unfold State.operand
  cases s.buf r <;> simp

theorem operand_error {s : State} {r : BufReg} {x : Stop} :
    s.operand r = .error x ↔ s.buf r = none ∧ x = .raise .nullOperand := by
  unfold State.operand
  cases s.buf r <;> simp [eq_comm]

theorem keyOperand_ok {s : State} {r : BufReg} {k : Bits} : s.keyOperand r = .ok k ↔ s.buf r = some k ∧ k ≠ [] := by
  unfold State.keyOperand
  rcases s.buf r with _ | _ | ⟨b, v⟩
  · simp
  · simp only [List.isEmpty_nil, if_true, reduceCtorEq, Option.some.injEq, false_iff, not_and, not_not]
    exact Eq.symm
  · simp only [List.isEmpty_cons, Bool.false_eq_true, if_false, Except.ok.injEq, Option.some.injEq]
    exact ⟨fun h => ⟨h, h ▸ List.cons_ne_nil b v⟩, fun h => h.1⟩

theorem keyOperand_error {s : State} {r : BufReg} {x : Stop} :
    s.keyOperand r = .error x ↔ (s.buf r = none ∨ s.buf r = some []) ∧ x = .raise .emptyKey := by
  unfold State.keyOperand
  rcases s.buf r with _ | _ | ⟨b, v⟩ <;> simp [eq_comm]

theorem textOperand_ok {s : State} {r : BufReg} {t : List Byte} :
    s.textOperand r = .ok t ↔ ∃ v, s.buf r = some v ∧ v.length % 8 = 0 ∧ bytesOf v = t := by
  simp only [State.textOperand, except_bind_ok, operand_ok, require_ok, except_pure_ok, beq_iff_eq]
  constructor
  · rintro ⟨v, hv, -, h, rfl⟩
    exact ⟨v, hv, h, rfl⟩
  · rintro ⟨v, hv, h, rfl⟩
    exact ⟨v, hv, (), h, rfl⟩

theorem textOperand_error {s : State} {r : BufReg} {x : Stop} :
    s.textOperand r = .error x ↔
      (s.buf r = none ∧ x = .raise .nullOperand) ∨ (∃ v, s.buf r = some v ∧ v.length % 8 ≠ 0 ∧ x = .raise .length) := by
  simp only [State.textOperand, except_bind_error, operand_error, operand_ok, require_error, require_ok, except_pure_error,
    and_false, exists_const, or_false, beq_eq_false_iff_ne, ne_eq]

/-! ### The end of a command -/

/-- Everything the end of a command can be (R222, R225, I10). -/
theorem finish_next {i : Instr} {s t : State} {r : Except Stop State} (h : finish i s r = .next t) :
    (∃ u, r = .ok u ∧ t = u.complete) ∨ (∃ e, r = .error (.raise e) ∧ t = s.raiseFor i e) ∨
      (r = .error .waiting ∧ t = s) := by
  match r, h with
  | .ok u, h => exact .inl ⟨u, rfl, by simpa [finish, eq_comm] using h⟩
  | .error (.raise e), h => exact .inr (.inl ⟨e, rfl, by simpa [finish, eq_comm] using h⟩)
  | .error .waiting, h => exact .inr (.inr ⟨rfl, by simpa [finish, eq_comm] using h⟩)

theorem finish_of_ok {i : Instr} {s u : State} {r : Except Stop State} (h : r = .ok u) :
    finish i s r = .next u.complete := by
  rw [h]
  rfl

theorem finish_of_raise {i : Instr} {s : State} {e : ErrorCode} {r : Except Stop State} (h : r = .error (.raise e)) :
    finish i s r = .next (s.raiseFor i e) := by
  rw [h]
  rfl

theorem finish_of_waiting {i : Instr} {s : State} {r : Except Stop State} (h : r = .error .waiting) :
    finish i s r = .next s := by
  rw [h]
  rfl

/-- The end of a command is always a next state. -/
theorem finish_isNext (i : Instr) (s : State) (r : Except Stop State) : ∃ t, finish i s r = .next t := by
  match r with
  | .ok u => exact ⟨_, rfl⟩
  | .error (.raise e) => exact ⟨_, rfl⟩
  | .error .waiting => exact ⟨_, rfl⟩

/-! ### The derivation -/

theorem derivePasses_add (hash : HashAlg → List Byte → Option Byte) (seed : List Byte) (j k : Nat) (acc : List Byte) :
    derivePasses hash seed (j + k) acc = (derivePasses hash seed j acc).bind (derivePasses hash seed k) := by
  induction j generalizing acc with
  | zero => simp [derivePasses]
  | succ j ih =>
    rw [show j + 1 + k = (j + k) + 1 by omega]
    simp only [derivePasses]
    split
    · rfl
    · exact ih _

@[simp] theorem rotateRight_length (t : List Byte) (n : Nat) : (rotateRight t n).length = t.length := by
  unfold rotateRight
  split
  · rfl
  · split
    · rfl
    · rename_i h
      have : n % t.length < t.length := Nat.mod_lt _ (List.length_pos_iff.mpr (by simpa using h))
      simp only [List.length_append, List.length_drop, List.length_take]
      omega

theorem deriveAbsorb_length (acc : List Byte) (c : Byte) : (deriveAbsorb acc c).length = acc.length + 1 := by
  cases acc <;> simp [deriveAbsorb]

theorem derivePasses_length {hash : HashAlg → List Byte → Option Byte} {seed acc out : List Byte} {k : Nat}
    (h : derivePasses hash seed k acc = some out) : out.length = acc.length + k := by
  induction k generalizing acc with
  | zero => simp [derivePasses] at h; simp [h]
  | succ k ih =>
    simp only [derivePasses] at h
    split at h
    · cases h
    · rw [ih h, deriveAbsorb_length]
      omega

/-- A derivation from the accumulator of `j` earlier answers gives what the whole derivation gives (R166). -/
theorem derivePasses_resume {hash : HashAlg → List Byte → Option Byte} {seed acc : List Byte} {j k : Nat} (hj : j ≤ k)
    (h : derivePasses hash seed j [] = some acc) : derivePasses hash seed (k - j) acc = derivePasses hash seed k [] := by
  conv_rhs => rw [show k = j + (k - j) by omega, derivePasses_add, h]
  rfl

/-- The digest of an available algorithm has that algorithm's fixed length (R160). -/
theorem digest_length {p : Params} {alg : HashAlg} {m g : List Byte} (h : p.digest alg m = some g) :
    g.length = digestLength alg := by
  unfold Params.digest at h
  split at h
  · cases h
  · cases hk : p.knownDigest alg m with
    | none =>
      simp only [hk, Option.getD_none, Option.some.injEq] at h
      simp [← h]
    | some d =>
      simp only [hk, Option.getD_some, Option.some.injEq] at h
      subst h
      obtain ⟨e, he, rfl⟩ := Option.map_eq_some_iff.mp hk
      have := List.find?_some he
      simp only [Bool.and_eq_true, beq_iff_eq] at this
      exact this.2

/-- A whole derivation of `n` bytes has `n` bytes (R166). -/
theorem derive_length {hash : HashAlg → List Byte → Option Byte} {seed out : List Byte} {n : Nat}
    (h : derive hash seed n = some out) : out.length = n := by
  unfold derive at h
  cases hd : derivePasses hash seed (deriveRequests n) [] with
  | none => simp [hd] at h
  | some acc =>
    simp only [hd, Option.map_some, Option.some.injEq] at h
    subst h
    have := derivePasses_length hd
    simp only [deriveRequests, List.length_nil, List.length_take] at this ⊢
    omega

/-- Byte `j` of a rotated text is byte `(j - n) mod |t|` (R164). -/
theorem rotateRight_getElem? (t : List Byte) (n j : Nat) (h : n ≤ 2 ^ 31 - 1) (hj : j < t.length) :
    (rotateRight t n)[j]? = t[(j + t.length - n % t.length) % t.length]? := by
  unfold rotateRight
  rw [if_neg (by omega), if_neg (by cases t <;> simp_all)]
  have hm : n % t.length < t.length := Nat.mod_lt _ (by omega)
  generalize n % t.length = m at hm
  by_cases hjm : j < m
  · rw [List.getElem?_append_left (by simp; omega), List.getElem?_drop, Nat.mod_eq_of_lt (by omega)]
    congr 1
    omega
  · rw [List.getElem?_append_right (by simp; omega), List.getElem?_take, if_pos (by simp; omega),
      show j + t.length - m = (j - m) + t.length by omega, Nat.add_mod_right, Nat.mod_eq_of_lt (by omega)]
    congr 1
    simp only [List.length_drop]
    omega

theorem runDerivation_waiting {s : State} {seed : List Byte} {n : Nat} :
    s.runDerivation seed n = .error .waiting ↔
      deriveRequests n - s.engine.accumulator.length ≠ 0 ∧ s.providerLive = false := by
  unfold State.runDerivation
  split
  · simp_all
  · split <;> simp_all

theorem runDerivation_ok {s : State} {seed : List Byte} {n : Nat} {t : List Byte} :
    s.runDerivation seed n = .ok t ↔
      ¬(deriveRequests n - s.engine.accumulator.length ≠ 0 ∧ s.providerLive = false) ∧
        ∃ acc, derivePasses s.params.hashFirst seed (deriveRequests n - s.engine.accumulator.length)
          s.engine.accumulator = some acc ∧ acc.take n = t := by
  unfold State.runDerivation
  split
  · simp_all
  · split <;> simp_all

theorem runDerivation_raise {s : State} {seed : List Byte} {n : Nat} {e : ErrorCode} :
    s.runDerivation seed n = .error (.raise e) ↔
      ¬(deriveRequests n - s.engine.accumulator.length ≠ 0 ∧ s.providerLive = false) ∧ e = .hashUnavailable ∧
        derivePasses s.params.hashFirst seed (deriveRequests n - s.engine.accumulator.length) s.engine.accumulator = none := by
  unfold State.runDerivation
  split
  · simp_all
  · rename_i h
    cases derivePasses s.params.hashFirst seed (deriveRequests n - s.engine.accumulator.length) s.engine.accumulator with
    | none =>
      simp only [Except.error.injEq, Stop.raise.injEq, h, not_false_eq_true, true_and, and_true]
      exact eq_comm
    | some acc => simp

/-- With a fresh accumulator and a provider that answers, the derivation is `derive` (R166). -/
theorem runDerivation_fresh {s : State} (h : s.engine.accumulator = [] ∧ s.providerLive = true) (seed : List Byte) (n : Nat) :
    s.runDerivation seed n =
      match derive s.params.hashFirst seed n with
      | none => .error (.raise .hashUnavailable)
      | some t => .ok t := by
  unfold State.runDerivation derive
  rw [if_neg (by simp [h.2]), h.1]
  simp only [List.length_nil, Nat.sub_zero]
  cases derivePasses s.params.hashFirst seed (deriveRequests n) [] <;> rfl

/-! ### Frame operands -/

theorem frameCheck_ok {s : State} {x : BufReg} {shape : FrameShape} :
    s.frameCheck x = .ok shape ↔
      s.buf x = some shape.payload ∧ s.buf keyReg = some shape.key ∧ shape.key ≠ [] ∧ shape.payload.length % 8 = 0 ∧
        shape.key.length % 8 = 0 ∧ shape.payload.length / 8 ≤ headerMax ∧
        shape.payload.length / 8 + 4 ≤ shape.key.length / 8 ∧
        shape.fillerLen = shape.key.length / 8 - shape.payload.length / 8 - 4 := by
  obtain ⟨p, k, fl⟩ := shape
  simp only [State.frameCheck, except_bind_ok, operand_ok, require_ok, except_pure_ok, Bool.and_eq_true, beq_iff_eq,
    decide_eq_true_eq, Bool.not_eq_true', List.isEmpty_eq_false_iff, FrameShape.mk.injEq]
  constructor
  · rintro ⟨p', hp, k', hk, -, hne, -, ⟨h1, h2⟩, -, h3, -, h4, rfl, rfl, rfl⟩
    exact ⟨hp, hk, hne, h1, h2, h3, h4, rfl⟩
  · rintro ⟨hp, hk, hne, h1, h2, h3, h4, rfl⟩
    exact ⟨p, hp, k, hk, (), hne, (), ⟨h1, h2⟩, (), h3, (), h4, rfl, rfl, rfl⟩

/-- An absent input or an absent key (R181). -/
theorem frameCheck_absent {s : State} {x : BufReg} (h : s.buf x = none ∨ s.buf keyReg = none) :
    s.frameCheck x = .error (.raise .nullOperand) := by
  unfold State.frameCheck
  cases hx : s.buf x with
  | none =>
    rw [operand_error.mpr ⟨hx, rfl⟩]
    rfl
  | some p =>
    rw [operand_ok.mpr hx, operand_error.mpr ⟨h.resolve_left (by simp [hx]), rfl⟩]
    rfl

/-- An empty key (R181). -/
theorem frameCheck_emptyKey {s : State} {x : BufReg} {p : Bits} (hp : s.buf x = some p) (hk : s.buf keyReg = some []) :
    s.frameCheck x = .error (.raise .emptyKey) := by
  simp [State.frameCheck, operand_ok.mpr hp, operand_ok.mpr hk, require]

/-- A length that is not of whole bytes, or a payload too long for the header or the key (R181). -/
theorem frameCheck_length {s : State} {x : BufReg} {p k : Bits} (hp : s.buf x = some p) (hk : s.buf keyReg = some k)
    (hne : k ≠ [])
    (h : ¬(p.length % 8 = 0 ∧ k.length % 8 = 0 ∧ p.length / 8 ≤ headerMax ∧ p.length / 8 + 4 ≤ k.length / 8)) :
    s.frameCheck x = .error (.raise .length) := by
  simp only [State.frameCheck, operand_ok.mpr hp, operand_ok.mpr hk, require, except_ok_bind]
  rw [if_pos (by simpa using hne), except_ok_bind]
  by_cases h1 : p.length % 8 = 0 ∧ k.length % 8 = 0
  · rw [if_pos (by simpa using h1), except_ok_bind]
    by_cases h2 : p.length / 8 ≤ headerMax
    · rw [if_pos (by simpa using h2), except_ok_bind, if_neg (by simp only [decide_eq_true_eq]; tauto)]
      rfl
    · rw [if_neg (by simpa using h2)]
      rfl
  · rw [if_neg (by simpa using h1)]
    rfl

/-- A frame check stops only by raising. -/
theorem frameCheck_not_waiting {s : State} {x : BufReg} : s.frameCheck x ≠ .error .waiting := by
  intro h
  simp only [State.frameCheck, except_bind_error, operand_error, require_error, except_pure_error, reduceCtorEq, and_false,
    exists_const, or_false] at h

/-- The frame buffer is as long as the key (R180). -/
theorem frameXor_length {s : State} {x : BufReg} {shape : FrameShape} (h : s.frameCheck x = .ok shape) {filler : Bits}
    (hf : filler.length = 8 * shape.fillerLen) : (frameXor shape filler).length = shape.key.length := by
  obtain ⟨-, -, -, h1, h2, -, h4, h5⟩ := frameCheck_ok.mp h
  simp only [frameXor, xorWith_length, List.length_append, be32_length, hf, h5]
  omega

theorem fillerOf_supplied {s : State} {shape : FrameShape} {v : Bits} :
    s.fillerOf true shape = .ok v ↔ s.buf fillerReg = some v ∧ v.length = 8 * shape.fillerLen := by
  simp only [State.fillerOf, if_pos, except_bind_ok, operand_ok, require_ok, except_pure_ok, beq_iff_eq]
  constructor
  · rintro ⟨w, hw, -, h, rfl⟩
    exact ⟨hw, h⟩
  · rintro ⟨hw, h⟩
    exact ⟨v, hw, (), h, rfl⟩

theorem fillerOf_derived {s : State} {shape : FrameShape} {v : Bits} :
    s.fillerOf false shape = .ok v ↔
      ∃ t, s.runDerivation (bytesOf shape.payload) shape.fillerLen = .ok t ∧ toBits t = v := by
  simp only [State.fillerOf, Bool.false_eq_true, if_false, except_bind_ok, except_pure_ok]

theorem plainOperands_ok {s : State} {x : BufReg} {strict : Bool} {o : Bits × Bits} :
    s.plainOperands x strict = .ok o ↔
      s.buf x = some o.1 ∧ s.buf keyReg = some o.2 ∧ o.2 ≠ [] ∧ (strict = true → o.2.length = o.1.length) := by
  obtain ⟨p, k⟩ := o
  simp only [State.plainOperands, except_bind_ok, operand_ok, keyOperand_ok, require_ok, except_pure_ok, Bool.or_eq_true,
    Bool.not_eq_true', beq_iff_eq, Prod.mk.injEq]
  constructor
  · rintro ⟨p', hp, k', ⟨hk, hne⟩, -, h, rfl, rfl⟩
    refine ⟨hp, hk, hne, fun hs => ?_⟩
    simpa [hs] using h
  · rintro ⟨hp, hk, hne, h⟩
    refine ⟨p, hp, k, ⟨hk, hne⟩, (), ?_, rfl, rfl⟩
    cases strict
    · exact .inl rfl
    · exact .inr (h rfl)

/-! ### The store of a STB and the seed of a DRV -/

theorem stbPlan_ok {s : State} {a : BufReg} {b : ScalReg} {plan : Nat × List Byte} :
    stbPlan a b s = .ok plan ↔
      ∃ v, s.buf a = some v ∧ v.length % 8 = 0 ∧ s.number b + v.length / 8 ≤ s.params.dmemBytes ∧
        plan = (s.number b, bytesOf v) := by
  simp only [stbPlan, except_bind_ok, operand_ok, require_ok, except_pure_ok, beq_iff_eq, decide_eq_true_eq]
  constructor
  · rintro ⟨v, hv, -, h1, -, h2, h⟩
    exact ⟨v, hv, h1, h2, h.symm⟩
  · rintro ⟨v, hv, h1, h2, h⟩
    exact ⟨v, hv, (), h1, (), h2, h.symm⟩

theorem drvSeed_ok {s : State} {a : BufReg} {b : ScalReg} {o : List Byte × Nat} :
    drvSeed a b s = .ok o ↔
      ∃ v, s.buf a = some v ∧ v.length % 8 = 0 ∧ 8 * s.number b ≤ s.params.maxlen ∧ o = (bytesOf v, s.number b) := by
  simp only [drvSeed, except_bind_ok, textOperand_ok, require_ok, except_pure_ok, decide_eq_true_eq]
  constructor
  · rintro ⟨t, ⟨v, hv, h1, rfl⟩, -, h2, h⟩
    exact ⟨v, hv, h1, h2, h.symm⟩
  · rintro ⟨v, hv, h1, h2, h⟩
    exact ⟨bytesOf v, ⟨v, hv, h1, rfl⟩, (), h2, h.symm⟩

end Sys2Proof.Machine
end

