-- ==== Sys2Proof/Laws/Outcomes.lean ====
section
/-! SUPPORT. What the writes of a command and error entry leave, in the words of Safety.lean, once each. -/

namespace Sys2Proof.Machine

/-! ### Completion (R225) -/

theorem wroteScalar_complete (s : State) (d : ScalReg) (v : Word) : WroteScalar s (s.writeScalar d v).complete d v := by
  have h (r : ScalReg) : (s.writeScalar d v).complete.scalar r = if r = d then v else s.scalar r :=
    s.scalar_writeScalar d r v
  refine ⟨rfl, by rw [h, if_pos rfl], fun r hr => by rw [h, if_neg hr], fun _ => rfl, fun _ => rfl, rfl, rfl⟩

/-- The frame flags of a setter write (R26). -/
theorem setterFlags_writeBuf (s : State) (d : BufReg) (v : Option Bits) :
    SetterFlags s (s.writeBuf d v).complete d v.isSome := by
  refine ⟨?_, ?_, ?_⟩
  · rintro rfl
    exact ⟨rfl, rfl⟩
  · rintro rfl
    exact ⟨rfl, rfl⟩
  · intro h0 h2
    have h0 : d ≠ decodedReg := h0
    have h2 : d ≠ encodedReg := h2
    exact ⟨by simp [encAfterSetter, h0, h2], by simp [decAfterSetter, h0, h2]⟩

theorem wroteBuffer_complete (s : State) (d : BufReg) (v : Option Bits) : WroteBuffer s (s.writeBuf d v).complete d v := by
  have h (r : BufReg) : (s.writeBuf d v).complete.buf r = if r = d then v else s.buf r := s.buf_writeBuf d r v
  refine ⟨rfl, by rw [h, if_pos rfl], fun r hr => by rw [h, if_neg hr], fun _ => rfl, fun _ => rfl, ?_⟩
  exact setterFlags_writeBuf s d v

theorem wroteEncoded_complete (s : State) (v : Bits) : WroteEncoded s (s.writeEncoded v).complete v := by
  have h (r : BufReg) : (s.writeEncoded v).complete.buf r = if r = 2 then some v else s.buf r := s.buf_writeEncoded r v
  exact ⟨rfl, by rw [h, if_pos rfl], fun r hr => by rw [h, if_neg hr], fun _ => rfl, fun _ => rfl, rfl, rfl⟩

theorem wroteDecoded_complete (s : State) (v : Bits) : WroteDecoded s (s.writeDecoded v).complete v := by
  have h (r : BufReg) : (s.writeDecoded v).complete.buf r = if r = 0 then some v else s.buf r := s.buf_writeDecoded r v
  exact ⟨rfl, by rw [h, if_pos rfl], fun r hr => by rw [h, if_neg hr], fun _ => rfl, fun _ => rfl, rfl, rfl⟩

/-! ### Error entry (R222) -/

theorem isEncodeWord_encode (i : Instr) :
    isEncodeWord (encode i) = true ↔ (∃ f, i = .fenc f) ∨ (∃ st, i = .penc st) := by
  cases i <;> simp [isEncodeWord, encode]

theorem isDecodeWord_encode (i : Instr) :
    isDecodeWord (encode i) = true ↔ (∃ f, i = .fdec f) ∨ (∃ st, i = .pdec st) := by
  cases i <;> simp [isDecodeWord, encode]

/-- Error entry of a command that is no frame command touches no frame flag. -/
theorem raised_raiseFor {i : Instr} (h : isFrameCommand i = false) (s : State) (e : ErrorCode) :
    Raised s (s.raiseFor i e) (errInfoWord e .none) (encode i) := by
  have he : isEncodeWord (encode i) = false := by
    rw [Bool.eq_false_iff]
    intro h'
    rcases (isEncodeWord_encode i).mp h' with ⟨f, rfl⟩ | ⟨f, rfl⟩ <;> cases h
  have hd : isDecodeWord (encode i) = false := by
    rw [Bool.eq_false_iff]
    intro h'
    rcases (isDecodeWord_encode i).mp h' with ⟨f, rfl⟩ | ⟨f, rfl⟩ <;> cases h
  simp [Raised, State.raiseFor, h, State.raiseError, he, hd]

/-- The word error entry of a legal command writes to ERRINFO (R221, R222). -/
def infoFor (i : Instr) (e : ErrorCode) : Word :=
  if isFrameCommand i then errInfoWord .convert e else errInfoWord e .none

/-- Error entry of any legal command. -/
theorem raisedBy_raiseFor (i : Instr) (s : State) (e : ErrorCode) : RaisedBy i s (s.raiseFor i e) (infoFor i e) := by
  cases i
  case fenc f => simp [RaisedBy, RaisedEncode, infoFor, State.raiseFor, isFrameCommand, State.raiseError, isEncodeWord, isDecodeWord, encode]
  case fdec f => simp [RaisedBy, RaisedDecode, infoFor, State.raiseFor, isFrameCommand, State.raiseError, isEncodeWord, isDecodeWord, encode]
  case penc f => simp [RaisedBy, RaisedEncode, infoFor, State.raiseFor, isFrameCommand, State.raiseError, isEncodeWord, isDecodeWord, encode]
  case pdec f => simp [RaisedBy, RaisedDecode, infoFor, State.raiseFor, isFrameCommand, State.raiseError, isEncodeWord, isDecodeWord, encode]
  all_goals exact raised_raiseFor rfl s e

/-! ### The end of a command, in these words -/

theorem finish_wroteScalar {i : Instr} {s : State} {d : ScalReg} {v : Word} {r : Except Stop State}
    (h : r = .ok (s.writeScalar d v)) : ∃ t, finish i s r = .next t ∧ WroteScalar s t d v :=
  ⟨_, finish_of_ok h, wroteScalar_complete s d v⟩

theorem finish_wroteBuffer {i : Instr} {s : State} {d : BufReg} {v : Option Bits} {r : Except Stop State}
    (h : r = .ok (s.writeBuf d v)) : ∃ t, finish i s r = .next t ∧ WroteBuffer s t d v :=
  ⟨_, finish_of_ok h, wroteBuffer_complete s d v⟩

theorem finish_raised {i : Instr} {s : State} {info : Word} {r : Except Stop State} (e : ErrorCode)
    (hi : isFrameCommand i = false) (hinfo : errInfoWord e .none = info) (h : r = .error (.raise e)) :
    ∃ t, finish i s r = .next t ∧ Raised s t info (encode i) :=
  ⟨_, finish_of_raise h, hinfo ▸ raised_raiseFor hi s e⟩

theorem finish_raisedBy {i : Instr} {s : State} {info : Word} {r : Except Stop State} (e : ErrorCode)
    (hinfo : infoFor i e = info) (h : r = .error (.raise e)) : ∃ t, finish i s r = .next t ∧ RaisedBy i s t info :=
  ⟨_, finish_of_raise h, hinfo ▸ raisedBy_raiseFor i s e⟩

/-! ### Every command -/

/-- The meaning of a command is the end of what its rule does. -/
theorem exec_eq_finish (i : Instr) (s : State) : ∃ r, exec i s = finish i s r := by
  cases i <;> first | exact ⟨_, rfl⟩ | exact ⟨.ok _, rfl⟩

/-- A command leaves the engine idle, or the state as it was (R225, R222, I10). -/
theorem exec_idle_or_same {i : Instr} {s t : State} (h : exec i s = .next t) : t.engine = .idle ∨ t = s := by
  obtain ⟨r, hr⟩ := exec_eq_finish i s
  rcases finish_next (hr ▸ h) with ⟨u, -, rfl⟩ | ⟨e, -, rfl⟩ | ⟨-, rfl⟩
  · exact .inl rfl
  · left
    unfold State.raiseFor
    split <;> rfl
  · exact .inr rfl

/-! ### The derivation a command needs depends on registers and parameters only (R167, R182) -/

theorem drvSeed_congr {s t : State} (hb : t.bufs = s.bufs) (hc : t.scalars = s.scalars) (hp : t.params = s.params)
    (a : BufReg) (b : ScalReg) : drvSeed a b t = drvSeed a b s := by
  unfold drvSeed State.textOperand State.operand State.number
  rw [State.buf_congr hb, State.scalar_congr hc, hp]

theorem frameCheck_congr {s t : State} (hb : t.bufs = s.bufs) (x : BufReg) : t.frameCheck x = s.frameCheck x := by
  unfold State.frameCheck State.operand
  rw [State.buf_congr hb, State.buf_congr hb]

theorem derivationOf_congr {s t : State} (hb : t.bufs = s.bufs) (hc : t.scalars = s.scalars) (hp : t.params = s.params)
    (i : Instr) : derivationOf i t = derivationOf i s := by
  cases i with
  | drv d a b => simp only [derivationOf, drvSeed_congr hb hc hp]
  | fenc f => cases f <;> simp only [derivationOf, frameCheck_congr hb]
  | fdec f => cases f <;> simp only [derivationOf, frameCheck_congr hb]
  | _ => rfl

end Sys2Proof.Machine
end

