-- ==== Sys2Proof/Laws/Host.lean ====
section
/-! SUPPORT. Everything a host access, the soft reset and a provider answer can do, once each (10_state.md rules R32 to
R45, 20_memory.md rules R65 and R66, 70_reset_and_hazards.md rules R262 and R271 to R273). -/

namespace Sys2Proof.Machine

/-! ### What an access reaches -/

theorem State.busy_false_iff {s : State} : s.busy = false ↔ s.engine = .idle := by
  unfold State.busy
  cases s.engine <;> simp

theorem State.target_dmem {s : State} {off : HostOffset} {width : AccessWidth} {a : Nat} :
    s.target off width = .dmem a ↔
      0x10000 ≤ off.toNat ∧ width = .w8 ∧ a = off.toNat - 0x10000 ∧ a < s.params.dmemBytes := by
  unfold State.target
  split
  · rename_i h
    split <;> simp [Nat.not_le.mpr h]
  · split
    · split
      · simp_all
        omega
      · simp_all
    · simp_all

theorem State.target_reg {s : State} {off : HostOffset} {width : AccessWidth} {r : HostReg} :
    s.target off width = .reg r ↔
      off.toNat < 0x10000 ∧ width = .w32 ∧ off.toNat % 4 = 0 ∧ r = hostReg off.toNat := by
  unfold State.target
  split
  · split <;> simp_all [eq_comm]
  · split
    · split <;> simp_all
    · simp_all

/-- The register map as cases: which offsets can be which register (R32). -/
theorem hostReg_cases (off : Nat) :
    (off = 0x000 ∧ hostReg off = .id) ∨ (off = 0x004 ∧ hostReg off = .ctrl) ∨ (off = 0x008 ∧ hostReg off = .status) ∨
      (off = 0x00C ∧ hostReg off = .cmd) ∨ (off = 0x010 ∧ hostReg off = .errInfo) ∨ (off = 0x014 ∧ hostReg off = .errCmd) ∨
      (off = 0x018 ∧ hostReg off = .fstat) ∨ (off = 0x01C ∧ hostReg off = .capMaxlen) ∨
      (off = 0x020 ∧ hostReg off = .capDmem) ∨ (0x040 ≤ off ∧ off < 0x060 ∧ ∃ n, hostReg off = .scalar n) ∨
      (0x060 ≤ off ∧ off < 0x080 ∧ ∃ n, hostReg off = .blenr n) ∨ (off = 0x080 ∧ hostReg off = .bvalid) ∨
      hostReg off = .reserved := by
  by_cases h : off ≤ 0x020
  · have : ∀ off ≤ 0x020, off = 0x000 ∨ off = 0x004 ∨ off = 0x008 ∨ off = 0x00C ∨ off = 0x010 ∨ off = 0x014 ∨ off = 0x018 ∨
        off = 0x01C ∨ off = 0x020 ∨ hostReg off = .reserved := by decide
    rcases this off h with rfl | rfl | rfl | rfl | rfl | rfl | rfl | rfl | rfl | h
    · exact .inl ⟨rfl, rfl⟩
    · exact .inr (.inl ⟨rfl, rfl⟩)
    · exact .inr (.inr (.inl ⟨rfl, rfl⟩))
    · exact .inr (.inr (.inr (.inl ⟨rfl, rfl⟩)))
    · exact .inr (.inr (.inr (.inr (.inl ⟨rfl, rfl⟩))))
    · exact .inr (.inr (.inr (.inr (.inr (.inl ⟨rfl, rfl⟩)))))
    · exact .inr (.inr (.inr (.inr (.inr (.inr (.inl ⟨rfl, rfl⟩))))))
    · exact .inr (.inr (.inr (.inr (.inr (.inr (.inr (.inl ⟨rfl, rfl⟩)))))))
    · exact .inr (.inr (.inr (.inr (.inr (.inr (.inr (.inr (.inl ⟨rfl, rfl⟩))))))))
    · exact .inr (.inr (.inr (.inr (.inr (.inr (.inr (.inr (.inr (.inr (.inr (.inr h)))))))))))
  · by_cases h1 : 0x040 ≤ off ∧ off < 0x060
    · refine .inr (.inr (.inr (.inr (.inr (.inr (.inr (.inr (.inr (.inl ⟨h1.1, h1.2, ?_⟩)))))))))
      unfold hostReg
      iterate 9 rw [if_neg (by omega)]
      rw [if_pos h1]
      exact ⟨_, rfl⟩
    · by_cases h2 : 0x060 ≤ off ∧ off < 0x080
      · refine .inr (.inr (.inr (.inr (.inr (.inr (.inr (.inr (.inr (.inr (.inl ⟨h2.1, h2.2, ?_⟩))))))))))
        unfold hostReg
        iterate 9 rw [if_neg (by omega)]
        rw [if_neg h1, if_pos h2]
        exact ⟨_, rfl⟩
      · refine .inr (.inr (.inr (.inr (.inr (.inr (.inr (.inr (.inr (.inr (.inr ?_))))))))))
        unfold hostReg
        iterate 9 rw [if_neg (by omega)]
        rw [if_neg h1, if_neg h2]
        split
        · exact .inl ⟨‹_›, rfl⟩
        · exact .inr rfl

/-- The offsets of the scalar registers (R42). -/
theorem State.target_scalar (s : State) (n : ScalReg) : s.target (0x040 + 4 * n.setWidth 17) .w32 = .reg (.scalar n) := by
  have h : ∀ n : ScalReg, (0x040 + 4 * n.setWidth 17 : HostOffset).toNat < 0x10000 ∧
      (0x040 + 4 * n.setWidth 17 : HostOffset).toNat % 4 = 0 ∧
      hostReg (0x040 + 4 * n.setWidth 17 : HostOffset).toNat = .scalar n := by decide
  exact State.target_reg.mpr ⟨(h n).1, rfl, (h n).2.1, (h n).2.2.symm⟩

/-- The offsets of the length registers (R43). -/
theorem State.target_blenr (s : State) (n : BufReg) : s.target (0x060 + 4 * n.setWidth 17) .w32 = .reg (.blenr n) := by
  have h : ∀ n : BufReg, (0x060 + 4 * n.setWidth 17 : HostOffset).toNat < 0x10000 ∧
      (0x060 + 4 * n.setWidth 17 : HostOffset).toNat % 4 = 0 ∧
      hostReg (0x060 + 4 * n.setWidth 17 : HostOffset).toNat = .blenr n := by decide
  exact State.target_reg.mpr ⟨(h n).1, rfl, (h n).2.1, (h n).2.2.symm⟩

/-! ### Accesses of a known target, reset not asserted -/

theorem State.access_write_reg {s : State} {off : HostOffset} {width : AccessWidth} {r : HostReg}
    (hp : s.resetPin = false) (ht : s.target off width = .reg r) (v : Word) :
    s.access (.write off width v) = s.writeReg r v := by
  simp only [State.access, State.hostWrite]
  rw [if_neg (by simp [hp]), ht]

theorem State.access_write_dmem {s : State} {off : HostOffset} {width : AccessWidth} {a : Nat}
    (hp : s.resetPin = false) (ht : s.target off width = .dmem a) (v : Word) :
    s.access (.write off width v) = if s.busy then s.drop else s.writeBytes a [v.setWidth 8] := by
  simp only [State.access, State.hostWrite]
  rw [if_neg (by simp [hp]), ht]

theorem State.hostRead_reg {s : State} {off : HostOffset} {width : AccessWidth} {r : HostReg}
    (hp : s.resetPin = false) (ht : s.target off width = .reg r) : s.hostRead off width = s.readReg r := by
  unfold State.hostRead
  rw [if_neg (by simp [hp]), ht]

theorem State.hostRead_dmem {s : State} {off : HostOffset} {width : AccessWidth} {a : Nat}
    (hp : s.resetPin = false) (ht : s.target off width = .dmem a) :
    s.hostRead off width = if s.busy then none else some ((s.readByte a).setWidth 32) := by
  unfold State.hostRead
  rw [if_neg (by simp [hp]), ht]

/-! ### The soft reset -/

/-- When a store is in progress, and which (R121, R262). -/
theorem State.pendingStore_some {s : State} {o : Nat × List Byte} :
    s.pendingStore = some o ↔
      ∃ w acc a b v, s.engine = .executing w acc ∧ decode w = .ok (.stb a b) ∧ s.buf a = some v ∧ v.length % 8 = 0 ∧
        s.number b + v.length / 8 ≤ s.params.dmemBytes ∧ o = (s.number b, bytesOf v) := by
  have plan (a : BufReg) (b : ScalReg) : (stbPlan a b s).toOption = some o ↔ stbPlan a b s = .ok o := by
    cases stbPlan a b s <;> simp [Except.toOption]
  unfold State.pendingStore
  split
  · rename_i h
    simp [h]
  · rename_i w acc h
    split
    · rename_i a b hd
      rw [plan, stbPlan_ok]
      constructor
      · rintro ⟨v, h1, h2, h3, h4⟩
        exact ⟨w, acc, a, b, v, h, hd, h1, h2, h3, h4⟩
      · rintro ⟨w', acc', a', b', v, h', hd', h1, h2, h3, h4⟩
        rw [h] at h'
        cases h'
        rw [hd] at hd'
        cases hd'
        exact ⟨v, h1, h2, h3, h4⟩
    · rename_i hn
      simp only [reduceCtorEq, false_iff]
      rintro ⟨w', acc', a', b', v, h', hd', -⟩
      rw [h] at h'
      cases h'
      exact hn a' b' hd'

/-- A byte of memory after a store that may be partial: as before, or the byte of that address (R262). -/
theorem lookup_storeSome (m : Memory) (a x : Nat) (bs : List Byte) (n : Nat) :
    Memory.lookup (storeSome m a bs n) x = Memory.lookup m x ∨
      ∃ j, ∃ h : j < bs.length, x = a + j ∧ Memory.lookup (storeSome m a bs n) x = some bs[j] := by
  induction bs generalizing m a n with
  | nil => exact .inl rfl
  | cons b bs ih =>
    simp only [storeSome]
    rcases ih (if Config.freeBit n then Memory.store m a b else m) (a + 1) (n + 1) with h | ⟨j, hj, hx, h⟩
    · rw [h]
      split
      · rw [Memory.lookup_store]
        split
        · rename_i hxa
          exact .inr ⟨0, by simp, by simpa using hxa, by simp⟩
        · exact .inl rfl
      · exact .inl rfl
    · exact .inr ⟨j + 1, by simpa using hj, by omega, by simpa using h⟩

/-! ### Every host access -/

/-- Everything a host write can do. -/
theorem State.hostWrite_cases (s : State) (off : HostOffset) (width : AccessWidth) (v : Word) :
    s.hostWrite off width v = s ∨
      (s.resetPin = false ∧
        (s.hostWrite off width v = s.softReset ∨
          s.hostWrite off width v = { s with ieDone := v.getLsbD 0, ieErr := v.getLsbD 1, ieOvr := v.getLsbD 2 } ∨
          s.hostWrite off width v = s.clearStatus v ∨ s.hostWrite off width v = s.drop ∨
          (s.busy = false ∧ s.stErr = false ∧ s.hostWrite off width v = { s with engine := .executing v [] }) ∨
          (s.busy = false ∧ ∃ n, s.hostWrite off width v = s.writeScalar n v) ∨
          (s.busy = false ∧ ∃ a < s.params.dmemBytes, s.hostWrite off width v = s.writeBytes a [v.setWidth 8]))) := by
  by_cases hp : s.resetPin = true
  · left
    simp [State.hostWrite, hp]
  · have hp : s.resetPin = false := by simpa using hp
    refine Or.imp_right (fun h => ⟨hp, h⟩) ?_
    unfold State.hostWrite
    rw [if_neg (by simp [hp])]
    cases ht : s.target off width with
    | unsupported => exact .inl rfl
    | dmemReserved => exact .inl rfl
    | dmem a =>
      right
      have ha := (State.target_dmem.mp ht).2.2.2
      cases hb : s.busy
      · exact .inr (.inr (.inr (.inr (.inr (.inr ⟨rfl, a, ha, rfl⟩)))))
      · exact .inr (.inr (.inr (.inl rfl)))
    | reg r =>
      cases r with
      | ctrl =>
        right
        simp only [State.writeReg, State.writeCtrl]
        split
        · exact .inl rfl
        · exact .inr (.inl rfl)
      | status => exact .inr (.inr (.inr (.inl rfl)))
      | cmd =>
        right
        simp only [State.writeReg, State.acceptCommand]
        split
        · exact .inr (.inr (.inr (.inl rfl)))
        · rename_i h
          simp only [Bool.or_eq_true, not_or, Bool.not_eq_true] at h
          exact .inr (.inr (.inr (.inr (.inl ⟨h.1, h.2, rfl⟩))))
      | scalar n =>
        right
        cases hb : s.busy
        · simp only [State.writeReg, hb, Bool.false_eq_true, if_false]
          exact .inr (.inr (.inr (.inr (.inr (.inl ⟨trivial, n, rfl⟩)))))
        · simp only [State.writeReg, hb, if_true]
          exact .inr (.inr (.inr (.inl trivial)))
      | _ => exact .inl rfl

/-- Everything a host access can do: a write, or a reply and at most one free draw. -/
theorem State.access_cases (s : State) (a : HostAccess) :
    (∃ off width v, a = .write off width v ∧ s.access a = s.hostWrite off width v) ∨
      ∃ reply draws, s.access a = { s with busReply := some reply, draws := draws } := by
  cases a with
  | write off width v => exact .inl ⟨off, width, v, rfl, rfl⟩
  | read off width =>
    right
    simp only [State.access]
    split
    · exact ⟨_, s.draws, rfl⟩
    · exact ⟨_, _, rfl⟩

/-! ### The provider's answer -/

/-- Everything a provider's answer can do (R162, R166). -/
theorem State.providerAnswer_cases (s : State) :
    s.providerAnswer = s ∨
      ∃ i alg m, s.request = some (i, alg, m) ∧
        ((s.params.hashFirst alg m = none ∧ s.providerAnswer = s.raiseFor i .hashUnavailable) ∨
          ∃ c w acc, s.params.hashFirst alg m = some c ∧ s.engine = .executing w acc ∧
            s.providerAnswer = { s with engine := .executing w (deriveAbsorb acc c) }) := by
  unfold State.providerAnswer
  split
  · exact .inl rfl
  · split
    · exact .inl rfl
    · rename_i i alg m hr
      split
      · rename_i h
        exact .inr ⟨i, alg, m, hr, .inl ⟨h, rfl⟩⟩
      · rename_i c h
        split
        · exact .inl rfl
        · rename_i w acc he
          exact .inr ⟨i, alg, m, hr, .inr ⟨c, w, acc, h, he, rfl⟩⟩

end Sys2Proof.Machine
end

