-- ==== Sys2Proof/Laws/PerInstr.lean ====
section
/-! SUPPORT. The per-instruction family `EncodeFitsRow`: the word of every command fits the mask and the match of its row of
the opcode map (30_encoding.md rule R88), one lemma a constructor. -/

namespace Sys2Proof.Laws

/-- The encoding of `i` is selected by the row of the opcode map that bears its mnemonic (R88). -/
def EncodeFitsRow.Statement (i : Instr) : Prop :=
  ∃ r ∈ opcodeTable, r.mnemonic = i.mnemonic ∧ r.selects (encode i) = true

/-- A masked word equals the match when it does so bit by bit. -/
theorem selects_of_bits {r : OpcodeRow} {w : Word}
    (h : ∀ i, i < 32 → (w.getLsbD i && r.mask.getLsbD i) = r.matchBits.getLsbD i) : r.selects w = true := by
  simp only [OpcodeRow.selects, beq_iff_eq]
  apply BitVec.eq_of_getLsbD_eq
  intro i hi
  rw [BitVec.getLsbD_and]
  exact h i hi

theorem EncodeFitsRow.nop : EncodeFitsRow.Statement .nop :=
  ⟨⟨"NOP", 0x04000000, 0xFFFFFFFF⟩, by decide, rfl, by decide⟩

theorem EncodeFitsRow.li (d : BitVec 3) (imm : BitVec 16) : EncodeFitsRow.Statement (.li d imm) := by
  refine ⟨⟨"LI", 0x08000000, 0xFC7F0000⟩, by decide, rfl, selects_of_bits fun i hi => ?_⟩
  simp only [encode, formatI, BitVec.getLsbD_append]
  interval_cases i <;> simp

theorem EncodeFitsRow.lih (d : BitVec 3) (imm : BitVec 16) : EncodeFitsRow.Statement (.lih d imm) := by
  refine ⟨⟨"LIH", 0x0C000000, 0xFC7F0000⟩, by decide, rfl, selects_of_bits fun i hi => ?_⟩
  simp only [encode, formatI, BitVec.getLsbD_append]
  interval_cases i <;> simp

theorem EncodeFitsRow.blen (d : BitVec 3) (a : BitVec 3) : EncodeFitsRow.Statement (.blen d a) := by
  refine ⟨⟨"BLEN", 0x10000000, 0xFC0FFFFF⟩, by decide, rfl, selects_of_bits fun i hi => ?_⟩
  simp only [encode, formatR, BitVec.getLsbD_append]
  interval_cases i <;> simp

theorem EncodeFitsRow.bclr (d : BitVec 3) : EncodeFitsRow.Statement (.bclr d) := by
  refine ⟨⟨"BCLR", 0x14000000, 0xFC7FFFFF⟩, by decide, rfl, selects_of_bits fun i hi => ?_⟩
  simp only [encode, formatR, BitVec.getLsbD_append]
  interval_cases i <;> simp

theorem EncodeFitsRow.bmov (d : BitVec 3) (a : BitVec 3) : EncodeFitsRow.Statement (.bmov d a) := by
  refine ⟨⟨"BMOV", 0x18000000, 0xFC0FFFFF⟩, by decide, rfl, selects_of_bits fun i hi => ?_⟩
  simp only [encode, formatR, BitVec.getLsbD_append]
  interval_cases i <;> simp

theorem EncodeFitsRow.binv (d : BitVec 3) : EncodeFitsRow.Statement (.binv d) := by
  refine ⟨⟨"BINV", 0x1C000000, 0xFC7FFFFF⟩, by decide, rfl, selects_of_bits fun i hi => ?_⟩
  simp only [encode, formatR, BitVec.getLsbD_append]
  interval_cases i <;> simp

theorem EncodeFitsRow.ldb (d : BitVec 3) (a : BitVec 3) (b : BitVec 3) : EncodeFitsRow.Statement (.ldb d a b) := by
  refine ⟨⟨"LDB", 0x20000000, 0xFC01FFFF⟩, by decide, rfl, selects_of_bits fun i hi => ?_⟩
  simp only [encode, formatR, BitVec.getLsbD_append]
  interval_cases i <;> simp

theorem EncodeFitsRow.stb (a : BitVec 3) (b : BitVec 3) : EncodeFitsRow.Statement (.stb a b) := by
  refine ⟨⟨"STB", 0x24000000, 0xFF81FFFF⟩, by decide, rfl, selects_of_bits fun i hi => ?_⟩
  simp only [encode, formatR, BitVec.getLsbD_append]
  interval_cases i <;> simp

theorem EncodeFitsRow.hdrx (d : BitVec 3) (a : BitVec 3) (h : BitVec 6) : EncodeFitsRow.Statement (.hdrx d a h) := by
  refine ⟨⟨"HDRX", 0x28000000, 0xFC0FFFC0⟩, by decide, rfl, selects_of_bits fun i hi => ?_⟩
  simp only [encode, formatR, BitVec.getLsbD_append]
  interval_cases i <;> simp

theorem EncodeFitsRow.ksb (d : BitVec 3) (a : BitVec 3) (b : BitVec 3) : EncodeFitsRow.Statement (.ksb d a b) := by
  refine ⟨⟨"KSB", 0x40000000, 0xFC01FFFF⟩, by decide, rfl, selects_of_bits fun i hi => ?_⟩
  simp only [encode, formatR, BitVec.getLsbD_append]
  interval_cases i <;> simp

theorem EncodeFitsRow.xor (d : BitVec 3) (a : BitVec 3) (b : BitVec 3) : EncodeFitsRow.Statement (.xor d a b) := by
  refine ⟨⟨"XOR", 0x44000000, 0xFC01FFFF⟩, by decide, rfl, selects_of_bits fun i hi => ?_⟩
  simp only [encode, formatR, BitVec.getLsbD_append]
  interval_cases i <;> simp

theorem EncodeFitsRow.xors (d : BitVec 3) (a : BitVec 3) (b : BitVec 3) : EncodeFitsRow.Statement (.xors d a b) := by
  refine ⟨⟨"XORS", 0x48000000, 0xFC01FFFF⟩, by decide, rfl, selects_of_bits fun i hi => ?_⟩
  simp only [encode, formatR, BitVec.getLsbD_append]
  interval_cases i <;> simp

theorem EncodeFitsRow.rotr (d : BitVec 3) (a : BitVec 3) (b : BitVec 3) : EncodeFitsRow.Statement (.rotr d a b) := by
  refine ⟨⟨"ROTR", 0x60000000, 0xFC01FFFF⟩, by decide, rfl, selects_of_bits fun i hi => ?_⟩
  simp only [encode, formatR, BitVec.getLsbD_append]
  interval_cases i <;> simp

theorem EncodeFitsRow.drv (d : BitVec 3) (a : BitVec 3) (b : BitVec 3) : EncodeFitsRow.Statement (.drv d a b) := by
  refine ⟨⟨"DRV", 0x64000000, 0xFC01FFFF⟩, by decide, rfl, selects_of_bits fun i hi => ?_⟩
  simp only [encode, formatR, BitVec.getLsbD_append]
  interval_cases i <;> simp

theorem EncodeFitsRow.fenc (f : Bool) : EncodeFitsRow.Statement (.fenc f) := by
  refine ⟨⟨"FENC", 0x80000000, 0xFFFFFFFE⟩, by decide, rfl, selects_of_bits fun i hi => ?_⟩
  simp only [encode, formatR, frameModifier, BitVec.getLsbD_append]
  interval_cases i <;> simp

theorem EncodeFitsRow.fdec (f : Bool) : EncodeFitsRow.Statement (.fdec f) := by
  refine ⟨⟨"FDEC", 0x84000000, 0xFFFFFFFE⟩, by decide, rfl, selects_of_bits fun i hi => ?_⟩
  simp only [encode, formatR, frameModifier, BitVec.getLsbD_append]
  interval_cases i <;> simp

theorem EncodeFitsRow.penc (st : Bool) : EncodeFitsRow.Statement (.penc st) := by
  refine ⟨⟨"PENC", 0x88000000, 0xFFFFFFFE⟩, by decide, rfl, selects_of_bits fun i hi => ?_⟩
  simp only [encode, formatR, frameModifier, BitVec.getLsbD_append]
  interval_cases i <;> simp

theorem EncodeFitsRow.pdec (st : Bool) : EncodeFitsRow.Statement (.pdec st) := by
  refine ⟨⟨"PDEC", 0x8C000000, 0xFFFFFFFE⟩, by decide, rfl, selects_of_bits fun i hi => ?_⟩
  simp only [encode, formatR, frameModifier, BitVec.getLsbD_append]
  interval_cases i <;> simp

theorem EncodeFitsRow.cut (d : BitVec 3) (a : BitVec 3) (b : BitVec 3) (c : BitVec 3) : EncodeFitsRow.Statement (.cut d a b c) := by
  refine ⟨⟨"CUT", 0xA0000000, 0xFC003FFF⟩, by decide, rfl, selects_of_bits fun i hi => ?_⟩
  simp only [encode, formatR, BitVec.getLsbD_append]
  interval_cases i <;> simp

theorem EncodeFitsRow.mrg (d : BitVec 3) (a : BitVec 3) (b : BitVec 3) : EncodeFitsRow.Statement (.mrg d a b) := by
  refine ⟨⟨"MRG", 0xA4000000, 0xFC01FFFF⟩, by decide, rfl, selects_of_bits fun i hi => ?_⟩
  simp only [encode, formatR, BitVec.getLsbD_append]
  interval_cases i <;> simp

end Sys2Proof.Laws
end

