-- ==== Sys2Proof/Tests/Slice0.lean ====
section
/-! SUPPORT. Tests of single steps, with results from the vectors of 95_test_vectors.md (their numbers stand beside each
test), and witnesses: for each statement with hypotheses, a concrete state that meets them. -/

namespace Sys2Proof.Tests

open Sys2Proof.Machine

/-! ### Helpers -/

/-- A digest of the algorithm's length with a given first byte, the only one the vectors of the toy provider fix. -/
def digestOf (alg : HashAlg) (b : Byte) : List Byte := b :: List.replicate (digestLength alg - 1) 0

/-- MAXLEN 64 and DMEM_BYTES 16, as the vectors marked so (95_test_vectors.md section 4), with the toy provider's digests
for the seeds "HI" and 8B 9D (section 0). -/
def smallParams : Params :=
  { maxlen := 64
    dmemBytes := 16
    hexUpper := false
    unavailable := []
    digests :=
      [(.md2, [0x48, 0x49], digestOf .md2 0x50), (.md5, [0x35, 0x48, 0x49], digestOf .md5 0xB0), (.md2, [0x8B, 0x9D], digestOf .md2 0xC0),
       (.sha512, [0x63, 0x8B, 0x9D], digestOf .sha512 0xE0)] }

def small : State := State.resetWith smallParams

/-- A buffer register loaded without any frame flag (section 7: each vector starts with FSTAT = 0). -/
def load (s : State) (r : BufReg) (v : Bits) : State := { s with bufs := s.bufs.set r.toNat (some v) r.isLt }

/-- A buffer register loaded with bytes. -/
def bytes (s : State) (r : BufReg) (b : List Byte) : State := load s r (toBits b)

/-- The next state of an outcome. -/
def next? (o : Host.Outcome State Fault Refusal) : Option State :=
  match o with
  | .next t => some t
  | .fault _ => none
  | .refused _ => none

/-- One step that runs the command word `w`. -/
def after (s : State) (w : Word) : Option State := next? (step (s.accepted w))

/-- What a step leaves in a buffer register. -/
def bufAfter (s : State) (w : Word) (r : BufReg) : Option (Option Bits) := (after s w).map fun t => t.buf r

/-- What a step leaves in a scalar register. -/
def scalarAfter (s : State) (w : Word) (r : ScalReg) : Option Word := (after s w).map fun t => t.scalar r

/-- What a step leaves in ERRINFO, ERR and FSTAT. -/
def errorAfter (s : State) (w : Word) : Option (Word × Bool × Word) :=
  (after s w).map fun t => (t.errInfo, t.stErr, t.fstatWord)

/-- The toy provider of 95_test_vectors.md section 0. -/
def toy (alg : HashAlg) (m : List Byte) : Option Byte :=
  some (hexChar false (((m.map BitVec.toNat).sum +
    (match alg with | .sha1 => 0 | .sha256 => 1 | .sha384 => 2 | .sha512 => 3 | .md2 => 4 | .md5 => 5)) % 16))

/-- The legal states, as a check. -/
def invCheck (s : State) : Bool :=
  s.params.legal && decide (∀ r : BufReg, ∀ v ∈ s.buf r, v.length ≤ s.params.maxlen) &&
    Memory.wf s.params.dmemBytes s.dmem && errInfoLegal s.errInfo && (!s.stErr || !s.busy) && (!s.resetPin || !s.busy) &&
    (!s.encReady || (s.buf encodedReg).isSome) && (!s.decReady || (s.buf decodedReg).isSome)

theorem inv_of_check {s : State} (h : invCheck s = true) : s.Inv := by
  simp only [invCheck, Bool.and_eq_true, decide_eq_true_eq] at h
  obtain ⟨⟨⟨⟨⟨⟨⟨h1, h2⟩, h3⟩, h4⟩, h5⟩, h6⟩, h7⟩, h8⟩ := h
  refine ⟨h1, fun r v hv => h2 r v hv, h3, h4, fun h => ?_, fun h => ?_, fun h => ?_, fun h => ?_⟩
  · simpa [h] using h5
  · simpa [h] using h6
  · simpa [h] using h7
  · simpa [h] using h8

/-! ### WellFormed: the one field-value constraint (R91) -/

theorem test_wellFormed_refuses_header_33 : Instr.wellFormed (.hdrx 4 0 33) = false := by decide
theorem test_wellFormed_refuses_header_63 : Instr.wellFormed (.hdrx 0 0 63) = false := by decide
theorem test_wellFormed_takes_header_32 : Instr.wellFormed (.hdrx 4 0 32) = true := by decide

/-! ### Decode: a word of every command, written out from the fields of its row (R81 to R88) -/

-- 000001 then 26 zeros
theorem test_decode_nop : decode 0b00000100000000000000000000000000 = .ok .nop := by decide
-- 000010 D=7 0000000 imm=FFFF (E16)
theorem test_decode_li : decode 0b00001011100000001111111111111111 = .ok (.li 7 0xFFFF) := by decide
-- 000011 D=2 0000000 imm=8000 (X4)
theorem test_decode_lih : decode 0b00001101000000001000000000000000 = .ok (.lih 2 0x8000) := by decide
-- 000100 D=3 A=1 (X5)
theorem test_decode_blen : decode 0b00010001100100000000000000000000 = .ok (.blen 3 1) := by decide
-- 000101 D=1 (X11)
theorem test_decode_bclr : decode 0b00010100100000000000000000000000 = .ok (.bclr 1) := by decide
-- 000110 D=2 A=4 (X9)
theorem test_decode_bmov : decode 0b00011001010000000000000000000000 = .ok (.bmov 2 4) := by decide
-- 000111 D=6
theorem test_decode_binv : decode 0b00011111000000000000000000000000 = .ok (.binv 6) := by decide
-- 001000 D=0 A=2 B=3 (P1)
theorem test_decode_ldb : decode 0b00100000001001100000000000000000 = .ok (.ldb 0 2 3) := by decide
-- 001001 D=0 A=2 B=5 (P2)
theorem test_decode_stb : decode 0b00100100001010100000000000000000 = .ok (.stb 2 5) := by decide
-- 001010 D=4 A=0 B=0 C=0 Z=0 M=32 (E5)
theorem test_decode_hdrx : decode 0b00101010000000000000000000100000 = .ok (.hdrx 4 0 32) := by decide
-- 010000 D=3 A=1 B=2 (K1)
theorem test_decode_ksb : decode 0b01000001100101000000000000000000 = .ok (.ksb 3 1 2) := by decide
-- 010001 D=4 A=0 B=1 (E11)
theorem test_decode_xor : decode 0b01000110000000100000000000000000 = .ok (.xor 4 0 1) := by decide
-- 010010 D=2 A=0 B=1 (K11)
theorem test_decode_xors : decode 0b01001001000000100000000000000000 = .ok (.xors 2 0 1) := by decide
-- 011000 D=5 A=4 B=2 (P3)
theorem test_decode_rotr : decode 0b01100010110001000000000000000000 = .ok (.rotr 5 4 2) := by decide
-- 011001 D=3 A=0 B=2 (E14)
theorem test_decode_drv : decode 0b01100101100001000000000000000000 = .ok (.drv 3 0 2) := by decide
-- 100000 and F, 100001 and F, 100010 and S, 100011 and S (F1 to F4, F22 to F27, E15)
theorem test_decode_fenc : decode 0b10000000000000000000000000000001 = .ok (.fenc true) := by decide
theorem test_decode_fdec : decode 0b10000100000000000000000000000000 = .ok (.fdec false) := by decide
theorem test_decode_penc : decode 0b10001000000000000000000000000001 = .ok (.penc true) := by decide
theorem test_decode_pdec : decode 0b10001100000000000000000000000001 = .ok (.pdec true) := by decide
-- 101000 D=6 A=5 B=3 C=6 (P3)
theorem test_decode_cut : decode 0b10100011010101111000000000000000 = .ok (.cut 6 5 3 6) := by decide
-- 101001 D=6 A=4 B=5 (E13)
theorem test_decode_mrg : decode 0b10100111010010100000000000000000 = .ok (.mrg 6 4 5) := by decide

/-- E2, E3, E4, E6 to E10: the illegal words. -/
theorem test_decode_illegal :
    decode 0x00000000 = .error .unassignedOpcode ∧ decode 0x04000001 = .error .reservedBits ∧
    decode 0x08010000 = .error .reservedBits ∧ decode 0x2A000021 = .error .headerTooLong ∧
    decode 0x80000002 = .error .reservedBits ∧ decode 0xFC000000 = .error .unassignedOpcode ∧
    decode 0x24800000 = .error .reservedBits ∧ decode 0x10008000 = .error .reservedBits := by decide

/-- The encoder on the words of 30_encoding.md rule R96 and of the programs. -/
theorem test_encode :
    encode (.xor 4 0 1) = 0x46020000 ∧ encode (.cut 5 4 0 1) = 0xA2C04000 ∧ encode (.hdrx 4 0 32) = 0x2A000020 ∧
    encode (.stb 2 4) = 0x24280000 ∧ encode (.pdec true) = 0x8C000001 ∧ encode (.lih 2 0x8000) = 0x0D008000 := by decide

/-! ### Control (section 3) -/

-- X1
theorem test_nop : after State.reset 0x04000000 = some { State.reset with stDone := true } := by decide
-- X3
theorem test_li_clears_the_upper_half : scalarAfter (small.writeScalar 7 0x12345678) 0x0B80FFFF 7 = some 0x0000FFFF := by
  decide
-- X4
theorem test_lih_keeps_the_lower_half : scalarAfter (small.writeScalar 2 0x00001234) 0x0D008000 2 = some 0x80001234 := by
  decide
-- X5
theorem test_blen : scalarAfter (bytes small 1 [0x4B, 0x45, 0x59, 0x21]) 0x11900000 3 = some 32 := by decide
-- X6
theorem test_blen_absent : (after small 0x11D00000).map (fun t => (t.errInfo, t.errCmd, t.scalar 3)) =
    some (0x6, 0x11D00000, 0) := by decide
-- X7
theorem test_bclr : (after small 0x14000000).map (fun t => (t.buf 0, t.bvalidWord, t.fstatWord)) =
    some (some [], 0x1, 0x2) := by decide
-- X8
theorem test_binv : (after (small.writeBuf 0 (some [])) 0x1C000000).map (fun t => (t.buf 0, t.fstatWord)) =
    some (none, 0x0) := by decide
-- X9
theorem test_bmov : (after { bytes (bytes small 0 [0x00]) 4 [0x8B, 0x9D] with decReady := true } 0x19400000).map
    (fun t => (t.buf 2, t.fstatWord)) = some (some (toBits [0x8B, 0x9D]), 0x1) := by decide

/-! ### BitCodec (section 4) -/

-- C1
theorem test_ldb : bufAfter ((small.writeBytes 0 [0x4B, 0x45, 0x59, 0x21]).writeScalar 1 4) 0x20820000 1 =
    some (some (toBits [0x4B, 0x45, 0x59, 0x21])) := by decide
-- C4
theorem test_ldb_does_not_wrap : errorAfter ((small.writeScalar 0 0xFFFFFFFF).writeScalar 1 2) 0x20820000 =
    some (0x8, true, 0) := by decide
-- C6, at address 14, the last that fits
theorem test_stb : (after ((bytes small 2 [0x03, 0x0C]).writeScalar 2 14) 0x24240000).map
    (fun t => (t.readByte 14, t.readByte 15, t.stErr)) = some (0x03, 0x0C, false) := by decide
-- C8
theorem test_stb_out_of_range : (after ((bytes small 2 [0x03, 0x0C]).writeScalar 2 15) 0x24240000).map
    (fun t => (t.errInfo, t.dmem)) = some (0x8, []) := by decide
-- C12
theorem test_hdrx : bufAfter (bytes small 0 [0, 0, 0, 4, 0x7A, 0x7A, 0x48, 0x49]) 0x2A000020 4 =
    some (some (toBits [0x7A, 0x7A, 0x48, 0x49])) := by decide
-- C10
theorem test_hdrx_too_long : errorAfter (bytes small 0 [0, 0, 0, 5, 0x7A, 0x7A, 0x48, 0x49]) 0x2A000020 =
    some (0x3, true, 0) := by decide

/-! ### Keystream and cipher (section 5) -/

-- K4
theorem test_ksb_wraps : scalarAfter ((bytes small 1 [0xA5]).writeScalar 2 13) 0x41940000 3 = some 1 := by decide
-- K6
theorem test_ksb_largest_index : scalarAfter ((bytes small 1 [0x4B, 0x45, 0x59, 0x21]).writeScalar 2 0xFFFFFFFF) 0x41940000 3 =
    some 1 := by decide
-- K7
theorem test_xor : (after (bytes (bytes small 0 [0x48, 0x49]) 1 [0x4B, 0x45, 0x59, 0x21]) 0x45020000).map
    (fun t => (t.buf 2, t.fstatWord)) = some (some (toBits [0x03, 0x0C]), 0x5) := by decide
-- K8
theorem test_xor_cycles_the_key : bufAfter (bytes (bytes small 0 [0, 0, 0]) 1 [0xA5]) 0x45020000 2 =
    some (some (toBits [0xA5, 0xA5, 0xA5])) := by decide
-- K12
theorem test_xors : bufAfter (bytes (bytes small 0 [0x48, 0x49]) 1 [0x4B, 0x45]) 0x49020000 2 =
    some (some (toBits [0x03, 0x0C])) := by decide
-- K11
theorem test_xors_mismatch : errorAfter (bytes (bytes small 0 [0x48, 0x49]) 1 [0x4B, 0x45, 0x59, 0x21]) 0x49020000 =
    some (0x2, true, 0x4) := by decide

/-! ### Hash chain (section 6) -/

-- H3
theorem test_rotr : bufAfter ((bytes small 4 [0x41, 0x42, 0x43, 0x44, 0x45, 0x46]).writeScalar 2 2) 0x62440000 4 =
    some (some (toBits [0x45, 0x46, 0x41, 0x42, 0x43, 0x44])) := by decide
-- H6 and H7
theorem test_rotateRight_clamps :
    rotateRight [0x41, 0x42, 0x43, 0x44, 0x45, 0x46] 0x7FFFFFFF = [0x46, 0x41, 0x42, 0x43, 0x44, 0x45] ∧
    rotateRight [0x41, 0x42, 0x43, 0x44, 0x45, 0x46] 0x80000000 = [0x41, 0x42, 0x43, 0x44, 0x45, 0x46] := by decide
-- H10, H12, H16, H18
theorem test_derive :
    derive toy [] 0 = some [] ∧ derive toy [] 4 = some [0x30, 0x34, 0x38, 0x63] ∧
    derive toy [0x48, 0x49] 6 = some [0x61, 0x62, 0x33, 0x65, 0x36, 0x35] ∧
    derive toy [0x8B, 0x9D] 6 = some [0x36, 0x63, 0x63, 0x65, 0x33, 0x63] := by decide
-- H20
theorem test_drv : bufAfter ((bytes small 0 [0x48, 0x49]).writeScalar 2 2) 0x65840000 3 =
    some (some (toBits [0x62, 0x35])) := by decide
-- H22: a request is made even for no bytes
theorem test_drv_unavailable :
    errorAfter { (bytes small 0 [0x48, 0x49]) with params := { smallParams with unavailable := [.md2] } } 0x65840000 =
      some (0x4, true, 0) := by decide

/-! ### Secure frames (section 7): K1 = 00000000 A1B2C3D4, FIL = 7A 7A -/

/-- B0 = "HI", a key, and the filler 7A 7A. -/
def frame (key : List Byte) : State := bytes (bytes (bytes small 0 [0x48, 0x49]) 1 key) 3 [0x7A, 0x7A]

-- F1
theorem test_fenc_supplied : (after (frame [0, 0, 0, 0, 0xA1, 0xB2, 0xC3, 0xD4]) 0x80000001).map
    (fun t => (t.buf 2, t.fstatWord)) = some (some (toBits [0x8B, 0x9D]), 0x5) := by decide
-- F6: the tail may hold filler bits
theorem test_fenc_tail_with_filler : bufAfter (frame [0, 0, 0, 6, 0xA1, 0xB2, 0xC3, 0xD4]) 0x80000001 2 =
    some (some (toBits [0xDB, 0xC8, 0x8B, 0x9D])) := by decide
-- F2
theorem test_fdec_supplied :
    (after (bytes (bytes (bytes small 2 [0x8B, 0x9D]) 1 [0, 0, 0, 0, 0xA1, 0xB2, 0xC3, 0xD4]) 3 [0x7A, 0x7A]) 0x84000001).map
      (fun t => (t.buf 0, t.fstatWord)) =
    some (some (toBits [0, 0, 0, 2, 0xDB, 0xC8, 0x48, 0x49]), 0x6) := by decide
-- F4: the derived filler
theorem test_fdec_derived :
    bufAfter (bytes (bytes small 2 [0x8B, 0x9D]) 1 [0, 0, 0, 0, 0xA1, 0xB2, 0xC3, 0xD4]) 0x84000000 0 =
      some (some (toBits [0, 0, 0, 2, 0xC2, 0xD7, 0x48, 0x49])) := by decide
-- F31: a failed FENC clears ENC_READY and keeps B2
theorem test_fenc_error_clears_the_flag :
    (after { bytes (frame [0x4B, 0x45, 0x59, 0x21, 0x58, 0x59, 0x5A, 0x57]) 2 [0x8B, 0x9D] with encReady := true } 0x80000001).map
      (fun t => (t.errInfo, t.encReady, t.buf 2)) = some (0x35, false, some (toBits [0x8B, 0x9D])) := by decide
-- F23
theorem test_penc : (after (bytes (bytes small 0 [0x48, 0x49]) 1 [0x4B, 0x45, 0x59, 0x21]) 0x88000000).map
    (fun t => (t.buf 2, t.fstatWord)) = some (some (toBits [0x03, 0x0C]), 0x5) := by decide
-- F22
theorem test_penc_strict : errorAfter (bytes (bytes small 0 [0x48, 0x49]) 1 [0x4B, 0x45, 0x59, 0x21]) 0x88000001 =
    some (0x25, true, 0x4) := by decide
-- F27
theorem test_pdec : (after (bytes (bytes small 2 [0x03, 0x0C]) 1 [0x4B, 0x45, 0x59, 0x21]) 0x8C000000).map
    (fun t => (t.buf 0, t.fstatWord)) = some (some (toBits [0x48, 0x49]), 0x6) := by decide

/-! ### Bit buffers (section 8) -/

-- B1
theorem test_cut : bufAfter (((bytes small 4 [0x41, 0x42, 0x43, 0x44]).writeScalar 0 4).writeScalar 1 12) 0xA2C04000 5 =
    some (some (toBits [0x14])) := by decide
-- B3
theorem test_cut_reversed : errorAfter (((bytes small 4 [0x41, 0x42, 0x43, 0x44]).writeScalar 0 24).writeScalar 1 8) 0xA2C04000 =
    some (0x3, true, 0) := by decide
-- B9
theorem test_mrg : bufAfter (load (load small 4 [true, false, true]) 5 [true]) 0xA74A0000 6 =
    some (some [true, false, true, true]) := by decide
-- B10
theorem test_mrg_capacity : errorAfter (bytes small 4 [1, 2, 3, 4, 5]) 0xA7480000 = some (0x9, true, 0) := by decide

/-! ### Errors, interrupts and the handshake (section 9) -/

-- V2, V3
theorem test_halt_and_acknowledge :
    (small.raiseError 0x45020000 .emptyKey .none).access (.write 0x00C .w32 0x04000000) =
      { small with errInfo := 0x1, errCmd := 0x45020000, stErr := true, stOvr := true } ∧
    ({ small with errInfo := 0x1, stErr := true, stOvr := true } : State).access (.write 0x008 .w32 0xC) =
      { small with errInfo := 0x1 } := by decide
-- V5
theorem test_irq : ({ small with ieErr := true, stErr := true } : State).irq = true ∧
    ({ small with ieDone := true, stErr := true } : State).irq = false := by decide
-- V9
theorem test_soft_reset :
    ({ small with dmem := [(3, 7)], stErr := true, ieDone := true } : State).access (.write 0x004 .w32 0x80000007) =
      { small with dmem := [(3, 7)] } := by decide
-- V10
theorem test_completion_wins :
    next? (({ small.accepted 0x04000000 with stDone := true } : State).completeWith (.write 0x008 .w32 0x2)) =
      some { small with stDone := true } := by decide
-- V11
theorem test_id_after_hardware_reset : State.reset.hostRead 0x000 .w32 = some 0x494B0001 := by decide

/-! ### The host's questions -/

theorem test_decodeTableWord : decodeTableWord 32 0x2A000020 = some (.hdrx 4 0 32) ∧ decodeTableWord 32 0x04000001 = none := by
  decide
theorem test_withFetchWord : next? (step (State.reset.withFetchWord 32 0x08800004)) =
    some ({ State.reset with stDone := true }.writeScalar 1 4) := by decide

/-! ### Witnesses: for each statement with hypotheses, states and operands that meet them, one line a clause, at the
clauses' boundaries -/

-- DecodeOfEncodeIsTheCommand: the largest header; LegalWordIsTheWordOfItsCommand; StepRunsTheDecodedCommand
theorem witness_DecodeOfEncode : (Instr.hdrx 7 7 32).wellFormed = true := by decide
theorem witness_LegalWord : decode 0xA2C04000 = .ok (.cut 5 4 0 1) := by decide
theorem witness_DecodeFollowsTheOpcodeMap :
    (0x2A000020 : Word) &&& 0xFC0FFFC0 = 0x28000000 ∧ ¬32 < ((0x2A000020 : Word) &&& 0x3F).toNat ∧
    (0x2A000021 : Word) &&& 0xFC0FFFC0 = 0x28000000 ∧ 32 < ((0x2A000021 : Word) &&& 0x3F).toNat ∧
    ⟨"HDRX", 0x28000000, 0xFC0FFFC0⟩ ∈ opcodeTable := by decide
theorem witness_IllegalWord :
    (small.accepted 0x04000001).inputs = [] ∧ (small.accepted 0x04000001).engine = .executing 0x04000001 [] ∧
    decode 0x04000001 = .error .reservedBits := by decide
theorem witness_StepRuns :
    (small.accepted 0x04000000).engine = .executing 0x04000000 [] ∧ decode 0x04000000 = .ok .nop ∧
    (small.accepted 0x04000000).inputs = [] ∧
    ({ small.accepted 0x04000000 with inputs := [.complete, .providerAnswer] } : State).inputs =
      .complete :: [.providerAnswer] := by decide

-- BlenGivesTheLength: absent, empty, and as long as MAXLEN; BmovCopies
theorem witness_Blen : small.Inv ∧ small.buf 5 = none ∧ (load (load small 4 []) 5 (List.replicate 64 true)).Inv ∧
    (load (load small 4 []) 5 (List.replicate 64 true)).buf 4 = some [] ∧
    (load (load small 4 []) 5 (List.replicate 64 true)).buf 5 = some (List.replicate 64 true) :=
  ⟨inv_of_check (by decide), by decide, inv_of_check (by decide), by decide, by decide⟩
theorem witness_Bmov : small.buf 4 = none ∧ (load small 4 [true]).buf 4 = some [true] := by decide

-- LdbLoadsBytesMsbFirst: one byte past the end; 9 bytes over MAXLEN; 8 bytes that end at the end
theorem witness_Ldb : small.params.dmemBytes < 16 + 1 ∧ (0 + 9 ≤ small.params.dmemBytes ∧ small.params.maxlen < 8 * 9) ∧
    (8 + 8 ≤ small.params.dmemBytes ∧ 8 * 8 ≤ small.params.maxlen) ∧
    (((small.writeScalar 0 8).writeScalar 1 8).scalar 0).toNat = 8 ∧
    (((small.writeScalar 0 8).writeScalar 1 8).scalar 1).toNat = 8 := by decide
-- StbStoresItsBytesOnly: absent; 3 bits; the byte past the end; up to the end
theorem witness_Stb : small.buf 2 = none ∧ (load small 2 [true, false, true]).buf 2 = some [true, false, true] ∧
    3 % 8 ≠ 0 ∧ (bytes small 2 [3, 12]).buf 2 = some (toBits [3, 12]) ∧ (toBits [3, 12]).length % 8 = 0 ∧
    small.params.dmemBytes < 15 + (toBits [3, 12]).length / 8 ∧ 14 + (toBits [3, 12]).length / 8 ≤ small.params.dmemBytes ∧
    (((bytes small 2 [3, 12]).writeScalar 2 14).scalar 2).toNat = 14 := by decide
-- HdrxStripsHeaderAndFiller: absent; a header longer than the bits; 8 bits too few; exactly enough
theorem witness_Hdrx : small.buf 0 = none ∧ (bytes small 0 [1]).buf 0 = some (toBits [1]) ∧
    (toBits [1]).length < (9 : BitVec 6).toNat ∧ (8 : BitVec 6).toNat ≤ (toBits [1]).length ∧
    (toBits [1]).length - (8 : BitVec 6).toNat < 8 * uint ((toBits [1]).take 8) ∧
    (bytes small 0 [1, 0x41]).buf 0 = some (toBits [1, 0x41]) ∧ (8 : BitVec 6).toNat ≤ (toBits [1, 0x41]).length ∧
    8 * uint ((toBits [1, 0x41]).take 8) ≤ (toBits [1, 0x41]).length - (8 : BitVec 6).toNat := by decide
theorem witness_Be32 : 2 ^ 32 - 1 < 2 ^ 32 ∧ 31 < 32 := by decide
theorem witness_StoreThenLoad :
    (((bytes small 2 [3, 12]).writeScalar 2 14).writeScalar 3 2).buf 2 = some (toBits [3, 12]) ∧
    (toBits [3, 12]).length % 8 = 0 ∧ (toBits [3, 12]).length ≤ small.params.maxlen ∧
    ((((bytes small 2 [3, 12]).writeScalar 2 14).writeScalar 3 2).scalar 3).toNat = (toBits [3, 12]).length / 8 ∧
    ((((bytes small 2 [3, 12]).writeScalar 2 14).writeScalar 3 2).scalar 2).toNat + (toBits [3, 12]).length / 8 ≤
      small.params.dmemBytes := by decide

-- Keys: absent, empty, one bit; payload absent and empty; lengths unequal and equal; two destinations
theorem witness_Ksb : small.buf 1 = none ∧ (load small 1 []).buf 1 = some [] ∧ (load small 1 [true]).buf 1 = some [true] ∧
    [true] ≠ [] := by decide
theorem witness_Xor : small.buf 0 = none ∧ (load small 0 []).buf 0 = some [] ∧ (load small 0 []).buf 1 = none ∧
    (load (load small 0 []) 1 []).buf 1 = some [] ∧
    (load (load small 0 [true, false]) 1 [true]).buf 0 = some [true, false] ∧
    (load (load small 0 [true, false]) 1 [true]).buf 1 = some [true] := by decide
theorem witness_Xors :
    (load (load small 0 [true, false]) 1 [true]).buf 1 = some [true] ∧ [true].length ≠ [true, false].length ∧
    (load (load small 0 [false]) 1 [true]).buf 1 = some [true] ∧ [true].length = [false].length ∧ [true] ≠ [] := by decide
theorem witness_XorTwice :
    (load (load small 0 [true, false]) 1 [true]).buf 0 = some [true, false] ∧
    (load (load small 0 [true, false]) 1 [true]).buf 1 = some [true] ∧ [true] ≠ [] ∧ (2 : BufReg) ≠ 1 := by decide

-- RotrRotatesWholeBytes: absent; 12 bits; the last amount that rotates and the first that does not
theorem witness_Rotr : small.buf 4 = none ∧
    (load small 4 (List.replicate 12 true)).buf 4 = some (List.replicate 12 true) ∧
    (List.replicate 12 true).length % 8 ≠ 0 ∧ (bytes small 4 [65, 66]).buf 4 = some (toBits [65, 66]) ∧
    (toBits [65, 66]).length % 8 = 0 ∧ ((small.writeScalar 2 0x7FFFFFFF).scalar 2).toNat ≤ 2 ^ 31 - 1 ∧
    2 ^ 31 - 1 < ((small.writeScalar 2 0x80000000).scalar 2).toNat := by decide
theorem witness_HashFirst : smallParams.unavailable.contains .md2 = false ∧
    ({ smallParams with unavailable := [.md2] } : Params).unavailable.contains .md2 = true := by decide
theorem witness_DerivedBytes : derive smallParams.hashFirst [0x48, 0x49] 2 = some [0x62, 0x35] := by decide
-- DrvDerivesFromItsSeed: absent; 12 bits; 9 bytes over MAXLEN; unavailable; derived
theorem witness_Drv : small.buf 0 = none ∧ (toBits [0x48, 0x49]).length % 8 = 0 ∧ small.params.maxlen < 8 * 9 ∧
    8 * 2 ≤ small.params.maxlen ∧ small.derivationFresh ∧ (bytes small 0 [0x48, 0x49]).buf 0 = some (toBits [0x48, 0x49]) ∧
    derive ({ smallParams with unavailable := [.md2] } : Params).hashFirst (bytesOf (toBits [0x48, 0x49])) 2 = none ∧
    derive small.params.hashFirst (bytesOf (toBits [0x48, 0x49])) 2 = some [0x62, 0x35] :=
  ⟨by decide, by decide, by decide, by decide, ⟨rfl, rfl⟩, by decide, by decide, by decide⟩

/-- A DRV of two bytes from "HI", accepted. -/
def drvRunning (acc : List Byte) : State :=
  { (bytes small 0 [0x48, 0x49]).writeScalar 2 2 with engine := .executing 0x65840000 acc }

/-- The provider of the tests answers, with every algorithm available. -/
theorem answersAll {s : State} (hl : s.providerLive = true) (hu : s.params.unavailable = []) : s.providerAnswersAll :=
  ⟨hl, fun alg m => by simp [Params.hashFirst, Params.digest, hu]⟩

-- ProviderRequestsAreCounted: DRV of 0, 1 and 2 bytes, its checks failing (absent, 3 bits, 9 bytes over MAXLEN)
theorem witness_ProviderRequests :
    decode 0x65840000 = .ok (.drv 3 0 2) ∧ (drvRunning []).engine = .executing 0x65840000 [] ∧
    (drvRunning []).buf 0 = some (toBits [0x48, 0x49]) ∧ (toBits [0x48, 0x49]).length % 8 = 0 ∧
    (((drvRunning []).writeScalar 2 0).scalar 2).toNat = 0 ∧ (((drvRunning []).writeScalar 2 1).scalar 2).toNat = 1 ∧
    ((drvRunning []).scalar 2).toNat = 2 ∧ 8 * 2 ≤ (drvRunning []).params.maxlen ∧
    (small.accepted 0x65840000).buf 0 = none ∧ [true, false, true].length % 8 ≠ 0 ∧
    (drvRunning []).params.maxlen < 8 * 9 ∧ (drvRunning []).providerAnswersAll :=
  ⟨by decide, by decide, by decide, by decide, by decide, by decide, by decide, by decide, by decide, by decide, by decide,
    answersAll rfl rfl⟩
-- the frames with F = 0: a filler of 0, 1 and 2 bytes; no frame; and commands that derive nothing
theorem witness_ProviderRequests_frames :
    decode 0x80000000 = .ok (.fenc false) ∧ decode 0x84000000 = .ok (.fdec false) ∧
    decode 0x80000001 = .ok (.fenc true) ∧ decode 0x04000000 = .ok .nop ∧
    fillerBytes (toBits [0x48, 0x49]) (toBits [0, 0, 0, 0, 0, 0]) = 0 ∧
    fillerBytes (toBits [0x48, 0x49]) (toBits [0, 0, 0, 0, 0, 0, 0]) = 1 ∧
    fillerBytes (toBits [0x48, 0x49]) (toBits [0, 0, 0, 0, 0, 0, 0, 0]) = 2 ∧
    FrameReady (bytes (bytes (small.accepted 0x80000000) 0 [0x48, 0x49]) 1 [0, 0, 0, 0, 0, 0]) 0 (toBits [0x48, 0x49])
      (toBits [0, 0, 0, 0, 0, 0]) ∧
    FrameReady (bytes (bytes (small.accepted 0x84000000) 2 [0x48, 0x49]) 1 [0, 0, 0, 0, 0, 0, 0]) 2 (toBits [0x48, 0x49])
      (toBits [0, 0, 0, 0, 0, 0, 0]) := by
  unfold FrameReady
  decide
theorem witness_ProviderRequests_noFrame : ∀ p k, ¬FrameReady (small.accepted 0x80000000) 0 p k := fun _ _ h =>
  absurd h.1 (by simp [State.buf, State.accepted, small, State.resetWith])
theorem witness_Unavailable :
    ({ drvRunning [] with params := { smallParams with unavailable := [.md2] } } : State).request =
      some (.drv 3 0 2, .md2, [0x48, 0x49]) ∧ ([.md2] : List HashAlg).contains .md2 = true ∧
    ({ drvRunning [] with params := { smallParams with unavailable := [.md2] } } : State).providerLive = true := by decide
theorem honest_of {s : State} {w : Word} {acc seed : List Byte} {i : Instr} {n : Nat} (he : s.engine = .executing w acc)
    (hd : decode w = .ok i) (ho : derivationOf i s = some (seed, n)) (hl : acc.length ≤ deriveRequests n)
    (hp : derivePasses s.params.hashFirst seed acc.length [] = some acc) : s.AccHonest := by
  unfold State.AccHonest
  rw [he]
  exact Or.inr ⟨i, seed, n, hd, ho, hl, hp⟩

-- EarlierAnswersDoNotChangeTheResult: an accumulator after one answer, honest; and a step from it
theorem witness_Honest_engine : (drvRunning [0x35]).engine = .executing 0x65840000 [0x35] := by decide
theorem witness_Honest_decode : decode 0x65840000 = .ok (.drv 3 0 2) := by decide
theorem witness_Honest_derivation : derivationOf (.drv 3 0 2) (drvRunning [0x35]) = some ([0x48, 0x49], 2) := by decide
theorem witness_Honest_passes :
    derivePasses (drvRunning [0x35]).params.hashFirst [0x48, 0x49] [(0x35 : Byte)].length [] = some [0x35] := by decide
theorem witness_Honest : (drvRunning [0x35]).AccHonest :=
  honest_of witness_Honest_engine witness_Honest_decode witness_Honest_derivation (by decide) witness_Honest_passes
theorem witness_Honest_step :
    (drvRunning [0x35]).providerLive = true ∧ (next? (step (drvRunning [0x35]))).isSome = true := by decide

/-! Frames: K1 = 00000000 A1B2C3D4 -/

def k1 : Bits := toBits [0, 0, 0, 0, 0xA1, 0xB2, 0xC3, 0xD4]
def hi : Bits := toBits [0x48, 0x49]

-- FrameChecksRaiseInOrder: absent payload or key; empty key; 3 bits; one byte of key too few
theorem witness_FrameChecks : small.buf 0 = none ∧ (load small 0 hi).buf 1 = none ∧
    (load (load small 0 hi) 1 []).buf 1 = some [] ∧ [true, false, true].length % 8 ≠ 0 ∧ k1 ≠ [] ∧ hi.length % 8 = 0 ∧
    (toBits [0, 0, 0, 0, 0]).length % 8 = 0 ∧ (toBits [0, 0, 0, 0, 0]).length / 8 < hi.length / 8 + 4 := by decide
theorem witness_FrameReady :
    FrameReady (load (load small 0 hi) 1 k1) 0 hi k1 ∧ FrameReady (load (load small 2 hi) 1 k1) 2 hi k1 ∧
    FrameReady (load (load small 0 hi) 1 (k1.take 48)) 0 hi (k1.take 48) ∧ fillerBytes hi (k1.take 48) = 0 := by
  unfold FrameReady
  decide
-- FillerErrors: absent; 8 bits for 16; unavailable
theorem witness_FillerErrors : (load (load small 0 hi) 1 k1).buf 3 = none ∧
    (load (load (load small 0 hi) 1 k1) 3 (toBits [0x7A])).buf 3 = some (toBits [0x7A]) ∧
    (toBits [0x7A]).length ≠ 8 * fillerBytes hi k1 ∧ (load (load small 0 hi) 1 k1).derivationFresh ∧
    derive ({ smallParams with unavailable := [.md5] } : Params).hashFirst (bytesOf hi) (fillerBytes hi k1) = none :=
  ⟨by decide, by decide, by decide, ⟨rfl, rfl⟩, by decide⟩
-- FENC, FDEC and the round trip: a supplied and a derived filler, a zero key prefix
theorem witness_FillerIs :
    FillerIs (load (load (load small 0 hi) 1 k1) 3 (toBits [0x7A, 0x7A])) true hi k1 (toBits [0x7A, 0x7A]) ∧
    FillerIs (load (load small 0 hi) 1 k1) false hi k1 (toBits [0x62, 0x35]) ∧ (∀ i < 32, k1.getD i false = false) :=
  ⟨⟨by decide, by decide⟩, ⟨⟨rfl, rfl⟩, [0x62, 0x35], by decide, by decide⟩, by decide⟩
-- FencKeepsTheTailItsHeaderNames: the largest header that fits (F7) and the next
theorem witness_FencHeader :
    (xorWith (be32 2 ++ toBits [0x7A, 0x7A] ++ hi) (toBits [0, 0, 0, 0x0A, 0xA1, 0xB2, 0xC3, 0xD4])).take 32 = be32 8 ∧
    (xorWith (be32 2 ++ toBits [0x7A, 0x7A] ++ hi) (toBits [0, 0, 0, 0x0B, 0xA1, 0xB2, 0xC3, 0xD4])).take 32 = be32 9 ∧
    uint (be32 8) = 8 ∧ uint (be32 9) = 9 ∧ 8 * 8 ≤ 64 ∧ 64 < 8 * 9 := by decide
-- PlainFramesXorWithTheKey and PlainRoundTrip
theorem witness_Plain : small.buf 0 = none ∧ small.buf 2 = none ∧ (load small 0 hi).buf 1 = none ∧
    (load (load small 0 hi) 1 []).buf 1 = some [] ∧ (load (load small 0 hi) 1 k1).buf 0 = some hi ∧
    (load (load small 0 hi) 1 k1).buf 1 = some k1 ∧ k1 ≠ [] ∧ k1.length ≠ hi.length ∧
    (load (load small 2 hi) 1 hi).buf 2 = some hi ∧ hi.length = hi.length ∧ hi ≠ [] := by decide
-- PlainRoundTrip: a key of the payload's length, and a state with another B0 that keeps B1 and B2
theorem witness_PlainRoundTrip : (load (load small 0 hi) 1 hi).buf 0 = some hi ∧ (load (load small 0 hi) 1 hi).buf 1 = some hi ∧
    hi ≠ [] ∧ hi.length = hi.length ∧ (load (load (load small 0 hi) 1 k1) 0 []).buf 0 ≠ (load (load small 0 hi) 1 k1).buf 0 ∧
    (load (load (load small 0 hi) 1 k1) 0 []).buf 1 = (load (load small 0 hi) 1 k1).buf 1 ∧
    (load (load (load small 0 hi) 1 k1) 0 []).buf 2 = (load (load small 0 hi) 1 k1).buf 2 := by decide
-- CoincidentEventsEndFirst, any other access: a write that is none of STATUS
theorem witness_Coincident_other : ∀ x, HostAccess.write 0x040 .w32 7 ≠ .write 0x008 .w32 x := fun _ h => by
  injection h
  contradiction


-- CutSlices: absent; past the end by one; reversed; up to the end; empty at the end
theorem witness_Cut : small.buf 4 = none ∧ (bytes small 4 [65]).buf 4 = some (toBits [65]) ∧
    ¬(0 ≤ 9 ∧ 9 ≤ (toBits [65]).length) ∧ ¬(5 ≤ 4 ∧ 4 ≤ (toBits [65]).length) ∧ (0 ≤ 8 ∧ 8 ≤ (toBits [65]).length) ∧
    (8 ≤ 8 ∧ 8 ≤ (toBits [65]).length) ∧ ((small.writeScalar 1 8).scalar 1).toNat = 8 := by decide
-- MrgConcatenates: absent; one bit over MAXLEN; exactly MAXLEN
theorem witness_Mrg : small.buf 4 = none ∧
    (load (load small 4 (List.replicate 40 true)) 5 (List.replicate 25 true)).buf 5 = some (List.replicate 25 true) ∧
    small.params.maxlen < (List.replicate 40 true).length + (List.replicate 25 true).length ∧
    (List.replicate 40 true).length + (List.replicate 24 true).length ≤ small.params.maxlen := by decide
theorem witness_CutThenMerge : (((bytes small 4 [65]).writeScalar 1 3).writeScalar 2 8).Inv ∧
    (((bytes small 4 [65]).writeScalar 1 3).writeScalar 2 8).buf 4 = some (toBits [65]) ∧
    ((((bytes small 4 [65]).writeScalar 1 3).writeScalar 2 8).scalar 0).toNat = 0 ∧
    ((((bytes small 4 [65]).writeScalar 1 3).writeScalar 2 8).scalar 1).toNat ≤ (toBits [65]).length ∧
    ((((bytes small 4 [65]).writeScalar 1 3).writeScalar 2 8).scalar 2).toNat = (toBits [65]).length ∧
    (5 : BufReg) ≠ 4 ∧ (5 : BufReg) ≠ 6 :=
  ⟨inv_of_check (by decide), by decide, by decide, by decide, by decide, by decide, by decide⟩

-- CoincidentEventsEndFirst: a command that completes and one that raises; a dropped access
theorem witness_Coincident :
    (small.accepted 0x04000000).Inv ∧ (small.accepted 0x04000000).engine = .executing 0x04000000 [] ∧
    (next? (engineStep (small.accepted 0x04000000))).map (fun t => (t.engine, t.stErr)) = some (.idle, false) ∧
    (small.accepted 0x45020000).Inv ∧
    (next? (engineStep (small.accepted 0x45020000))).map (fun t => (t.engine, t.stErr)) = some (.idle, true) ∧
    (0x80000000 : Word).getLsbD 31 = true ∧ (small.accepted 0x04000000).resetPin = false ∧
    (small.accepted 0x04000000).drops (.write 0x10000 .w8 1) = true :=
  ⟨inv_of_check (by decide), rfl, by decide, inv_of_check (by decide), by decide, by decide, rfl, by decide⟩
-- EveryStepKeepsTheInvariant, EveryStepKeepsTheAccumulatorHonest
theorem witness_Invariant : small.Inv ∧ small.AccHonest ∧ next? (step small) = some small ∧
    ({ small with inputs := [.access (.write 0x00C .w32 0x04000000)] } : State).Inv ∧
    next? (step { small with inputs := [.access (.write 0x00C .w32 0x04000000)] }) = some (small.accepted 0x04000000) :=
  ⟨inv_of_check (by decide), trivial, by decide, inv_of_check (by decide), by decide⟩

-- The host: not in reset; idle, busy, halted; the boundary offsets
theorem witness_Host : small.resetPin = false ∧ small.busy = false ∧ small.stErr = false ∧
    (small.accepted 0).resetPin = false ∧ (small.accepted 0).busy = true ∧
    ({ small with stErr := true } : State).stErr = true ∧ ({ small with stErr := true } : State).resetPin = false ∧
    (0x00000007 : Word).getLsbD 31 = false ∧ (0x80000000 : Word).getLsbD 31 = true := by decide
theorem witness_ReadsWhenIdle : small.Inv ∧ small.resetPin = false ∧ small.busy = false :=
  ⟨inv_of_check (by decide), rfl, rfl⟩
-- DmemWindowWhenIdle, WritesWhileBusy, ReadsWhileBusy: the first and last byte, and the first above; all are busy-tested
theorem witness_DmemWindow : (0x10000 ≤ (0x10000 : HostOffset).toNat ∧ (0x10000 : HostOffset).toNat < 0x10000 + 16) ∧
    (0x10000 ≤ (0x1000F : HostOffset).toNat ∧ (0x1000F : HostOffset).toNat < 0x10000 + 16) ∧
    0x10000 + 16 ≤ (0x10010 : HostOffset).toNat ∧ 0x10000 + 16 ≤ (0x1FFFF : HostOffset).toNat ∧
    small.params.dmemBytes = 16 := by decide
-- ReservedOffsetsReadZero: the first and last offset of each range
theorem witness_ReservedOffsets :
    ((0x024 : HostOffset).toNat % 4 = 0 ∧ 0x024 ≤ (0x024 : HostOffset).toNat) ∧
    ((0x03C : HostOffset).toNat % 4 = 0 ∧ (0x03C : HostOffset).toNat < 0x040) ∧
    ((0x084 : HostOffset).toNat % 4 = 0 ∧ 0x084 ≤ (0x084 : HostOffset).toNat) ∧
    ((0xFFFC : HostOffset).toNat % 4 = 0 ∧ (0xFFFC : HostOffset).toNat < 0x10000) := by decide
-- WritesWhileBusy, its read-only registers: the first and last offset of each range
theorem witness_ReadOnly : ((0x010 : HostOffset).toNat % 4 = 0 ∧ 0x010 ≤ (0x010 : HostOffset).toNat) ∧
    ((0x03C : HostOffset).toNat % 4 = 0 ∧ (0x03C : HostOffset).toNat < 0x040) ∧
    ((0x060 : HostOffset).toNat % 4 = 0 ∧ 0x060 ≤ (0x060 : HostOffset).toNat) ∧
    ((0xFFFC : HostOffset).toNat % 4 = 0 ∧ (0xFFFC : HostOffset).toNat < 0x10000) := by decide
-- ReadsWhileBusy: the first offset it reads as when idle and the last; a specified and an unspecified read
theorem witness_ReadsWhileBusy : ((0x000 : HostOffset).toNat % 4 = 0 ∧ (0x000 : HostOffset) ≠ 0x008) ∧
    ((0xFFFC : HostOffset).toNat % 4 = 0 ∧ ¬(0x040 ≤ (0xFFFC : HostOffset).toNat ∧ (0xFFFC : HostOffset).toNat < 0x080)) ∧
    (small.accepted 0).hostRead 0x000 .w32 = some 0x494B0001 ∧ (small.accepted 0).hostRead 0x040 .w32 = none ∧
    (small.accepted 0).hostRead 0x008 .w32 = some 0x1 := by decide
-- UnsupportedAccesses: a width and an alignment of the register window, a width of the DMEM window
theorem witness_Unsupported : ((0x000 : HostOffset).toNat < 0x10000 ∧ AccessWidth.w8 ≠ .w32) ∧
    ((0xFFFD : HostOffset).toNat < 0x10000 ∧ (0xFFFD : HostOffset).toNat % 4 ≠ 0) ∧
    (0x10000 ≤ (0x10000 : HostOffset).toNat ∧ AccessWidth.w32 ≠ .w8) := by decide
-- SoftResetKeepsDataMemory, its abandoned STB: the last byte of the store
theorem witness_SoftReset :
    ((bytes (small.accepted 0x24240000) 2 [3, 12]).writeScalar 2 14).engine = .executing 0x24240000 [] ∧
    decode 0x24240000 = .ok (.stb 2 2) ∧
    ((bytes (small.accepted 0x24240000) 2 [3, 12]).writeScalar 2 14).pendingStore = some (14, [3, 12]) ∧
    (bytesOf (toBits [3, 12]))[1]? = some 12 := by decide
theorem witness_HostReads_same :
    load small 1 [false] = { load small 1 [true] with bufs := (load small 1 [false]).bufs } := by decide
theorem witness_HostReads_lengths :
    ∀ r, ((load small 1 [false]).buf r).map List.length = ((load small 1 [true]).buf r).map List.length := by decide
theorem witness_HostReads : SameButBufferBits (load small 1 [true]) (load small 1 [false]) :=
  And.intro witness_HostReads_same witness_HostReads_lengths

end Sys2Proof.Tests
end

section
/-! SUPPORT. The reset values and the register window: settles ResetValues, CommandAcceptance and ReservedOffsetsReadZero
(10_state.md rules R36, R45 and R49). -/

namespace Sys2Proof.Machine

/-! ### The state right after a hardware reset (R49) -/

@[simp] theorem State.buf_resetWith (p : Params) (r : BufReg) : (State.resetWith p).buf r = none := by
  simp [State.buf, State.resetWith]

@[simp] theorem State.scalar_resetWith (p : Params) (r : ScalReg) : (State.resetWith p).scalar r = 0 := by
  simp [State.scalar, State.resetWith]

@[simp] theorem State.keySet_resetWith (p : Params) : (State.resetWith p).keySet = false := by
  simp [State.keySet]

theorem lowBits_false : lowBits false false false false = 0 := by decide

@[simp] theorem State.fstatWord_resetWith (p : Params) : (State.resetWith p).fstatWord = 0 := by
  unfold State.fstatWord State.total
  rw [State.keySet_resetWith]
  exact lowBits_false

@[simp] theorem State.ctrlWord_resetWith (p : Params) : (State.resetWith p).ctrlWord = 0 := lowBits_false

@[simp] theorem State.statusWord_resetWith (p : Params) : (State.resetWith p).statusWord = 0 := lowBits_false

/-- Nothing has been written since a reset, so every byte is the free power-on byte (R77). -/
theorem State.readByte_resetWith (p : Params) (x : Nat) :
    (State.resetWith p).readByte x = Config.powerOnByte (State.resetWith p).powerEpoch x := rfl

/-! ### The registers at their offsets (R32) -/

/-- A 32-bit access at an aligned offset of the register window reaches the register of that offset (R32, R66). -/
theorem State.target_hostReg (s : State) {off : HostOffset} (hlt : off.toNat < 0x10000) (hal : off.toNat % 4 = 0) :
    s.target off .w32 = .reg (hostReg off.toNat) :=
  State.target_reg.mpr ⟨hlt, rfl, hal, rfl⟩

theorem State.target_id (s : State) : s.target 0x000 .w32 = .reg .id :=
  s.target_hostReg (by decide) (by decide)

theorem State.target_cmd (s : State) : s.target 0x00C .w32 = .reg .cmd :=
  s.target_hostReg (by decide) (by decide)

theorem State.target_capMaxlen (s : State) : s.target 0x01C .w32 = .reg .capMaxlen :=
  s.target_hostReg (by decide) (by decide)

theorem State.target_capDmem (s : State) : s.target 0x020 .w32 = .reg .capDmem :=
  s.target_hostReg (by decide) (by decide)

/-- The reserved offsets (R45); between 0x080 and 0x084 only 0x080 is aligned, and it is BVALID. -/
theorem hostReg_of_reserved {off : Nat} (h : (0x024 ≤ off ∧ off < 0x040) ∨ 0x084 ≤ off) : hostReg off = .reserved := by
  unfold hostReg
  iterate 12 rw [if_neg (by omega)]

theorem State.target_reserved (s : State) {off : HostOffset} (hal : off.toNat % 4 = 0)
    (h : (0x024 ≤ off.toNat ∧ off.toNat < 0x040) ∨ (0x084 ≤ off.toNat ∧ off.toNat < 0x10000)) :
    s.target off .w32 = .reg .reserved := by
  have hreg : hostReg off.toNat = .reserved := hostReg_of_reserved (h.imp_right And.left)
  rw [s.target_hostReg (by omega) hal, hreg]

/-- A read with a specified value only records the reply (R69; log entry 26). -/
theorem State.access_read_of_some {s : State} {off : HostOffset} {width : AccessWidth} {v : Word}
    (h : s.hostRead off width = some v) : s.access (.read off width) = { s with busReply := some v } := by
  simp only [State.access, h]

/-! ### A write of CMD (R36, R223, R271) -/

theorem State.acceptCommand_of_ready {s : State} (hb : s.busy = false) (he : s.stErr = false) (w : Word) :
    s.acceptCommand w = { s with engine := .executing w [] } := by
  simp [State.acceptCommand, hb, he]

theorem State.acceptCommand_of_busy_or_err {s : State} (h : s.busy = true ∨ s.stErr = true) (w : Word) :
    s.acceptCommand w = s.drop := by
  unfold State.acceptCommand
  exact if_pos (by simpa using h)

/-! ### The statements -/

/-- Settles O49: each piece of state by its reset lemma, the identification registers by what stands at their offsets. -/
theorem resetValues : Obligations.ResetValues := by
  rintro p s rfl
  have hpin : (State.resetWith p).resetPin = false := rfl
  exact ⟨State.buf_resetWith p, State.scalar_resetWith p, rfl, rfl, State.fstatWord_resetWith p,
    State.ctrlWord_resetWith p, State.statusWord_resetWith p, rfl, rfl, rfl, rfl,
    State.hostRead_reg hpin (State.target_id _), State.hostRead_reg hpin (State.target_capMaxlen _),
    State.hostRead_reg hpin (State.target_capDmem _), State.readByte_resetWith p⟩

/-- Settles O50: offset 0x00C is CMD, and a write of it is accepted or dropped by BUSY and ERR. -/
theorem commandAcceptance : Obligations.CommandAcceptance := by
  intro s w hpin
  have hwrite : s.access (.write 0x00C .w32 w) = s.acceptCommand w := State.access_write_reg hpin s.target_cmd w
  refine ⟨fun hb he => ?ready, fun h => ?dropped, State.hostRead_reg hpin s.target_cmd⟩
  case ready => rw [hwrite, State.acceptCommand_of_ready hb he]
  case dropped => rw [hwrite, State.acceptCommand_of_busy_or_err h, State.drop]

/-- Settles O54: both ranges are the reserved register, which reads 0 and ignores writes at every state. -/
theorem reservedOffsetsReadZero : Obligations.ReservedOffsetsReadZero := by
  intro s off v hpin hal hrange
  have ht : s.target off .w32 = .reg .reserved := s.target_reserved hal hrange
  have hread : s.hostRead off .w32 = some 0 := State.hostRead_reg hpin ht
  exact ⟨State.access_read_of_some hread, State.access_write_reg hpin ht v⟩

end Sys2Proof.Machine
end

section
/-! SUPPORT. The commands over data memory: settles LdbLoadsBytesMsbFirst and StbStoresItsBytesOnly (20_memory.md rules R61
and R62, 41_bitcodec.md rules R120 and R121). -/

namespace Sys2Proof.Machine

/-! ### Byte strings of data memory, bit by bit (R7, R61, R62) -/

/-- Bit `8j + k` of `MemRead` is bit `7 - k` of byte `j` of those read (R61, R64). -/
theorem State.toBits_readBytes_bit (s : State) {addr n j k : Nat} (hj : j < n) (hk : k < 8) :
    (toBits (s.readBytes addr n))[8 * j + k]? = some ((s.readByte (addr + j)).getLsbD (7 - k)) := by
  rw [toBits_bit _ j k (by simpa using hj) hk, State.readBytes_getElem]

/-- Bit `8j + k` of whole bytes of bits is bit `7 - k` of their byte `j` (R7). -/
theorem getElem?_eq_bytesOf_bit {v : Bits} (hv : v.length % 8 = 0) {j k : Nat} (hj : j < (bytesOf v).length) (hk : k < 8) :
    v[8 * j + k]? = some ((bytesOf v)[j].getLsbD (7 - k)) := by
  rw [← toBits_bit (bytesOf v) j k hj hk, toBits_bytesOf v hv]

/-- `MemWrite` sets byte `j` of those it writes (R62). -/
theorem State.readByte_writeBytes_stored (s : State) (addr : Nat) {bs : List Byte} {j : Nat} (hj : j < bs.length) :
    (s.writeBytes addr bs).readByte (addr + j) = bs[j] := by
  rw [State.readByte_writeBytes, dif_pos (by omega)]
  simp

/-- `MemWrite` changes no other byte (R62). -/
theorem State.readByte_writeBytes_outside (s : State) {addr x : Nat} {bs : List Byte}
    (hx : ¬(addr ≤ x ∧ x < addr + bs.length)) : (s.writeBytes addr bs).readByte x = s.readByte x := by
  rw [State.readByte_writeBytes, dif_neg hx]

/-! ### LDB: its checks in order, and what it loads (R120) -/

section
variable {d : BufReg} {a b : ScalReg} {s : State}

theorem exec_ldb_accessFault (hrange : s.params.dmemBytes < s.number a + s.number b) :
    ∃ t, exec (.ldb d a b) s = .next t ∧ Raised s t 0x8 (encode (.ldb d a b)) :=
  finish_raised .accessFault rfl rfl <|
    except_bind_error.mpr (.inl (require_error.mpr ⟨decide_eq_false hrange.not_ge, rfl⟩))

theorem exec_ldb_capacity (hrange : s.number a + s.number b ≤ s.params.dmemBytes)
    (hcap : s.params.maxlen < 8 * s.number b) :
    ∃ t, exec (.ldb d a b) s = .next t ∧ Raised s t 0x9 (encode (.ldb d a b)) :=
  finish_raised .capacity rfl rfl <|
    except_bind_error.mpr (.inr ⟨(), require_ok.mpr (decide_eq_true hrange),
      except_bind_error.mpr (.inl (require_error.mpr ⟨decide_eq_false hcap.not_ge, rfl⟩))⟩)

theorem exec_ldb_completes (hrange : s.number a + s.number b ≤ s.params.dmemBytes)
    (hcap : 8 * s.number b ≤ s.params.maxlen) :
    ∃ t, exec (.ldb d a b) s = .next t ∧
      WroteBuffer s t d (some (toBits (s.readBytes (s.number a) (s.number b)))) :=
  finish_wroteBuffer <|
    except_bind_ok.mpr ⟨(), require_ok.mpr (decide_eq_true hrange),
      except_bind_ok.mpr ⟨(), require_ok.mpr (decide_eq_true hcap), rfl⟩⟩

end

/-- Settles O13: each clause is one outcome of LDB's checks, and the buffer is `MemRead` bit by bit. -/
theorem ldbLoadsBytesMsbFirst : Obligations.LdbLoadsBytesMsbFirst := by
  intro d a b s addr n haddr hcount
  obtain rfl : s.number a = addr := haddr
  obtain rfl : s.number b = n := hcount
  refine ⟨exec_ldb_accessFault, exec_ldb_capacity, fun hrange hcap => ?completes⟩
  case completes =>
    obtain ⟨t, hexec, hwrote⟩ := exec_ldb_completes hrange hcap
    refine ⟨t, _, hexec, hwrote, ?length, fun j hj k hk => s.toBits_readBytes_bit hj hk⟩
    case length => rw [toBits_length, State.readBytes_length]

/-! ### STB: its checks in order, and what it stores (R121) -/

theorem stbPlan_absent {s : State} {a : BufReg} {b : ScalReg} (hv : s.buf a = none) :
    stbPlan a b s = .error (.raise .nullOperand) :=
  except_bind_error.mpr (.inl (operand_error.mpr ⟨hv, rfl⟩))

section
variable {s : State} {a : BufReg} {b : ScalReg} {v : Bits}

theorem stbPlan_length (hv : s.buf a = some v) (hlen : v.length % 8 ≠ 0) :
    stbPlan a b s = .error (.raise .length) :=
  except_bind_error.mpr (.inr ⟨v, operand_ok.mpr hv,
    except_bind_error.mpr (.inl (require_error.mpr ⟨beq_false_of_ne hlen, rfl⟩))⟩)

theorem stbPlan_accessFault (hv : s.buf a = some v) (hlen : v.length % 8 = 0)
    (hrange : s.params.dmemBytes < s.number b + v.length / 8) :
    stbPlan a b s = .error (.raise .accessFault) :=
  except_bind_error.mpr (.inr ⟨v, operand_ok.mpr hv,
    except_bind_error.mpr (.inr ⟨(), require_ok.mpr (beq_iff_eq.mpr hlen),
      except_bind_error.mpr (.inl (require_error.mpr ⟨decide_eq_false hrange.not_ge, rfl⟩))⟩)⟩)

end

/-- A STB whose plan raises is error entry, and writes nothing (R222). -/
theorem exec_stb_raised {s : State} {a : BufReg} {b : ScalReg} {e : ErrorCode}
    (h : stbPlan a b s = .error (.raise e)) :
    ∃ t, exec (.stb a b) s = .next t ∧ Raised s t (errInfoWord e .none) (encode (.stb a b)) :=
  finish_raised e rfl rfl (except_bind_error.mpr (.inl h))

/-- A STB whose checks pass is `MemWrite` of its buffer's bytes, then completion (R121). -/
theorem exec_stb_completes {s : State} {a : BufReg} {b : ScalReg} {v : Bits} (hv : s.buf a = some v)
    (hlen : v.length % 8 = 0) (hrange : s.number b + v.length / 8 ≤ s.params.dmemBytes) :
    exec (.stb a b) s = .next (s.writeBytes (s.number b) (bytesOf v)).complete :=
  finish_of_ok (except_bind_ok.mpr ⟨_, stbPlan_ok.mpr ⟨v, hv, hlen, hrange, rfl⟩, rfl⟩)

/-- Settles O14: the raising clauses by the plan of the store; where it completes, the bytes stored and the bytes left are
those of `MemWrite`, which changes nothing but data memory. -/
theorem stbStoresItsBytesOnly : Obligations.StbStoresItsBytesOnly := by
  intro a b s addr haddr
  obtain rfl : s.number b = addr := haddr
  refine ⟨fun hv => exec_stb_raised (stbPlan_absent hv), fun v hv =>
    ⟨fun hlen => exec_stb_raised (stbPlan_length hv hlen),
     fun hlen hrange => exec_stb_raised (stbPlan_accessFault hv hlen hrange), fun hlen hrange => ?completes⟩⟩
  case completes =>
    refine ⟨_, exec_stb_completes hv hlen hrange, rfl, fun _ => rfl, fun _ => rfl, ⟨rfl, rfl⟩,
      fun x hx => ?outside, fun j hj k hk => ?stored⟩
    case outside => exact s.readByte_writeBytes_outside (by rwa [bytesOf_length])
    case stored =>
      have hj : j < (bytesOf v).length := by rwa [bytesOf_length]
      rw [getElem?_eq_bytesOf_bit hlen hj hk, State.readByte_complete, s.readByte_writeBytes_stored _ hj]

end Sys2Proof.Machine
end

section
/-! SUPPORT. Words of the spec through the decoder: settles SampleWordsDecode (30_encoding.md rule R96). -/

namespace Sys2Proof

/-- A reserved-field check refuses exactly where the check fails, and always for the same reason (R90). -/
theorem whenReservedZero_error {zero : Bool} {i : Instr} {e : DecodeError} :
    whenReservedZero zero i = .error e ↔ zero = false ∧ .reservedBits = e := by
  cases zero <;> simp [whenReservedZero]

/-- A nonzero Z_N in a word with NOP's opcode is refused (R82, R90). -/
theorem decode_nop_reserved {w : Word} (hopc : fieldOpc w = 0x01) (hz : fieldZN w ≠ 0) :
    decode w = .error .reservedBits := by
  simpa [decode, hopc, whenReservedZero_error] using hz

/-- Settles O5: each word is first written as the fields it is made of (R81 to R84), and these say which row of the opcode
map it selects and whether the row's reserved fields and HDRX's length allow it (R88 to R91). -/
theorem sampleWordsDecode : Obligations.SampleWordsDecode := by
  refine ⟨?nop, ?li, ?hdrx, ?xor, ?drv, ?fenc, ?pdec, ?cut, ?mrg, ?zeroWord, ?nopReserved, ?hdrxTooLong, ?stbReserved⟩
  case nop =>
    change decode (formatN 0x01) = _
    simp [decode, whenReservedZero_ok]
  case li =>
    change decode (formatI 0x02 7 0xFFFF) = _
    simp [decode, whenReservedZero_ok]
  case hdrx =>
    change decode (formatR 0x0A 4 0 0 0 32) = _
    simp [decode]
  case xor =>
    change decode (formatR 0x11 4 0 1 0 0) = _
    simp [decode, whenReservedZero_ok]
  case drv =>
    change decode (formatR 0x19 3 0 2 0 0) = _
    simp [decode, whenReservedZero_ok]
  case fenc =>
    change decode (formatR 0x20 0 0 0 0 (frameModifier true)) = _
    simp [decode, decodeFrame, whenReservedZero_ok]
  case pdec =>
    change decode (formatR 0x23 0 0 0 0 (frameModifier true)) = _
    simp [decode, decodeFrame, whenReservedZero_ok]
  case cut =>
    change decode (formatR 0x28 5 4 0 1 0) = _
    simp [decode, whenReservedZero_ok]
  case mrg =>
    change decode (formatR 0x29 6 4 5 0 0) = _
    simp [decode, whenReservedZero_ok]
  case zeroWord =>
    change decode (formatN 0x00) = _
    simp [decode]
  case nopReserved => exact decode_nop_reserved (by decide) (by decide)
  case hdrxTooLong =>
    change decode (formatR 0x0A 4 0 0 0 33) = _
    simp [decode]
  case stbReserved =>
    change decode (formatR 0x09 1 0 0 0 0) = _
    simp [decode, whenReservedZero_error]

end Sys2Proof
end

section
/-! SUPPORT. The keystream XOR: settles XorAppliesTheCyclicKey (42_keystream_cipher.md rules R142 and R143). -/

namespace Sys2Proof.Machine

/-! ### XOR: its checks in order, and what it writes (R143) -/

section
variable {d a b : BufReg} {s : State}

theorem exec_xor_nullOperand (hp : s.buf a = none) :
    ∃ t, exec (.xor d a b) s = .next t ∧ Raised s t 0x6 (encode (.xor d a b)) :=
  finish_raised .nullOperand rfl rfl <|
    except_bind_error.mpr (.inl (operand_error.mpr ⟨hp, rfl⟩))

theorem exec_xor_emptyKey {p : Bits} (hp : s.buf a = some p) (hk : s.buf b = none ∨ s.buf b = some []) :
    ∃ t, exec (.xor d a b) s = .next t ∧ Raised s t 0x1 (encode (.xor d a b)) :=
  finish_raised .emptyKey rfl rfl <|
    except_bind_error.mpr (.inr ⟨p, operand_ok.mpr hp,
      except_bind_error.mpr (.inl (keyOperand_error.mpr ⟨hk, rfl⟩))⟩)

theorem exec_xor_completes {p k : Bits} (hp : s.buf a = some p) (hk : s.buf b = some k) (hne : k ≠ []) :
    ∃ t, exec (.xor d a b) s = .next t ∧ WroteBuffer s t d (some (xorWith p k)) :=
  finish_wroteBuffer <|
    except_bind_ok.mpr ⟨p, operand_ok.mpr hp,
      except_bind_ok.mpr ⟨k, keyOperand_ok.mpr ⟨hk, hne⟩, rfl⟩⟩

end

/-- Settles O19: each clause is one outcome of XOR's operand checks, and the buffer written is `xorWith` bit by bit. -/
theorem xorAppliesTheCyclicKey : Obligations.XorAppliesTheCyclicKey := by
  intro d a b s
  refine ⟨exec_xor_nullOperand, fun p hp => ⟨exec_xor_emptyKey hp, fun k hk hne => ?completes⟩⟩
  case completes =>
    obtain ⟨t, hexec, hwrote⟩ := exec_xor_completes (d := d) hp hk hne
    exact ⟨t, xorWith p k, hexec, hwrote, xorWith_length p k, xorWith_getD p k⟩

end Sys2Proof.Machine
end

section
/-! SUPPORT. The frame decode: settles FdecGivesTheWholeFrame (44_secureframe.md rules R184 and R188). -/

namespace Sys2Proof.Machine

/-! ### A frame's operands, as frameCheck and fillerOf answer them (R181, R182) -/

/-- What frameCheck answers for payload `p` and key `k` (R180, R181). -/
def frameShape (p k : Bits) : FrameShape := { payload := p, key := k, fillerLen := fillerBytes p k }

theorem frameCheck_frameShape {s : State} {x : BufReg} {p k : Bits} :
    s.frameCheck x = .ok (frameShape p k) ↔ FrameReady s x p k := by
  simp [frameCheck_ok, frameShape, fillerBytes, FrameReady, keyReg]

/-- A derived filler has the bytes asked for, as a supplied one must (R166, R182). -/
theorem FillerIs.length {s : State} {f : Bool} {p k fil : Bits} (h : FillerIs s f p k fil) :
    fil.length = 8 * fillerBytes p k := by
  match f, h with
  | true, ⟨_, hlen⟩ => exact hlen
  | false, ⟨_, bytes, hderive, hfil⟩ => rw [hfil, toBits_length, derive_length hderive]

theorem FillerIs.fillerOf {s : State} {f : Bool} {p k fil : Bits} (h : FillerIs s f p k fil) :
    s.fillerOf f (frameShape p k) = .ok fil := by
  match f, h with
  | true, hsupplied => exact fillerOf_supplied.mpr hsupplied
  | false, ⟨hfresh, bytes, hderive, hfil⟩ =>
    have hrun : s.runDerivation (bytesOf p) (fillerBytes p k) = .ok bytes := by
      rw [runDerivation_fresh hfresh, hderive]
    exact fillerOf_derived.mpr ⟨bytes, hrun, hfil.symm⟩

/-! ### The frame XORed with the key (R180, R188) -/

/-- The frame is as long as the key, so the cyclic key is read once, bit by bit (R142, R180). -/
theorem isFrame_frameXor {s : State} {x : BufReg} {p k fil : Bits} (hready : FrameReady s x p k)
    (hfil : fil.length = 8 * fillerBytes p k) : IsFrame p fil k (frameXor (frameShape p k) fil) := by
  have hlen : (frameXor (frameShape p k) fil).length = k.length :=
    frameXor_length (frameCheck_frameShape.mpr hready) hfil
  refine ⟨hlen, fun i hi => ?_⟩
  have hframe : i < (be32 (p.length / 8) ++ fil ++ p).length := by
    rwa [← hlen, frameXor, xorWith_length] at hi
  calc (frameXor (frameShape p k) fil).getD i false
    _ = ((be32 (p.length / 8) ++ fil ++ p).getD i false ^^ k.getD (i % k.length) false) := xorWith_getD _ _ i hframe
    _ = ((be32 (p.length / 8) ++ fil ++ p).getD i false ^^ k.getD i false) := by rw [Nat.mod_eq_of_lt hi]

/-- The first 32 bits of a frame are its header, XORed with the key's (R180, R188). -/
theorem IsFrame.header {p fil k r : Bits} (h : IsFrame p fil k r) (hk : 32 ≤ k.length) {i : Nat} (hi : i < 32) :
    r.getD i false = ((be32 (p.length / 8)).getD i false ^^ k.getD i false) := by
  obtain ⟨-, hbits⟩ := h
  rw [hbits i (by omega), List.append_assoc, List.getD_append _ _ _ _ (by rwa [be32_length])]

/-- The key of a frame has room for the header (R181). -/
theorem FrameReady.header_le_key {s : State} {x : BufReg} {p k : Bits} (h : FrameReady s x p k) : 32 ≤ k.length := by
  obtain ⟨-, -, -, -, -, -, hroom⟩ := h
  omega

/-! ### FDEC (R184) -/

theorem finish_wroteDecoded {i : Instr} {s : State} {v : Bits} {r : Except Stop State} (h : r = .ok (s.writeDecoded v)) :
    ∃ t, finish i s r = .next t ∧ WroteDecoded s t v :=
  ⟨_, finish_of_ok h, wroteDecoded_complete s v⟩

theorem exec_fdec_completes {f : Bool} {s : State} {c k fil : Bits} (hready : FrameReady s 2 c k)
    (hfil : FillerIs s f c k fil) :
    ∃ t, exec (.fdec f) s = .next t ∧ WroteDecoded s t (frameXor (frameShape c k) fil) :=
  finish_wroteDecoded <|
    except_bind_ok.mpr ⟨frameShape c k, frameCheck_frameShape.mpr hready,
      except_bind_ok.mpr ⟨fil, hfil.fillerOf, rfl⟩⟩

/-- Settles O34: FDEC writes `frameXor`, which is the frame bit by bit; its first 32 bits are the header's. -/
theorem fdecGivesTheWholeFrame : Obligations.FdecGivesTheWholeFrame := by
  intro f s c k fil hready hfil
  obtain ⟨t, hexec, hwrote⟩ := exec_fdec_completes hready hfil
  have hframe : IsFrame c fil k (frameXor (frameShape c k) fil) := isFrame_frameXor hready hfil.length
  exact ⟨t, _, hexec, hwrote, hframe, fun i hi => hframe.header hready.header_le_key hi⟩

end Sys2Proof.Machine
end

section
/-! SUPPORT. The interrupt output: settles IrqIsTheEnabledPendingBits (60_exceptions.md rule R226). -/

namespace Sys2Proof.Machine

/-- A source interrupts exactly when it is enabled and pending; the output is the sources' disjunction, with no priority
among them (R226). -/
theorem State.irq_eq_true_iff (s : State) :
    s.irq = true ↔ (s.ieDone && s.stDone) = true ∨ (s.ieErr && s.stErr) = true ∨ (s.ieOvr && s.stOvr) = true := by
  rw [State.irq, Bool.or_eq_true, Bool.or_eq_true, or_assoc]

/-- Settles O43: each of the three sources is the conjunction of its CTRL enable and its STATUS bit. -/
theorem irqIsTheEnabledPendingBits : Obligations.IrqIsTheEnabledPendingBits := by
  intro s
  rw [s.irq_eq_true_iff, Bool.and_eq_true, Bool.and_eq_true, Bool.and_eq_true]

end Sys2Proof.Machine
end

section
/-! SUPPORT. The decoder and the encoder against each other and against the opcode map: settles DecodeOfEncodeIsTheCommand,
LegalWordIsTheWordOfItsCommand, DecodeFollowsTheOpcodeMap and OperandsStandInTheirFields (30_encoding.md rules R81 to R91). -/

namespace Sys2Proof

/-! ### From a command to its word and back -/

/-- Settles O1: the opcode of the word selects the command's arm of the decoder, which reads its fields back; the arms differ
in which fields are reserved, and in HDRX's check of its length. -/
theorem decodeOfEncodeIsTheCommand : Obligations.DecodeOfEncodeIsTheCommand := by
  intro i hwf
  cases i with
  | hdrx d a h =>
    have hlen : h.toNat ≤ 32 := by simpa [Instr.wellFormed] using hwf
    simp [encode, decode, hlen]
  | fenc f | fdec f | penc f | pdec f => simp [encode, decode, decodeFrame, whenReservedZero_ok]
  | _ => simp [encode, decode, whenReservedZero_ok]

/-! ### From a legal word to its command and back -/

/-- A word of format R from its fields, whatever these are known to be (R84). -/
theorem formatR_eq_of_fields {w : Word} {o m : BitVec 6} {d a b c : BitVec 3} (ho : fieldOpc w = o) (hd : fieldD w = d)
    (ha : fieldA w = a) (hb : fieldB w = b) (hc : fieldC w = c) (hz : fieldZ w = 0) (hm : fieldM w = m) :
    formatR o d a b c m = w := by
  rw [← ho, ← hd, ← ha, ← hb, ← hc, ← hm, formatR_of_fields w hz]

/-! The arms of the decoder by the fields they reserve: where the check holds, the word is made of the others (R90). -/

section
variable {w : Word} {n : Nat} {i j : Instr}

theorem formatI_of_checked (ho : (fieldOpc w).toNat = n) (h : whenReservedZero (fieldZI w == 0) i = .ok j) :
    i = j ∧ formatI (BitVec.ofNat 6 n) (fieldD w) (fieldImm w) = w := by
  obtain ⟨hz, hij⟩ := whenReservedZero_ok.mp h
  exact ⟨hij, by rw [← fieldOpc_of_toNat ho, formatI_of_fields w (beq_iff_eq.mp hz)]⟩

theorem formatR_d_of_checked (ho : (fieldOpc w).toNat = n)
    (h : whenReservedZero (fieldA w == 0 && fieldB w == 0 && fieldC w == 0 && fieldZ w == 0 && fieldM w == 0) i = .ok j) :
    i = j ∧ formatR (BitVec.ofNat 6 n) (fieldD w) 0 0 0 0 = w := by
  simp only [whenReservedZero_ok, Bool.and_eq_true, beq_iff_eq] at h
  obtain ⟨⟨⟨⟨⟨ha, hb⟩, hc⟩, hz⟩, hm⟩, hij⟩ := h
  exact ⟨hij, formatR_eq_of_fields (fieldOpc_of_toNat ho) rfl ha hb hc hz hm⟩

theorem formatR_da_of_checked (ho : (fieldOpc w).toNat = n)
    (h : whenReservedZero (fieldB w == 0 && fieldC w == 0 && fieldZ w == 0 && fieldM w == 0) i = .ok j) :
    i = j ∧ formatR (BitVec.ofNat 6 n) (fieldD w) (fieldA w) 0 0 0 = w := by
  simp only [whenReservedZero_ok, Bool.and_eq_true, beq_iff_eq] at h
  obtain ⟨⟨⟨⟨hb, hc⟩, hz⟩, hm⟩, hij⟩ := h
  exact ⟨hij, formatR_eq_of_fields (fieldOpc_of_toNat ho) rfl rfl hb hc hz hm⟩

theorem formatR_dab_of_checked (ho : (fieldOpc w).toNat = n)
    (h : whenReservedZero (fieldC w == 0 && fieldZ w == 0 && fieldM w == 0) i = .ok j) :
    i = j ∧ formatR (BitVec.ofNat 6 n) (fieldD w) (fieldA w) (fieldB w) 0 0 = w := by
  simp only [whenReservedZero_ok, Bool.and_eq_true, beq_iff_eq] at h
  obtain ⟨⟨⟨hc, hz⟩, hm⟩, hij⟩ := h
  exact ⟨hij, formatR_eq_of_fields (fieldOpc_of_toNat ho) rfl rfl rfl hc hz hm⟩

theorem formatR_ab_of_checked (ho : (fieldOpc w).toNat = n)
    (h : whenReservedZero (fieldD w == 0 && fieldC w == 0 && fieldZ w == 0 && fieldM w == 0) i = .ok j) :
    i = j ∧ formatR (BitVec.ofNat 6 n) 0 (fieldA w) (fieldB w) 0 0 = w := by
  simp only [whenReservedZero_ok, Bool.and_eq_true, beq_iff_eq] at h
  obtain ⟨⟨⟨⟨hd, hc⟩, hz⟩, hm⟩, hij⟩ := h
  exact ⟨hij, formatR_eq_of_fields (fieldOpc_of_toNat ho) hd rfl rfl hc hz hm⟩

theorem formatR_dabc_of_checked (ho : (fieldOpc w).toNat = n)
    (h : whenReservedZero (fieldZ w == 0 && fieldM w == 0) i = .ok j) :
    i = j ∧ formatR (BitVec.ofNat 6 n) (fieldD w) (fieldA w) (fieldB w) (fieldC w) 0 = w := by
  simp only [whenReservedZero_ok, Bool.and_eq_true, beq_iff_eq] at h
  obtain ⟨⟨hz, hm⟩, hij⟩ := h
  exact ⟨hij, formatR_eq_of_fields (fieldOpc_of_toNat ho) rfl rfl rfl rfl hz hm⟩

theorem formatR_frame_of_checked {mk : Bool → Instr} (ho : (fieldOpc w).toNat = n) (h : decodeFrame w mk = .ok j) :
    mk (w.getLsbD 0) = j ∧ formatR (BitVec.ofNat 6 n) 0 0 0 0 (frameModifier (w.getLsbD 0)) = w := by
  obtain ⟨hj, hw⟩ := decodeFrame_ok h
  exact ⟨hj.symm, by rw [← fieldOpc_of_toNat ho, ← hw]⟩

end

/-- The word of a legal HDRX is made of its opcode, two registers and the length (R91). -/
theorem decode_hdrx_ok {w : Word} {i : Instr} (ho : (fieldOpc w).toNat = 0x0A) (h : decode w = .ok i) :
    (fieldM w).toNat ≤ 32 ∧ .hdrx (fieldD w) (fieldA w) (fieldM w) = i ∧
      formatR 0x0A (fieldD w) (fieldA w) 0 0 (fieldM w) = w := by
  simp only [decode, ho] at h
  split at h
  next hzero =>
    split at h
    next hlen =>
      simp only [Bool.and_eq_true, beq_iff_eq] at hzero
      obtain ⟨⟨hb, hc⟩, hz⟩ := hzero
      exact ⟨hlen, by simpa using h, formatR_eq_of_fields (fieldOpc_of_toNat ho) rfl rfl hb hc hz rfl⟩
    next => cases h
  next => cases h

/-- Settles O2: in the arm the opcode selects, every field that is no operand is checked to be zero, so the word is made of
its opcode and the operands. -/
theorem legalWordIsTheWordOfItsCommand : Obligations.LegalWordIsTheWordOfItsCommand := by
  intro w i h
  have hdecode := h
  unfold decode at h
  split at h
  next ho =>
    obtain ⟨hz, rfl⟩ := whenReservedZero_ok.mp h
    have hw : formatN (fieldOpc w) = w := formatN_of_fields w (beq_iff_eq.mp hz)
    exact ⟨rfl, by rwa [fieldOpc_of_toNat ho] at hw⟩
  next ho => obtain ⟨rfl, hw⟩ := formatI_of_checked ho h; exact ⟨rfl, hw⟩
  next ho => obtain ⟨rfl, hw⟩ := formatI_of_checked ho h; exact ⟨rfl, hw⟩
  next ho => obtain ⟨rfl, hw⟩ := formatR_da_of_checked ho h; exact ⟨rfl, hw⟩
  next ho => obtain ⟨rfl, hw⟩ := formatR_d_of_checked ho h; exact ⟨rfl, hw⟩
  next ho => obtain ⟨rfl, hw⟩ := formatR_da_of_checked ho h; exact ⟨rfl, hw⟩
  next ho => obtain ⟨rfl, hw⟩ := formatR_d_of_checked ho h; exact ⟨rfl, hw⟩
  next ho => obtain ⟨rfl, hw⟩ := formatR_dab_of_checked ho h; exact ⟨rfl, hw⟩
  next ho => obtain ⟨rfl, hw⟩ := formatR_ab_of_checked ho h; exact ⟨rfl, hw⟩
  next ho =>
    obtain ⟨hlen, rfl, hw⟩ := decode_hdrx_ok ho hdecode
    exact ⟨by simpa [Instr.wellFormed] using hlen, hw⟩
  next ho => obtain ⟨rfl, hw⟩ := formatR_dab_of_checked ho h; exact ⟨rfl, hw⟩
  next ho => obtain ⟨rfl, hw⟩ := formatR_dab_of_checked ho h; exact ⟨rfl, hw⟩
  next ho => obtain ⟨rfl, hw⟩ := formatR_dab_of_checked ho h; exact ⟨rfl, hw⟩
  next ho => obtain ⟨rfl, hw⟩ := formatR_dab_of_checked ho h; exact ⟨rfl, hw⟩
  next ho => obtain ⟨rfl, hw⟩ := formatR_dab_of_checked ho h; exact ⟨rfl, hw⟩
  next ho => obtain ⟨rfl, hw⟩ := formatR_frame_of_checked ho h; exact ⟨rfl, hw⟩
  next ho => obtain ⟨rfl, hw⟩ := formatR_frame_of_checked ho h; exact ⟨rfl, hw⟩
  next ho => obtain ⟨rfl, hw⟩ := formatR_frame_of_checked ho h; exact ⟨rfl, hw⟩
  next ho => obtain ⟨rfl, hw⟩ := formatR_frame_of_checked ho h; exact ⟨rfl, hw⟩
  next ho => obtain ⟨rfl, hw⟩ := formatR_dabc_of_checked ho h; exact ⟨rfl, hw⟩
  next ho => obtain ⟨rfl, hw⟩ := formatR_dab_of_checked ho h; exact ⟨rfl, hw⟩
  next => cases h

/-! ### The opcode map as a table of masks and matches (R88) -/

/-- The word of every command fits the row of its mnemonic (R88). -/
theorem encode_fitsRow (i : Instr) : Laws.EncodeFitsRow.Statement i := by
  cases i with
  | nop => exact Laws.EncodeFitsRow.nop
  | li d imm => exact Laws.EncodeFitsRow.li d imm
  | lih d imm => exact Laws.EncodeFitsRow.lih d imm
  | blen d a => exact Laws.EncodeFitsRow.blen d a
  | bclr d => exact Laws.EncodeFitsRow.bclr d
  | bmov d a => exact Laws.EncodeFitsRow.bmov d a
  | binv d => exact Laws.EncodeFitsRow.binv d
  | ldb d a b => exact Laws.EncodeFitsRow.ldb d a b
  | stb a b => exact Laws.EncodeFitsRow.stb a b
  | hdrx d a h => exact Laws.EncodeFitsRow.hdrx d a h
  | ksb d a b => exact Laws.EncodeFitsRow.ksb d a b
  | xor d a b => exact Laws.EncodeFitsRow.xor d a b
  | xors d a b => exact Laws.EncodeFitsRow.xors d a b
  | rotr d a b => exact Laws.EncodeFitsRow.rotr d a b
  | drv d a b => exact Laws.EncodeFitsRow.drv d a b
  | fenc f => exact Laws.EncodeFitsRow.fenc f
  | fdec f => exact Laws.EncodeFitsRow.fdec f
  | penc st => exact Laws.EncodeFitsRow.penc st
  | pdec st => exact Laws.EncodeFitsRow.pdec st
  | cut d a b c => exact Laws.EncodeFitsRow.cut d a b c
  | mrg d a b => exact Laws.EncodeFitsRow.mrg d a b

/-- Bits of a word that a row's mask covers are those of the row's match. -/
theorem extractLsb'_of_masked {w m k : Word} {start len : Nat} (h : w &&& m = k)
    (hm : m.extractLsb' start len = BitVec.allOnes len) : w.extractLsb' start len = k.extractLsb' start len := by
  rw [← h, BitVec.extractLsb'_and, hm, BitVec.and_allOnes]

/-- A field the mask covers is zero, where the row's match has nothing but an opcode. -/
theorem field_zero_of_masked {w m : Word} {o : BitVec 6} {start len : Nat} (h : w &&& m = formatN o)
    (hm : m.extractLsb' start len = BitVec.allOnes len) (hlen : start + len ≤ 26) : w.extractLsb' start len = 0 := by
  rw [extractLsb'_of_masked h hm]
  apply BitVec.eq_of_getLsbD_eq
  intro i hi
  have hlow : start + i < 26 := by omega
  simp only [BitVec.getLsbD_extractLsb', formatN, BitVec.getLsbD_append]
  simp [hlow]

theorem fieldOpc_of_masked {w m : Word} {o : BitVec 6} (h : w &&& m = formatN o)
    (hm : m.extractLsb' 26 6 = BitVec.allOnes 6) : fieldOpc w = o :=
  (extractLsb'_of_masked h hm).trans (fieldOpc_formatN o)

/-- Every mask covers the opcode, every match is an opcode alone, and no two rows have one match (R88, R89). -/
theorem opcodeTable_opcodes :
    (∀ r ∈ opcodeTable, r.mask.extractLsb' 26 6 = BitVec.allOnes 6 ∧ r.matchBits = formatN (fieldOpc r.matchBits)) ∧
      ∀ q ∈ opcodeTable, ∀ r ∈ opcodeTable, fieldOpc q.matchBits = fieldOpc r.matchBits → q = r := by
  decide

/-- A word has the opcode of a row that selects it. -/
theorem fieldOpc_of_row {w : Word} {r : OpcodeRow} (hr : r ∈ opcodeTable) (h : w &&& r.mask = r.matchBits) :
    fieldOpc w = fieldOpc r.matchBits := by
  obtain ⟨hmask, hmatch⟩ := opcodeTable_opcodes.1 r hr
  exact fieldOpc_of_masked (h.trans hmatch) hmask

/-! What the decoder makes of the words a row selects, by the fields its mask covers (R88, R90). -/

section
variable {w : Word} {o : BitVec 6} {i : Instr}

theorem checked_of_maskI (h : w &&& 0xFC7F0000 = formatN o) : fieldOpc w = o ∧ fieldZI w = 0 :=
  ⟨fieldOpc_of_masked h (by decide), field_zero_of_masked h (by decide) (by decide)⟩

theorem checked_of_maskD (h : w &&& 0xFC7FFFFF = formatN o) :
    fieldOpc w = o ∧ fieldA w = 0 ∧ fieldB w = 0 ∧ fieldC w = 0 ∧ fieldZ w = 0 ∧ fieldM w = 0 :=
  ⟨fieldOpc_of_masked h (by decide), field_zero_of_masked h (by decide) (by decide),
    field_zero_of_masked h (by decide) (by decide), field_zero_of_masked h (by decide) (by decide),
    field_zero_of_masked h (by decide) (by decide), field_zero_of_masked h (by decide) (by decide)⟩

theorem checked_of_maskDA (h : w &&& 0xFC0FFFFF = formatN o) :
    fieldOpc w = o ∧ fieldB w = 0 ∧ fieldC w = 0 ∧ fieldZ w = 0 ∧ fieldM w = 0 :=
  ⟨fieldOpc_of_masked h (by decide), field_zero_of_masked h (by decide) (by decide),
    field_zero_of_masked h (by decide) (by decide), field_zero_of_masked h (by decide) (by decide),
    field_zero_of_masked h (by decide) (by decide)⟩

theorem checked_of_maskDAB (h : w &&& 0xFC01FFFF = formatN o) :
    fieldOpc w = o ∧ fieldC w = 0 ∧ fieldZ w = 0 ∧ fieldM w = 0 :=
  ⟨fieldOpc_of_masked h (by decide), field_zero_of_masked h (by decide) (by decide),
    field_zero_of_masked h (by decide) (by decide), field_zero_of_masked h (by decide) (by decide)⟩

theorem decodeFrame_of_mask (mk : Bool → Instr) (h : w &&& 0xFFFFFFFE = formatN o) :
    fieldOpc w = o ∧ decodeFrame w mk = .ok (mk (w.getLsbD 0)) := by
  have hd : fieldD w = 0 := field_zero_of_masked h (by decide) (by decide)
  have ha : fieldA w = 0 := field_zero_of_masked h (by decide) (by decide)
  have hb : fieldB w = 0 := field_zero_of_masked h (by decide) (by decide)
  have hc : fieldC w = 0 := field_zero_of_masked h (by decide) (by decide)
  have hz : fieldZ w = 0 := field_zero_of_masked h (by decide) (by decide)
  have hm : fieldMHigh w = 0 := field_zero_of_masked h (by decide) (by decide)
  exact ⟨fieldOpc_of_masked h (by decide), by simp [decodeFrame, whenReservedZero, hd, ha, hb, hc, hz, hm]⟩

end

/-- The number of the bits an HDRX row leaves free is its length field (R81). -/
theorem and_0x3F_toNat (w : Word) : (w &&& 0x3F).toNat = (fieldM w).toNat := by
  rw [fieldM, BitVec.extractLsb'_toNat, BitVec.toNat_and, Nat.shiftRight_zero]
  exact Nat.and_two_pow_sub_one_eq_mod w.toNat 6


/-- A word a row selects is legal, HDRX with a length over 32 apart: one case a row, the mask covering just the fields its
arm of the decoder checks. -/
theorem decode_of_row {w : Word} {r : OpcodeRow} (hr : r ∈ opcodeTable) (h : w &&& r.mask = r.matchBits) :
    if r.mnemonic = "HDRX" ∧ 32 < (w &&& 0x3F).toNat then decode w = .error .headerTooLong
    else ∃ i, decode w = .ok i ∧ i.mnemonic = r.mnemonic := by
  simp only [opcodeTable, List.cons_append, List.nil_append, List.mem_cons, List.not_mem_nil, or_false] at hr
  rcases hr with rfl | rfl | rfl | rfl | rfl | rfl | rfl | rfl | rfl | rfl | rfl | rfl | rfl | rfl | rfl | rfl | rfl | rfl |
    rfl | rfl | rfl <;> simp only [String.reduceEq, false_and, true_and, if_false]
  · have ho : fieldOpc w = 0x01 := fieldOpc_of_masked h (by decide)
    have hz : fieldZN w = 0 := field_zero_of_masked (o := 0x01) h (by decide) (by decide)
    exact ⟨.nop, by simp [decode, ho, hz, whenReservedZero], rfl⟩
  · obtain ⟨ho, hz⟩ := checked_of_maskI (o := 0x02) h
    exact ⟨.li (fieldD w) (fieldImm w), by simp [decode, ho, hz, whenReservedZero], rfl⟩
  · obtain ⟨ho, hz⟩ := checked_of_maskI (o := 0x03) h
    exact ⟨.lih (fieldD w) (fieldImm w), by simp [decode, ho, hz, whenReservedZero], rfl⟩
  · obtain ⟨ho, hb, hc, hz, hm⟩ := checked_of_maskDA (o := 0x04) h
    exact ⟨.blen (fieldD w) (fieldA w), by simp [decode, ho, hb, hc, hz, hm, whenReservedZero], rfl⟩
  · obtain ⟨ho, ha, hb, hc, hz, hm⟩ := checked_of_maskD (o := 0x05) h
    exact ⟨.bclr (fieldD w), by simp [decode, ho, ha, hb, hc, hz, hm, whenReservedZero], rfl⟩
  · obtain ⟨ho, hb, hc, hz, hm⟩ := checked_of_maskDA (o := 0x06) h
    exact ⟨.bmov (fieldD w) (fieldA w), by simp [decode, ho, hb, hc, hz, hm, whenReservedZero], rfl⟩
  · obtain ⟨ho, ha, hb, hc, hz, hm⟩ := checked_of_maskD (o := 0x07) h
    exact ⟨.binv (fieldD w), by simp [decode, ho, ha, hb, hc, hz, hm, whenReservedZero], rfl⟩
  · obtain ⟨ho, hc, hz, hm⟩ := checked_of_maskDAB (o := 0x08) h
    exact ⟨.ldb (fieldD w) (fieldA w) (fieldB w), by simp [decode, ho, hc, hz, hm, whenReservedZero], rfl⟩
  · have ho : fieldOpc w = 0x09 := fieldOpc_of_masked h (by decide)
    have hd : fieldD w = 0 := field_zero_of_masked (o := 0x09) h (by decide) (by decide)
    have hc : fieldC w = 0 := field_zero_of_masked (o := 0x09) h (by decide) (by decide)
    have hz : fieldZ w = 0 := field_zero_of_masked (o := 0x09) h (by decide) (by decide)
    have hm : fieldM w = 0 := field_zero_of_masked (o := 0x09) h (by decide) (by decide)
    exact ⟨.stb (fieldA w) (fieldB w), by simp [decode, ho, hd, hc, hz, hm, whenReservedZero], rfl⟩
  · have ho : fieldOpc w = 0x0A := fieldOpc_of_masked h (by decide)
    have hb : fieldB w = 0 := field_zero_of_masked (o := 0x0A) h (by decide) (by decide)
    have hc : fieldC w = 0 := field_zero_of_masked (o := 0x0A) h (by decide) (by decide)
    have hz : fieldZ w = 0 := field_zero_of_masked (o := 0x0A) h (by decide) (by decide)
    rw [and_0x3F_toNat]
    split
    next hlen => simp [decode, ho, hb, hc, hz, hlen.not_ge]
    next hlen => exact ⟨.hdrx (fieldD w) (fieldA w) (fieldM w), by simp [decode, ho, hb, hc, hz, not_lt.mp hlen], rfl⟩
  · obtain ⟨ho, hc, hz, hm⟩ := checked_of_maskDAB (o := 0x10) h
    exact ⟨.ksb (fieldD w) (fieldA w) (fieldB w), by simp [decode, ho, hc, hz, hm, whenReservedZero], rfl⟩
  · obtain ⟨ho, hc, hz, hm⟩ := checked_of_maskDAB (o := 0x11) h
    exact ⟨.xor (fieldD w) (fieldA w) (fieldB w), by simp [decode, ho, hc, hz, hm, whenReservedZero], rfl⟩
  · obtain ⟨ho, hc, hz, hm⟩ := checked_of_maskDAB (o := 0x12) h
    exact ⟨.xors (fieldD w) (fieldA w) (fieldB w), by simp [decode, ho, hc, hz, hm, whenReservedZero], rfl⟩
  · obtain ⟨ho, hc, hz, hm⟩ := checked_of_maskDAB (o := 0x18) h
    exact ⟨.rotr (fieldD w) (fieldA w) (fieldB w), by simp [decode, ho, hc, hz, hm, whenReservedZero], rfl⟩
  · obtain ⟨ho, hc, hz, hm⟩ := checked_of_maskDAB (o := 0x19) h
    exact ⟨.drv (fieldD w) (fieldA w) (fieldB w), by simp [decode, ho, hc, hz, hm, whenReservedZero], rfl⟩
  · obtain ⟨ho, hframe⟩ := decodeFrame_of_mask (o := 0x20) .fenc h
    exact ⟨.fenc (w.getLsbD 0), by simpa [decode, ho] using hframe, rfl⟩
  · obtain ⟨ho, hframe⟩ := decodeFrame_of_mask (o := 0x21) .fdec h
    exact ⟨.fdec (w.getLsbD 0), by simpa [decode, ho] using hframe, rfl⟩
  · obtain ⟨ho, hframe⟩ := decodeFrame_of_mask (o := 0x22) .penc h
    exact ⟨.penc (w.getLsbD 0), by simpa [decode, ho] using hframe, rfl⟩
  · obtain ⟨ho, hframe⟩ := decodeFrame_of_mask (o := 0x23) .pdec h
    exact ⟨.pdec (w.getLsbD 0), by simpa [decode, ho] using hframe, rfl⟩
  · have ho : fieldOpc w = 0x28 := fieldOpc_of_masked h (by decide)
    have hz : fieldZ w = 0 := field_zero_of_masked (o := 0x28) h (by decide) (by decide)
    have hm : fieldM w = 0 := field_zero_of_masked (o := 0x28) h (by decide) (by decide)
    exact ⟨.cut (fieldD w) (fieldA w) (fieldB w) (fieldC w), by simp [decode, ho, hz, hm, whenReservedZero], rfl⟩
  · obtain ⟨ho, hc, hz, hm⟩ := checked_of_maskDAB (o := 0x29) h
    exact ⟨.mrg (fieldD w) (fieldA w) (fieldB w), by simp [decode, ho, hc, hz, hm, whenReservedZero], rfl⟩

/-- Settles O3: a legal word is its command's, which fits its row; a row's mask covers the opcode, which tells the rows
apart. -/
theorem decodeFollowsTheOpcodeMap : Obligations.DecodeFollowsTheOpcodeMap := by
  intro w
  refine ⟨fun i h => ?legal, fun r hr h => decode_of_row hr h, fun q hq r hr hwq hwr => ?unique⟩
  case legal =>
    obtain ⟨-, rfl⟩ := legalWordIsTheWordOfItsCommand w i h
    obtain ⟨r, hr, hname, hsel⟩ := encode_fitsRow i
    exact ⟨r, hr, hname, beq_iff_eq.mp hsel⟩
  case unique =>
    exact opcodeTable_opcodes.2 q hq r hr ((fieldOpc_of_row hq hwq).symm.trans (fieldOpc_of_row hr hwr))

/-! ### The operands in their fields (R81) -/

/-- Settles O4: each word is its format's, which is the disjunction of its shifted fields. -/
theorem operandsStandInTheirFields : Obligations.OperandsStandInTheirFields := by
  refine ⟨fun d a b c => ?_, fun d a b => ?_, fun d a => ?_, fun d a h => ?_, fun d imm => ?_, fun f => ?_, rfl⟩
  · simp [encode, formatR_eq_or]
  · simp [encode, formatR_eq_or]
  · simp [encode, formatR_eq_or]
  · simp [encode, formatR_eq_or]
  · simp [encode, formatI_eq_or]
  · cases f <;> decide

end Sys2Proof
end

section
/-! SUPPORT. Every step, once: what a step of the engine is, and that what keeps a predicate of the state keeps it along
every step; settles IllegalWordRaisesIllegalCommand and StepRunsTheDecodedCommand (30_encoding.md rule R93,
70_reset_and_hazards.md rules R260 to R278). -/

namespace Sys2Proof.Machine

/-! ### The engine's step by the word it holds (R93, R270) -/

section
variable {s : State} {w : Word} {acc : List Byte}

theorem engineStep_eq_exec {i : Instr} (he : s.engine = .executing w acc) (hw : decode w = .ok i) :
    engineStep s = exec i s := by
  simp [engineStep, he, runWord, hw]

theorem engineStep_eq_raise {e : DecodeError} (he : s.engine = .executing w acc) (hw : decode w = .error e) :
    engineStep s = .next (s.raiseError w .illegalCommand .none) := by
  simp [engineStep, he, runWord, hw]

end

theorem step_eq_engineStep {s : State} (h : s.inputs = []) : step s = engineStep s := by
  simp [step, h]

theorem step_eq_handleEvent {s : State} {e : Event} {rest : List Event} (h : s.inputs = e :: rest) :
    step s = handleEvent e { s with inputs := rest } := by
  simp [step, h]

/-- An illegal word clears no frame flag, so its error entry is `Raised` whatever its opcode (R93, R222). -/
theorem raised_illegalCommand (s : State) (w : Word) : Raised s (s.raiseError w .illegalCommand .none) 0x7 w := by
  have hinfo : errInfoWord .illegalCommand .none = 0x7 := by decide
  simp [Raised, State.raiseError, hinfo]

/-- Settles O6: with nothing scheduled the step is the engine's, which raises before it reads anything. -/
theorem illegalWordRaisesIllegalCommand : Obligations.IllegalWordRaisesIllegalCommand := by
  intro s w acc e hin he hw
  exact ⟨_, (step_eq_engineStep hin).trans (engineStep_eq_raise he hw), raised_illegalCommand s w⟩

/-- Settles O7: both schedules lead to the engine's step, at the state with the rest of the inputs. -/
theorem stepRunsTheDecodedCommand : Obligations.StepRunsTheDecodedCommand := by
  intro s w acc i he hw
  refine ⟨fun hin => ?none, fun rest hin => ?complete⟩
  case none => rw [step_eq_engineStep hin, engineStep_eq_exec he hw]
  case complete =>
    rw [step_eq_handleEvent hin]
    exact engineStep_eq_exec he hw

/-! ### An induction over events -/

/-- A predicate of the state that everything a step is made of keeps: the events of the outside world, the host's writes as
`State.hostWrite_cases` lists them, and the end of a command (70_reset_and_hazards.md rules R260 to R278). -/
structure KeptByEvents (P : State → Prop) : Prop where
  inputs : ∀ {s : State}, P s → ∀ rest, P { s with inputs := rest }
  exec : ∀ {s t : State} {w : Word} {acc : List Byte} {i : Instr},
    P s → s.engine = .executing w acc → decode w = .ok i → exec i s = .next t → P t
  illegal : ∀ {s : State}, P s → ∀ w, P (s.raiseError w .illegalCommand .none)
  softReset : ∀ {s : State}, P s → P s.softReset
  enables : ∀ {s : State}, P s → ∀ d e o, P { s with ieDone := d, ieErr := e, ieOvr := o }
  clearStatus : ∀ {s : State}, P s → ∀ v, P (s.clearStatus v)
  drop : ∀ {s : State}, P s → P s.drop
  accept : ∀ {s : State}, P s → s.resetPin = false → s.stErr = false → ∀ w, P { s with engine := .executing w [] }
  scalar : ∀ {s : State}, P s → s.engine = .idle → ∀ n v, P (s.writeScalar n v)
  byte : ∀ {s : State}, P s → ∀ a < s.params.dmemBytes, ∀ b, P (s.writeBytes a [b])
  reply : ∀ {s : State}, P s → ∀ r n, P { s with busReply := r, draws := n }
  providerAnswer : ∀ {s : State}, P s → P s.providerAnswer
  providerLive : ∀ {s : State}, P s → ∀ on, P { s with providerLive := on }
  assertReset : ∀ {s : State}, P s → P { s with resetPin := true, engine := .idle }
  hardwareReset : ∀ {s : State}, P s → P s.hardwareReset

namespace KeptByEvents
variable {P : State → Prop} (k : KeptByEvents P)
include k

theorem hostWrite {s : State} (h : P s) (off : HostOffset) (width : AccessWidth) (v : Word) :
    P (s.hostWrite off width v) := by
  rcases s.hostWrite_cases off width v with
    hs | ⟨hpin, hs | hs | hs | hs | ⟨-, herr, hs⟩ | ⟨hidle, n, hs⟩ | ⟨-, a, ha, hs⟩⟩ <;> rw [hs]
  · exact h
  · exact k.softReset h
  · exact k.enables h _ _ _
  · exact k.clearStatus h v
  · exact k.drop h
  · exact k.accept h hpin herr v
  · exact k.scalar h (State.busy_false_iff.mp hidle) n v
  · exact k.byte h a ha _

theorem access {s : State} (h : P s) (a : HostAccess) : P (s.access a) := by
  rcases s.access_cases a with ⟨off, width, v, -, hs⟩ | ⟨r, n, hs⟩ <;> rw [hs]
  · exact k.hostWrite h off width v
  · exact k.reply h _ _

theorem clearWith {s : State} (h : P s) (v : Word) (a : HostAccess) : P (s.clearWith v a) := by
  have hwrite : P ((s.access a).hostWrite 0x008 .w32 v) := k.hostWrite (k.access h a) _ _ v
  unfold State.clearWith
  split
  · exact k.drop hwrite
  · exact hwrite

theorem engineStep {s t : State} (h : P s) (ht : engineStep s = .next t) : P t := by
  unfold Machine.engineStep at ht
  split at ht
  next => cases ht; exact h
  next w acc he =>
    unfold runWord at ht
    split at ht
    next i hi => exact k.exec h he hi ht
    next => cases ht; exact k.illegal h w

theorem completeWith {s t : State} (h : P s) (a : HostAccess) (ht : s.completeWith a = .next t) : P t := by
  unfold State.completeWith at ht
  split at ht
  · exact k.engineStep (k.access h a) ht
  · cases hend : Machine.engineStep s with
    | next u =>
      rw [hend] at ht
      cases ht
      exact k.access (k.engineStep h hend) a
    | fault r | refused r => rw [hend] at ht; cases ht

theorem handleEvent {s t : State} (h : P s) (e : Event) (ht : handleEvent e s = .next t) : P t := by
  cases e with
  | access a => cases ht; exact k.access h a
  | complete => exact k.engineStep h ht
  | completeWith a => exact k.completeWith h a ht
  | clearWith v a => cases ht; exact k.clearWith h v a
  | providerAnswer => cases ht; exact k.providerAnswer h
  | providerLive on => cases ht; exact k.providerLive h on
  | assertReset => cases ht; exact k.assertReset h
  | releaseReset =>
    cases ht
    split
    · exact k.hardwareReset h
    · exact h

/-- A step keeps what every event keeps. -/
theorem step {s t : State} (h : P s) (ht : step s = .next t) : P t := by
  unfold Machine.step at ht
  split at ht
  · exact k.engineStep h ht
  · exact k.handleEvent (k.inputs h _) _ ht

end KeptByEvents

end Sys2Proof.Machine
end

section
/-! SUPPORT. The derivation in progress: settles EveryStepKeepsTheAccumulatorHonest, EarlierAnswersDoNotChangeTheResult,
ProviderRequestsAreCounted, UnavailableEndsTheCommand, DeriveIsTheLoop and DerivedBytesAreHexDigits (43_hashchain.md rules
R160 to R169, 70_reset_and_hazards.md rule R275). -/
namespace Sys2Proof.Machine

/-! ### The accumulator and the outstanding request (R46, R237) -/

theorem State.accHonest_of_idle {s : State} (h : s.engine = .idle) : s.AccHonest := by
  simp [State.AccHonest, h]

theorem State.accHonest_iff {s : State} {w : Word} {acc : List Byte} (he : s.engine = .executing w acc) :
    s.AccHonest ↔ acc = [] ∨ ∃ i seed n, decode w = .ok i ∧ derivationOf i s = some (seed, n) ∧
      acc.length ≤ deriveRequests n ∧ derivePasses s.params.hashFirst seed acc.length [] = some acc := by
  simp only [State.AccHonest, he]

/-- Honesty asks for the engine, the registers and the parameters only. -/
theorem State.AccHonest.congr {s t : State} (h : s.AccHonest) (he : t.engine = s.engine) (hb : t.bufs = s.bufs)
    (hc : t.scalars = s.scalars) (hp : t.params = s.params) : t.AccHonest := by
  cases hs : s.engine with
  | idle => exact State.accHonest_of_idle (he.trans hs)
  | executing w acc =>
    rw [State.accHonest_iff hs] at h
    rw [State.accHonest_iff (he.trans hs), hp]
    simpa only [derivationOf_congr hb hc hp] using h

/-- The request of a legal word is the next one of its derivation, while one is missing (R166, R237). -/
theorem State.request_eq {s : State} {w : Word} {acc : List Byte} {i : Instr} (he : s.engine = .executing w acc)
    (hw : decode w = .ok i) :
    s.request = (derivationOf i s).bind fun o =>
      if acc.length < deriveRequests o.2 then some (i, deriveRequest o.1 acc) else none := by
  unfold State.request
  simp only [he, hw]
  cases derivationOf i s <;> rfl

/-- When a request is outstanding, and which (R166, R237). -/
theorem State.request_some {s : State} {w : Word} {acc : List Byte} (he : s.engine = .executing w acc) {i : Instr}
    {alg : HashAlg} {m : List Byte} (h : s.request = some (i, alg, m)) :
    decode w = .ok i ∧ ∃ seed n, derivationOf i s = some (seed, n) ∧ acc.length < deriveRequests n ∧
      deriveRequest seed acc = (alg, m) := by
  cases hw : decode w with
  | error e => simp [State.request, he, hw] at h
  | ok j =>
    rw [State.request_eq he hw, Option.bind_eq_some_iff] at h
    obtain ⟨⟨seed, n⟩, hd, hreq⟩ := h
    simp only [Option.ite_none_right_eq_some, Option.some.injEq, Prod.mk.injEq] at hreq
    obtain ⟨hlt, rfl, hreq⟩ := hreq
    exact ⟨rfl, seed, n, hd, hlt, hreq⟩

/-- One more request of a derivation (R166). -/
theorem derivePasses_succ (hash : HashAlg → List Byte → Option Byte) (seed : List Byte) (j : Nat) :
    derivePasses hash seed (j + 1) [] = (derivePasses hash seed j []).bind fun acc =>
      (hash (deriveRequest seed acc).1 (deriveRequest seed acc).2).map (deriveAbsorb acc) := by
  rw [derivePasses_add]
  congr 1
  funext acc
  cases h : hash (deriveRequest seed acc).1 (deriveRequest seed acc).2 <;> simp [derivePasses, h]

/-- What a command derives does not depend on what the engine holds (R167, R182). -/
theorem derivationOf_engine (i : Instr) (s : State) (e : Engine) :
    derivationOf i { s with engine := e } = derivationOf i s :=
  derivationOf_congr rfl rfl rfl i

/-! ### Honesty along a step -/

/-- An answer to a request of an honest accumulator makes it one request longer (R166). -/
theorem State.AccHonest.providerAnswer {s : State} (h : s.AccHonest) : s.providerAnswer.AccHonest := by
  rcases s.providerAnswer_cases with hs | ⟨i, alg, m, hreq, ⟨-, hs⟩ | ⟨c, w, acc, hc, he, hs⟩⟩ <;> rw [hs]
  case inl => exact h
  case inr.inl => exact State.accHonest_of_idle (by unfold State.raiseFor; split <;> rfl)
  case inr.inr =>
    obtain ⟨hw, seed, n, hd, hlt, hreq⟩ := State.request_some he hreq
    have hpass : derivePasses s.params.hashFirst seed acc.length [] = some acc := by
      rcases (State.accHonest_iff he).mp h with rfl | ⟨i', seed', n', hw', hd', -, hpass⟩
      · rfl
      · obtain rfl : i = i' := by simpa [hw] using hw'
        rw [hd] at hd'
        cases hd'
        exact hpass
    refine (State.accHonest_iff rfl).mpr (.inr ⟨i, seed, n, hw, ?derivation, ?bound, ?passes⟩)
    case derivation => rwa [derivationOf_engine]
    case bound => rw [deriveAbsorb_length]; omega
    case passes => simp [deriveAbsorb_length, derivePasses_succ, hpass, hreq, hc]

theorem accHonest_kept : KeptByEvents State.AccHonest where
  inputs h _ := h.congr rfl rfl rfl rfl
  exec h he hw hexec := by
    rcases exec_idle_or_same hexec with hidle | rfl
    · exact State.accHonest_of_idle hidle
    · exact h
  illegal _ _ := State.accHonest_of_idle rfl
  softReset _ := State.accHonest_of_idle rfl
  enables h _ _ _ := h.congr rfl rfl rfl rfl
  clearStatus h _ := h.congr rfl rfl rfl rfl
  drop h := h.congr rfl rfl rfl rfl
  accept _ _ _ _ := (State.accHonest_iff rfl).mpr (.inl rfl)
  scalar _ hidle _ _ := State.accHonest_of_idle hidle
  byte h _ _ _ := h.congr rfl rfl rfl rfl
  reply h _ _ := h.congr rfl rfl rfl rfl
  providerAnswer h := h.providerAnswer
  providerLive h _ := h.congr rfl rfl rfl rfl
  assertReset _ := State.accHonest_of_idle rfl
  hardwareReset _ := State.accHonest_of_idle rfl

/-- Settles O30: only a provider's answer changes an accumulator, and it makes the request the derivation makes next; every
other step ends the command, starts one, or leaves engine and registers. -/
theorem everyStepKeepsTheAccumulatorHonest : Obligations.EveryStepKeepsTheAccumulatorHonest :=
  fun _ _ h hstep => accHonest_kept.step h hstep

/-! ### The provider's answers: how many, and an UNAVAILABLE one (R162, R275) -/

theorem toOption_eq_some {α : Type} {x : Except Stop α} {a : α} : x.toOption = some a ↔ x = .ok a := by
  cases x <;> simp [Except.toOption]

theorem derivationOf_drv {d a : BufReg} {b : ScalReg} {s : State} {o : List Byte × Nat} :
    derivationOf (.drv d a b) s = some o ↔ drvSeed a b s = .ok o :=
  toOption_eq_some

theorem derivationOf_fenc {s : State} {o : List Byte × Nat} :
    derivationOf (.fenc false) s = some o ↔
      ∃ shape, s.frameCheck decodedReg = .ok shape ∧ (bytesOf shape.payload, shape.fillerLen) = o := by
  simp only [derivationOf, Option.map_eq_some_iff, toOption_eq_some]

theorem derivationOf_fdec {s : State} {o : List Byte × Nat} :
    derivationOf (.fdec false) s = some o ↔
      ∃ shape, s.frameCheck encodedReg = .ok shape ∧ (bytesOf shape.payload, shape.fillerLen) = o := by
  simp only [derivationOf, Option.map_eq_some_iff, toOption_eq_some]

/-- Only DRV and the frame commands with F = 0 derive (R275). -/
theorem derivationOf_none {i : Instr} {s : State} (hdrv : ∀ d a b, i ≠ .drv d a b) (hfenc : i ≠ .fenc false)
    (hfdec : i ≠ .fdec false) : derivationOf i s = none := by
  cases i with
  | drv d a b => exact absurd rfl (hdrv d a b)
  | fenc f => cases f with
    | false => exact absurd rfl hfenc
    | true => rfl
  | fdec f => cases f with
    | false => exact absurd rfl hfdec
    | true => rfl
  | _ => rfl

theorem State.providerAnswer_of_no_request {s : State} (h : s.request = none) : s.providerAnswer = s := by
  unfold State.providerAnswer
  split
  · rfl
  · rw [h]

theorem State.providerAnswer_of_unavailable {s : State} {i : Instr} {alg : HashAlg} {m : List Byte}
    (hlive : s.providerLive = true) (hreq : s.request = some (i, alg, m)) (h : s.params.hashFirst alg m = none) :
    s.providerAnswer = s.raiseFor i .hashUnavailable := by
  simp [State.providerAnswer, hlive, hreq, h]

theorem State.providerAnswer_of_available {s : State} {w : Word} {acc : List Byte} {i : Instr} {alg : HashAlg}
    {m : List Byte} {c : Byte} (he : s.engine = .executing w acc) (hlive : s.providerLive = true)
    (hreq : s.request = some (i, alg, m)) (h : s.params.hashFirst alg m = some c) :
    s.providerAnswer = { s with engine := .executing w (deriveAbsorb acc c) } := by
  simp [State.providerAnswer, hlive, hreq, h, he]

section
variable {s : State} {w : Word} {i : Instr}

theorem State.request_none (he : s.engine = .executing w []) (hw : decode w = .ok i)
    (h : ∀ o, derivationOf i s ≠ some o) : s.request = none := by
  rw [State.request_eq he hw, Option.eq_none_iff_forall_ne_some.mpr h]
  rfl

/-- A derivation starts with MD2 of its seed (R166). -/
theorem State.request_first {seed : List Byte} {n : Nat} (he : s.engine = .executing w []) (hw : decode w = .ok i)
    (hd : derivationOf i s = some (seed, n)) : s.request = some (i, .md2, seed) := by
  rw [State.request_eq he hw, hd]
  have hpos : 0 < deriveRequests n := by unfold deriveRequests; omega
  simp [hpos, deriveRequest]

/-- Each answer makes the accumulator one longer, until no request is outstanding (R166, R275). -/
theorem State.providerAnswer_iterate {seed : List Byte} {n : Nat} (he : s.engine = .executing w [])
    (hw : decode w = .ok i) (hd : derivationOf i s = some (seed, n)) (hall : s.providerAnswersAll) (j : Nat) :
    ∃ acc, State.providerAnswer^[j] s = { s with engine := .executing w acc } ∧ acc.length = min j (deriveRequests n) := by
  obtain ⟨hlive, havail⟩ := hall
  induction j with
  | zero => exact ⟨[], by rw [← he]; rfl, by simp⟩
  | succ j ih =>
    obtain ⟨acc, hs, hlen⟩ := ih
    rw [Function.iterate_succ_apply', hs]
    have hreq := State.request_eq (s := { s with engine := .executing w acc }) rfl hw
    rw [derivationOf_engine, hd, Option.bind_some] at hreq
    by_cases hmore : acc.length < deriveRequests n
    · rw [if_pos hmore] at hreq
      obtain ⟨c, hc⟩ := Option.ne_none_iff_exists'.mp (havail (deriveRequest seed acc).1 (deriveRequest seed acc).2)
      refine ⟨deriveAbsorb acc c, State.providerAnswer_of_available rfl hlive hreq hc, ?_⟩
      rw [deriveAbsorb_length]
      omega
    · rw [if_neg hmore] at hreq
      exact ⟨acc, State.providerAnswer_of_no_request hreq, by omega⟩

/-- A derivation of `n` bytes makes its requests and no more (R275). -/
theorem State.makesRequests {seed : List Byte} {n : Nat} (he : s.engine = .executing w []) (hw : decode w = .ok i)
    (hd : derivationOf i s = some (seed, n)) (hall : s.providerAnswersAll) :
    s.MakesRequests (if n ≤ 1 then 1 else n) := by
  intro j
  obtain ⟨acc, hs, hlen⟩ := State.providerAnswer_iterate he hw hd hall j
  have hcount : (if n ≤ 1 then 1 else n) = deriveRequests n := by unfold deriveRequests; split <;> omega
  rw [hs, State.request_eq rfl hw, derivationOf_engine, hd, hcount]
  simp only [Option.bind_some, ite_eq_right_iff, reduceCtorEq, imp_false, not_lt, hlen]
  omega

end

/-- The shape frameCheck answers, for a frame whose payload and key are given (R181). -/
theorem frameCheck_ok_frameReady {s : State} {x : BufReg} {shape : FrameShape} (h : s.frameCheck x = .ok shape) :
    FrameReady s x shape.payload shape.key := by
  obtain ⟨hp, hk, hne, h1, h2, h3, h4, -⟩ := frameCheck_ok.mp h
  exact ⟨hp, hk, hne, h1, h2, h3, h4⟩

/-- FENC and FDEC with F = 0 derive exactly where their frame checks pass (R182). -/
theorem derivationOf_frame {s : State} {i : Instr} {x : BufReg}
    (hi : (i = .fenc false ∧ x = 0) ∨ (i = .fdec false ∧ x = 2)) {o : List Byte × Nat} :
    derivationOf i s = some o ↔ ∃ shape, s.frameCheck x = .ok shape ∧ (bytesOf shape.payload, shape.fillerLen) = o := by
  rcases hi with ⟨rfl, rfl⟩ | ⟨rfl, rfl⟩
  · exact derivationOf_fenc
  · exact derivationOf_fdec

/-- Settles O27: a request is outstanding where the derivation of the command has one to make, and each answer makes one. -/
theorem providerRequestsAreCounted : Obligations.ProviderRequestsAreCounted := by
  intro s w i he hw
  refine ⟨?drv, ?frame, ?other⟩
  case drv =>
    rintro d a b n rfl hn
    obtain rfl : s.number b = n := hn
    have hsome {o} := derivationOf_drv (d := d) (a := a) (b := b) (s := s) (o := o)
    refine ⟨fun hv => State.request_none he hw fun o ho => ?absent, fun v hv =>
      ⟨fun hbad => ?refused, fun hlen hcap => ?made⟩⟩
    case absent =>
      obtain ⟨v, hv', -⟩ := drvSeed_ok.mp (hsome.mp ho)
      simp [hv] at hv'
    case refused =>
      refine State.request_none he hw fun o ho => ?_
      obtain ⟨v', hv', hlen, hcap, -⟩ := drvSeed_ok.mp (hsome.mp ho)
      obtain rfl : v = v' := by simpa [hv] using hv'
      omega
    case made =>
      have hd := hsome.mpr (drvSeed_ok.mpr ⟨v, hv, hlen, hcap, rfl⟩)
      exact ⟨State.request_first he hw hd, State.makesRequests he hw hd⟩
  case frame =>
    intro x hi
    refine ⟨fun hnot => State.request_none he hw fun o ho => ?unready, ?ready⟩
    case unready =>
      obtain ⟨shape, hshape, -⟩ := (derivationOf_frame hi).mp ho
      exact hnot _ _ (frameCheck_ok_frameReady hshape)
    case ready =>
      rintro p k n hready rfl
      have hd := (derivationOf_frame hi).mpr ⟨_, frameCheck_frameShape.mpr hready, rfl⟩
      exact ⟨State.request_first he hw hd, State.makesRequests he hw hd⟩
  case other =>
    intro hdrv hfenc hfdec
    exact State.request_none he hw fun o => by simp [derivationOf_none hdrv hfenc hfdec]

/-! ### The character of a digest (R160, R162) -/

theorem digestLength_pos (alg : HashAlg) : 0 < digestLength alg := by cases alg <;> decide

theorem hashFirst_eq_none_iff (p : Params) (alg : HashAlg) (m : List Byte) :
    p.hashFirst alg m = none ↔ p.unavailable.contains alg = true := by
  simp [Params.hashFirst, Params.digest]

/-- The digest of an available algorithm, and the character the derivation takes of it (R160, R162). -/
theorem hashFirst_of_available {p : Params} {alg : HashAlg} (m : List Byte) (h : p.unavailable.contains alg = false) :
    ∃ g0 gs, p.digest alg m = some (g0 :: gs) ∧ gs.length + 1 = digestLength alg ∧
      p.hashFirst alg m = some (hexChar p.hexUpper (g0 >>> 4).toNat) := by
  cases hg : p.digest alg m with
  | none =>
    have hnone : p.hashFirst alg m = none := by simp [Params.hashFirst, hg]
    rw [hashFirst_eq_none_iff, h] at hnone
    cases hnone
  | some g =>
    have hlen := digest_length hg
    cases g with
    | nil => exact absurd hlen.symm (digestLength_pos alg).ne'
    | cons g0 gs =>
      refine ⟨g0, gs, rfl, hlen, ?_⟩
      simp [Params.hashFirst, hg, BitVec.toNat_ushiftRight, Nat.shiftRight_eq_div_pow]

/-- Settles O28: `hashFirst` has no character of an unavailable algorithm, and the answer is then the command's error
entry. -/
theorem unavailableEndsTheCommand : Obligations.UnavailableEndsTheCommand := by
  intro s i alg m hlive hreq hun
  have hinfo : infoFor i .hashUnavailable = if isFrameCommand i then 0x45 else 0x4 := rfl
  rw [State.providerAnswer_of_unavailable hlive hreq ((hashFirst_eq_none_iff _ _ _).mpr hun), ← hinfo]
  exact raisedBy_raiseFor i s .hashUnavailable

/-! ### What a derivation gives (R166, R168) -/

/-- The character of a digit value below 16, in the provider's case (R11). -/
def IsHexDigit (upper : Bool) (c : Byte) : Prop := ∃ v < 16, c = hexChar upper v

theorem isHexDigit_of_hashFirst {p : Params} {alg : HashAlg} {m : List Byte} {c : Byte}
    (h : p.hashFirst alg m = some c) : IsHexDigit p.hexUpper c := by
  have hav : p.unavailable.contains alg = false := by
    rw [Bool.eq_false_iff, ne_eq, ← hashFirst_eq_none_iff p alg m, h]
    simp
  obtain ⟨g0, -, -, -, hc⟩ := hashFirst_of_available m hav
  refine ⟨(g0 >>> 4).toNat, ?_, by simpa [h] using hc⟩
  rw [BitVec.toNat_ushiftRight, Nat.shiftRight_eq_div_pow]
  omega

theorem mem_of_mem_rotateRight {t : List Byte} {n : Nat} {c : Byte} (h : c ∈ rotateRight t n) : c ∈ t := by
  unfold rotateRight at h
  split at h
  · exact h
  · split at h
    · exact h
    · rcases List.mem_append.mp h with h | h
      · exact List.mem_of_mem_drop h
      · exact List.mem_of_mem_take h

theorem mem_of_mem_deriveAbsorb {acc : List Byte} {c x : Byte} (h : x ∈ deriveAbsorb acc c) : x ∈ acc ∨ x = c := by
  cases acc with
  | nil => exact .inr (List.mem_singleton.mp h)
  | cons c0 cs => simpa [or_assoc] using mem_of_mem_rotateRight h

/-- Every byte of an accumulator is an answer of the provider. -/
theorem derivePasses_isHexDigit {p : Params} {seed acc out : List Byte} {k : Nat}
    (hacc : ∀ c ∈ acc, IsHexDigit p.hexUpper c) (h : derivePasses p.hashFirst seed k acc = some out) :
    ∀ c ∈ out, IsHexDigit p.hexUpper c := by
  induction k generalizing acc with
  | zero =>
    cases h
    exact hacc
  | succ k ih =>
    simp only [derivePasses] at h
    split at h
    next => cases h
    next c hc =>
      refine ih (fun x hx => ?_) h
      rcases mem_of_mem_deriveAbsorb hx with hx | rfl
      · exact hacc x hx
      · exact isHexDigit_of_hashFirst hc

/-- What `derive` gives: the first `n` bytes of the accumulator after its requests (R166). -/
theorem derive_eq_some {hash : HashAlg → List Byte → Option Byte} {seed out : List Byte} {n : Nat} :
    derive hash seed n = some out ↔
      ∃ acc, derivePasses hash seed (deriveRequests n) [] = some acc ∧ acc.take n = out :=
  Option.map_eq_some_iff

/-- Settles O25: the character is that of the digest's first byte, and every byte derived is such a character. -/
theorem derivedBytesAreHexDigits : Obligations.DerivedBytesAreHexDigits := by
  refine ⟨fun p alg m => ⟨hashFirst_eq_none_iff p alg m, hashFirst_of_available m⟩, fun p seed out n h => ?_⟩
  obtain ⟨acc, hacc, rfl⟩ := derive_eq_some.mp h
  exact ⟨derive_length h, fun c hc => derivePasses_isHexDigit (by simp) hacc c (List.mem_of_mem_take hc)⟩

/-! ### The derivation as the loop of its rule (R166) -/

section
variable {hash : HashAlg → List Byte → Option Byte} {seed : List Byte}

theorem derivePasses_succ_eq_some {j : Nat} {out : List Byte} :
    derivePasses hash seed (j + 1) [] = some out ↔ ∃ acc, derivePasses hash seed j [] = some acc ∧
      ∃ c, hash (deriveRequest seed acc).1 (deriveRequest seed acc).2 = some c ∧ deriveAbsorb acc c = out := by
  simp only [derivePasses_succ, Option.bind_eq_some_iff, Option.map_eq_some_iff]

theorem derivePasses_one_eq_some {out : List Byte} :
    derivePasses hash seed 1 [] = some out ↔ ∃ c, hash .md2 seed = some c ∧ out = [c] := by
  rw [show (1 : Nat) = 0 + 1 from rfl, derivePasses_succ_eq_some]
  simp [derivePasses, deriveRequest, deriveAbsorb, eq_comm (a := out)]

/-- The accumulator of a derivation after `j` of its requests. -/
def accumulatorAfter (hash : HashAlg → List Byte → Option Byte) (seed : List Byte) (j : Nat) : List Byte :=
  (derivePasses hash seed j []).getD []

/-- A derivation that was answered throughout was answered up to each of its requests. -/
theorem derivePasses_accumulatorAfter {j k : Nat} {out : List Byte} (hjk : j ≤ k)
    (h : derivePasses hash seed k [] = some out) : derivePasses hash seed j [] = some (accumulatorAfter hash seed j) := by
  rw [show k = j + (k - j) by omega, derivePasses_add, Option.bind_eq_some_iff] at h
  obtain ⟨acc, hacc, -⟩ := h
  rw [accumulatorAfter, hacc, Option.getD_some]

/-- One pass of the loop, on an accumulator that is not empty (R166). -/
theorem derivePasses_pass {j : Nat} {out acc : List Byte} {c0 : Byte} (hacc : derivePasses hash seed j [] = some acc)
    (hhead : acc.head? = some c0) :
    derivePasses hash seed (j + 1) [] = some out ↔
      ∃ c, hash (algOf c0) (acc ++ seed) = some c ∧ out = rotateRight (acc ++ [c]) (hexValue c0) := by
  obtain ⟨cs, rfl⟩ : ∃ cs, acc = c0 :: cs := ⟨acc.tail, (List.cons_head?_tail hhead).symm⟩
  simp [derivePasses_succ_eq_some, hacc, deriveRequest, deriveAbsorb, eq_comm (a := out)]

end

/-- Settles O24: the accumulators of the loop are those after each request, and where the loop runs it gives them. -/
theorem deriveIsTheLoop : Obligations.DeriveIsTheLoop := by
  intro hash seed out n
  rw [derive_eq_some]
  constructor
  case mp =>
    rintro ⟨last, hlast, rfl⟩
    have hafter {j : Nat} (hj : j ≤ max 1 n) := derivePasses_accumulatorAfter (j := j) hj hlast
    refine ⟨accumulatorAfter hash seed, derivePasses_one_eq_some.mp (hafter (by omega)), fun m h1 hm => ?pass, ?result⟩
    case pass =>
      have hacc := hafter (j := m) (by omega)
      have hlen := derivePasses_length hacc
      obtain ⟨c0, hhead⟩ : ∃ c0, (accumulatorAfter hash seed m).head? = some c0 := by
        rw [← Option.isSome_iff_exists, List.isSome_head?]
        exact List.ne_nil_of_length_pos (by simp at hlen; omega)
      obtain ⟨c, hc, hnext⟩ := (derivePasses_pass hacc hhead).mp (hafter (j := m + 1) (by omega))
      exact ⟨c0, c, hhead, hc, hnext⟩
    case result =>
      have hmax := hafter (le_refl (max 1 n))
      rw [deriveRequests, hmax, Option.some.injEq] at hlast
      rw [hlast]
  case mpr =>
    rintro ⟨acc, hfirst, hpass, rfl⟩
    have hacc : ∀ m, 1 ≤ m → m ≤ max 1 n → derivePasses hash seed m [] = some (acc m) := by
      intro m h1
      induction m, h1 using Nat.le_induction with
      | base => exact fun _ => derivePasses_one_eq_some.mpr hfirst
      | succ m h1 ih =>
        intro hm
        obtain ⟨c0, c, hhead, hc, hnext⟩ := hpass m h1 (by omega)
        exact (derivePasses_pass (ih (by omega)) hhead).mpr ⟨c, hc, hnext⟩
    exact ⟨_, hacc (max 1 n) (by omega) (le_refl _), rfl⟩

/-! ### The end of a command and the answers it had (R166, R169) -/

/-- Completion and error entry clear the engine, so what the engine held does not show in the end of a command. -/
theorem finish_engine {i : Instr} {s : State} {r : Except Stop State} (e : Engine) (h : r ≠ .error .waiting) :
    finish i { s with engine := e } (r.map fun u => { u with engine := e }) = finish i s r := by
  match r with
  | .ok u => rfl
  | .error (.raise err) =>
    simp only [Except.map, finish, State.raiseFor]
    split <;> rfl
  | .error .waiting => exact absurd rfl h

/-- From an honest accumulator the derivation ends as from none (R166). -/
theorem runDerivation_of_honest {s : State} {w : Word} {acc seed : List Byte} {n : Nat}
    (he : s.engine = .executing w acc) (hlive : s.providerLive = true) (hle : acc.length ≤ deriveRequests n)
    (hpass : derivePasses s.params.hashFirst seed acc.length [] = some acc) :
    ({ s with engine := .executing w [] } : State).runDerivation seed n = s.runDerivation seed n := by
  simp [State.runDerivation, Engine.accumulator, he, hlive, derivePasses_resume hle hpass]

theorem runDerivation_ne_waiting {s : State} (hlive : s.providerLive = true) (seed : List Byte) (n : Nat) :
    s.runDerivation seed n ≠ .error .waiting := by
  rw [ne_eq, runDerivation_waiting, hlive]
  simp

/-- Two states that differ in the engine only end a derivation alike, where it ends alike (R166). -/
theorem finish_derivation_engine {i : Instr} {s : State} {e : Engine} {seed : List Byte} {n : Nat}
    {f g : List Byte → Except Stop State}
    (hrun : ({ s with engine := e } : State).runDerivation seed n = s.runDerivation seed n)
    (hwait : s.runDerivation seed n ≠ .error .waiting) (hf : ∀ t, f t ≠ .error .waiting)
    (hg : ∀ t, g t = (f t).map fun u => { u with engine := e }) :
    finish i { s with engine := e } (({ s with engine := e } : State).runDerivation seed n >>= g) =
      finish i s (s.runDerivation seed n >>= f) := by
  rw [hrun]
  cases hr : s.runDerivation seed n with
  | ok t => rw [except_ok_bind, except_ok_bind, hg, finish_engine e (hf t)]
  | error x =>
    rw [hr] at hwait
    exact finish_engine (r := .error x) e (by simpa using hwait)

/-! The commands that derive, from their derivation on (R167, R183, R184). -/

section
variable {s : State}

theorem exec_drv_eq {d a : BufReg} {b : ScalReg} {o : List Byte × Nat} (h : drvSeed a b s = .ok o) :
    exec (.drv d a b) s =
      finish (.drv d a b) s (s.runDerivation o.1 o.2 >>= fun t => .ok (s.writeBuf d (some (toBits t)))) := by
  simp only [exec, execDrv, h, except_ok_bind]
  rfl

/-- What FENC does with its filler: the check of the header after the XOR, and the write (R183). -/
def State.encodeFrame (s : State) (shape : FrameShape) (filler : Bits) : Except Stop State := do
  require (decide (8 * uint (slice (frameXor shape filler) 0 32) ≤ (frameXor shape filler).length)) .length
  return s.writeEncoded (slice (frameXor shape filler)
    ((frameXor shape filler).length - 8 * uint (slice (frameXor shape filler) 0 32)) (frameXor shape filler).length)

theorem exec_fenc_eq {f : Bool} {shape : FrameShape} (h : s.frameCheck decodedReg = .ok shape) :
    exec (.fenc f) s = finish (.fenc f) s (s.fillerOf f shape >>= s.encodeFrame shape) := by
  simp only [exec, execFenc, h, except_ok_bind]
  rfl

theorem exec_fdec_eq {f : Bool} {shape : FrameShape} (h : s.frameCheck encodedReg = .ok shape) :
    exec (.fdec f) s =
      finish (.fdec f) s (s.fillerOf f shape >>= fun filler => .ok (s.writeDecoded (frameXor shape filler))) := by
  simp only [exec, execFdec, h, except_ok_bind]
  rfl

/-- The derived filler is the derivation from the payload (R182). -/
theorem fillerOf_false_bind {shape : FrameShape} (f : Bits → Except Stop State) :
    s.fillerOf false shape >>= f =
      s.runDerivation (bytesOf shape.payload) shape.fillerLen >>= fun t => f (toBits t) := by
  unfold State.fillerOf
  cases s.runDerivation (bytesOf shape.payload) shape.fillerLen <;> rfl

theorem encodeFrame_ne_waiting (shape : FrameShape) (filler : Bits) : s.encodeFrame shape filler ≠ .error .waiting := by
  simp [State.encodeFrame, except_bind_error, require_error]

theorem encodeFrame_engine (e : Engine) (shape : FrameShape) (filler : Bits) :
    ({ s with engine := e } : State).encodeFrame shape filler =
      (s.encodeFrame shape filler).map fun u => { u with engine := e } := by
  unfold State.encodeFrame require
  split <;> rfl

end

/-- The end of a command that derives does not depend on what the engine holds, where its derivation does not. -/
theorem exec_engine_of_derivation {i : Instr} {s : State} {e : Engine} {seed : List Byte} {n : Nat}
    (hd : derivationOf i s = some (seed, n))
    (hrun : ({ s with engine := e } : State).runDerivation seed n = s.runDerivation seed n)
    (hwait : s.runDerivation seed n ≠ .error .waiting) : exec i { s with engine := e } = exec i s := by
  cases i with
  | drv d a b =>
    have hseed := derivationOf_drv.mp hd
    have hseed' : drvSeed a b { s with engine := e } = .ok (seed, n) := hseed
    rw [exec_drv_eq hseed, exec_drv_eq hseed']
    exact finish_derivation_engine hrun hwait (by simp) fun _ => rfl
  | fenc f =>
    cases f with
    | true => cases hd
    | false =>
      obtain ⟨shape, hshape, hseed⟩ := derivationOf_fenc.mp hd
      cases hseed
      have hshape' : ({ s with engine := e } : State).frameCheck decodedReg = .ok shape := hshape
      rw [exec_fenc_eq hshape, exec_fenc_eq hshape', fillerOf_false_bind, fillerOf_false_bind]
      exact finish_derivation_engine hrun hwait (fun _ => encodeFrame_ne_waiting _ _) fun _ => encodeFrame_engine _ _ _
  | fdec f =>
    cases f with
    | true => cases hd
    | false =>
      obtain ⟨shape, hshape, hseed⟩ := derivationOf_fdec.mp hd
      cases hseed
      have hshape' : ({ s with engine := e } : State).frameCheck encodedReg = .ok shape := hshape
      rw [exec_fdec_eq hshape, exec_fdec_eq hshape', fillerOf_false_bind, fillerOf_false_bind]
      exact finish_derivation_engine hrun hwait (by simp) fun _ => rfl
  | _ => cases hd

/-- Settles O29: of all a command does only its derivation reads the accumulator, and a derivation resumed from an honest
one ends as the whole. -/
theorem earlierAnswersDoNotChangeTheResult : Obligations.EarlierAnswersDoNotChangeTheResult := by
  intro s w acc he hhonest hlive
  rcases (State.accHonest_iff he).mp hhonest with rfl | ⟨i, seed, n, hw, hd, hle, hpass⟩
  case inl => rw [← he]
  case inr =>
    have hrun := runDerivation_of_honest he hlive hle hpass
    rw [engineStep_eq_exec he hw, engineStep_eq_exec rfl hw]
    exact (exec_engine_of_derivation hd hrun (runDerivation_ne_waiting hlive seed n)).symm

end Sys2Proof.Machine
end

section
/-! SUPPORT. How a command ends, and what every step keeps: settles EveryCommandCompletesOrRaisesPrecisely,
EveryStepKeepsTheInvariant, ResetStateIsLegal and NoStepStopsOrChangesTheParameters (60_exceptions.md rules R222, R229 and
R230, 10_state.md rules R21 to R28, 20_memory.md rule R60). -/

namespace Sys2Proof.Machine

/-! ### What a command may write (R225) -/

/-- A value a command may put in a buffer register: within capacity, where the registers are (R21). -/
def State.Fits (s : State) (v : Bits) : Prop := s.Inv → v.length ≤ s.params.maxlen

theorem fits_of_buf {s : State} {r : BufReg} {u v : Bits} (hu : s.buf r = some u) (h : v.length ≤ u.length) : s.Fits v :=
  fun hinv => h.trans (hinv.buf_fits r u hu)

theorem fits_of_le {s : State} {v : Bits} (h : v.length ≤ s.params.maxlen) : s.Fits v := fun _ => h

/-- `u` is `s` after the writes of a command: nothing, a scalar, a buffer by a setter or a frame write, or bytes of data
memory inside its range (R26, R27, R62). -/
inductive CommandWrites (s : State) : State → Prop where
  | nothing : CommandWrites s s
  | scalar (d : ScalReg) (v : Word) : CommandWrites s (s.writeScalar d v)
  | clear (d : BufReg) : CommandWrites s (s.writeBuf d none)
  | buffer (d : BufReg) {v : Bits} (h : s.Fits v) : CommandWrites s (s.writeBuf d (some v))
  | encoded {v : Bits} (h : s.Fits v) : CommandWrites s (s.writeEncoded v)
  | decoded {v : Bits} (h : s.Fits v) : CommandWrites s (s.writeDecoded v)
  | bytes {a : Nat} {bs : List Byte} (h : a + bs.length ≤ s.params.dmemBytes) : CommandWrites s (s.writeBytes a bs)

theorem CommandWrites.completed {s u : State} (h : CommandWrites s u) : Completed s u.complete := by
  cases h <;> rfl

/-! ### How the pseudocode of a command ends, step by step (R229, R230) -/

/-- A reason a command may stop for: an error of its row, or the wait of a derivation for its provider (R230, I10). -/
def StopsWell (i : Instr) (s : State) (x : Stop) : Prop :=
  match x with
  | .raise e => (possibleErrors i).contains (infoFor i e) = true
  | .waiting => s.providerLive = false ∧ ∃ o, derivationOf i s = some o

/-- The pseudocode of a command ends with its writes, or stops for a reason it may stop for. -/
def EndsWell (i : Instr) (s : State) (r : Except Stop State) : Prop :=
  match r with
  | .ok u => CommandWrites s u
  | .error x => StopsWell i s x

section
variable {i : Instr} {s : State}

theorem endsWell_bind {α : Type} {x : Except Stop α} {f : α → Except Stop State}
    (hx : ∀ e, x = .error e → StopsWell i s e) (hf : ∀ a, x = .ok a → EndsWell i s (f a)) : EndsWell i s (x >>= f) := by
  cases x with
  | ok a => exact hf a rfl
  | error e => exact hx e rfl

theorem endsWell_require {c : Bool} {e : ErrorCode} {f : Unit → Except Stop State}
    (he : c = false → StopsWell i s (.raise e)) (hf : c = true → EndsWell i s (f ())) :
    EndsWell i s (require c e >>= f) := by
  refine endsWell_bind (fun x hx => ?_) fun _ h => hf (require_ok.mp h)
  obtain ⟨hc, rfl⟩ := require_error.mp hx
  exact he hc

theorem endsWell_operand {r : BufReg} {f : Bits → Except Stop State} (he : StopsWell i s (.raise .nullOperand))
    (hf : ∀ v, s.buf r = some v → EndsWell i s (f v)) : EndsWell i s (s.operand r >>= f) := by
  refine endsWell_bind (fun x hx => ?_) fun v hv => hf v (operand_ok.mp hv)
  obtain ⟨-, rfl⟩ := operand_error.mp hx
  exact he

theorem endsWell_keyOperand {r : BufReg} {f : Bits → Except Stop State} (he : StopsWell i s (.raise .emptyKey))
    (hf : ∀ k, s.buf r = some k → EndsWell i s (f k)) : EndsWell i s (s.keyOperand r >>= f) := by
  refine endsWell_bind (fun x hx => ?_) fun k hk => hf k (keyOperand_ok.mp hk).1
  obtain ⟨-, rfl⟩ := keyOperand_error.mp hx
  exact he

theorem endsWell_textOperand {r : BufReg} {f : List Byte → Except Stop State} (hn : StopsWell i s (.raise .nullOperand))
    (hl : StopsWell i s (.raise .length)) (hf : ∀ v, s.buf r = some v → EndsWell i s (f (bytesOf v))) :
    EndsWell i s (s.textOperand r >>= f) := by
  refine endsWell_bind (fun x hx => ?stops) fun t ht => ?ends
  case stops =>
    rcases textOperand_error.mp hx with ⟨-, rfl⟩ | ⟨v, -, -, rfl⟩
    · exact hn
    · exact hl
  case ends =>
    obtain ⟨v, hv, -, rfl⟩ := textOperand_ok.mp ht
    exact hf v hv

theorem endsWell_runDerivation {seed : List Byte} {n : Nat} {f : List Byte → Except Stop State}
    (hd : derivationOf i s = some (seed, n)) (he : StopsWell i s (.raise .hashUnavailable))
    (hf : ∀ t : List Byte, t.length ≤ n → EndsWell i s (f t)) : EndsWell i s (s.runDerivation seed n >>= f) := by
  refine endsWell_bind (fun x hx => ?stops) fun t ht => ?ends
  case stops =>
    cases x with
    | raise e =>
      obtain ⟨-, rfl, -⟩ := runDerivation_raise.mp hx
      exact he
    | waiting => exact ⟨(runDerivation_waiting.mp hx).2, _, hd⟩
  case ends =>
    obtain ⟨-, acc, -, rfl⟩ := runDerivation_ok.mp ht
    exact hf _ (by simp)

end

/-- What frameCheck may raise (R181). -/
theorem frameCheck_error {s : State} {x : BufReg} {e : Stop} (h : s.frameCheck x = .error e) :
    e = .raise .nullOperand ∨ e = .raise .emptyKey ∨ e = .raise .length := by
  simp only [State.frameCheck, except_bind_error, operand_error, require_error, except_pure_error, and_false, exists_const,
    or_false] at h
  tauto

/-- The frame buffer is no longer than the key, where the filler is no longer than its length (R180). -/
theorem frameXor_length_le {s : State} {x : BufReg} {shape : FrameShape} (h : s.frameCheck x = .ok shape) {filler : Bits}
    (hf : filler.length ≤ 8 * shape.fillerLen) : (frameXor shape filler).length ≤ shape.key.length := by
  obtain ⟨-, -, -, h1, h2, -, h4, h5⟩ := frameCheck_ok.mp h
  simp only [frameXor, xorWith_length, List.length_append, be32_length]
  omega

/-- A filler is no longer than its length says (R182). -/
theorem endsWell_fillerOf {i : Instr} {s : State} {f : Bool} {shape : FrameShape} {g : Bits → Except Stop State}
    (hd : f = false → derivationOf i s = some (bytesOf shape.payload, shape.fillerLen))
    (hn : StopsWell i s (.raise .nullOperand)) (hl : StopsWell i s (.raise .length))
    (hu : f = false → StopsWell i s (.raise .hashUnavailable))
    (hg : ∀ fil : Bits, fil.length ≤ 8 * shape.fillerLen → EndsWell i s (g fil)) :
    EndsWell i s (s.fillerOf f shape >>= g) := by
  cases f with
  | true =>
    refine endsWell_bind (fun x hx => ?_) fun fil hfil => hg fil (fillerOf_supplied.mp hfil).2.le
    simp only [State.fillerOf, if_pos, except_bind_error, operand_error, require_error, except_pure_error] at hx
    rcases hx with ⟨-, rfl⟩ | ⟨v, -, ⟨-, rfl⟩ | ⟨-, -, h⟩⟩
    · exact hn
    · exact hl
    · exact h.elim
  | false =>
    rw [fillerOf_false_bind]
    exact endsWell_runDerivation (hd rfl) (hu rfl) fun t ht => hg _ (by simpa using ht)

/-- What frameCheck may raise is what FENC and FDEC may raise (R181, R230). -/
theorem stopsWell_frameCheck {i : Instr} {s : State} {x : BufReg} (hn : StopsWell i s (.raise .nullOperand))
    (he : StopsWell i s (.raise .emptyKey)) (hl : StopsWell i s (.raise .length)) (e : Stop)
    (h : s.frameCheck x = .error e) : StopsWell i s e := by
  rcases frameCheck_error h with rfl | rfl | rfl
  · exact hn
  · exact he
  · exact hl

/-- The operands of a plain frame command (R185, R186). -/
theorem endsWell_plainOperands {i : Instr} {s : State} {x : BufReg} {st : Bool} {g : Bits × Bits → Except Stop State}
    (hn : StopsWell i s (.raise .nullOperand)) (he : StopsWell i s (.raise .emptyKey))
    (hm : st = true → StopsWell i s (.raise .keyLengthMismatch))
    (hg : ∀ o : Bits × Bits, s.buf x = some o.1 → EndsWell i s (g o)) : EndsWell i s (s.plainOperands x st >>= g) := by
  refine endsWell_bind (fun e h => ?stops) fun o ho => hg o (plainOperands_ok.mp ho).1
  simp only [State.plainOperands, except_bind_error, operand_error, keyOperand_error, require_error, except_pure_error] at h
  rcases h with ⟨-, rfl⟩ | ⟨p, -, ⟨-, rfl⟩ | ⟨k, -, ⟨hst, rfl⟩ | ⟨-, -, h⟩⟩⟩
  · exact hn
  · exact he
  · cases st
    · cases hst
    · exact hm rfl
  · exact h.elim

/-! ### Every command (R230) -/

/-- Each command is the end of pseudocode whose checks raise the errors of its row and whose write is within capacity. -/
theorem exec_endsWell (i : Instr) (s : State) : ∃ r, exec i s = finish i s r ∧ EndsWell i s r := by
  cases i with
  | nop => exact ⟨.ok s, rfl, CommandWrites.nothing⟩
  | li d imm | lih d imm => exact ⟨.ok _, rfl, CommandWrites.scalar d _⟩
  | blen d a => exact ⟨_, rfl, endsWell_operand rfl fun _ _ => CommandWrites.scalar d _⟩
  | bclr d => exact ⟨.ok _, rfl, CommandWrites.buffer d fun _ => Nat.zero_le _⟩
  | bmov d a => exact ⟨_, rfl, endsWell_operand rfl fun _ hv => CommandWrites.buffer d (fits_of_buf hv le_rfl)⟩
  | binv d => exact ⟨.ok _, rfl, CommandWrites.clear d⟩
  | ldb d a b =>
    exact ⟨_, rfl, endsWell_require (fun _ => rfl) fun _ => endsWell_require (fun _ => rfl) fun hcap =>
      CommandWrites.buffer d (fits_of_le (by simpa using hcap))⟩
  | stb a b =>
    refine ⟨_, rfl, endsWell_bind (fun x hx => ?stops) fun plan hplan => ?writes⟩
    case stops =>
      simp only [stbPlan, except_bind_error, operand_error, require_error, except_pure_error] at hx
      rcases hx with ⟨-, rfl⟩ | ⟨v, -, ⟨-, rfl⟩ | ⟨-, -, ⟨-, rfl⟩ | ⟨-, -, h⟩⟩⟩
      · rfl
      · rfl
      · rfl
      · exact h.elim
    case writes =>
      obtain ⟨v, -, -, hrange, rfl⟩ := stbPlan_ok.mp hplan
      exact CommandWrites.bytes (by simpa using hrange)
  | hdrx d a h =>
    exact ⟨_, rfl, endsWell_operand rfl fun v hv => endsWell_require (fun _ => rfl) fun _ =>
      endsWell_require (fun _ => rfl) fun _ => CommandWrites.buffer d (fits_of_buf hv (by simp))⟩
  | ksb d a b => exact ⟨_, rfl, endsWell_keyOperand rfl fun _ _ => CommandWrites.scalar d _⟩
  | xor d a b =>
    exact ⟨_, rfl, endsWell_operand rfl fun _ hp => endsWell_keyOperand rfl fun _ _ =>
      CommandWrites.buffer d (fits_of_buf hp (by simp))⟩
  | xors d a b =>
    exact ⟨_, rfl, endsWell_operand rfl fun _ hp => endsWell_keyOperand rfl fun _ _ =>
      endsWell_require (fun _ => rfl) fun _ => CommandWrites.buffer d (fits_of_buf hp (by simp))⟩
  | rotr d a b =>
    exact ⟨_, rfl, endsWell_textOperand rfl rfl fun v hv =>
      CommandWrites.buffer d (fits_of_buf hv (by simp; omega))⟩
  | drv d a b =>
    refine ⟨_, rfl, endsWell_bind (fun x hx => ?stops) fun o ho => ?derives⟩
    case stops =>
      simp only [drvSeed, except_bind_error, textOperand_error, require_error, except_pure_error] at hx
      rcases hx with (⟨-, rfl⟩ | ⟨v, -, -, rfl⟩) | ⟨t, -, ⟨-, rfl⟩ | ⟨-, -, h⟩⟩
      · rfl
      · rfl
      · rfl
      · exact h.elim
    case derives =>
      obtain ⟨v, -, -, hcap, rfl⟩ := drvSeed_ok.mp ho
      exact endsWell_runDerivation (derivationOf_drv.mpr ho) rfl fun t ht =>
        CommandWrites.buffer d (fits_of_le (by rw [toBits_length]; omega))
  | fenc f =>
    refine ⟨_, rfl, endsWell_bind (stopsWell_frameCheck ?null ?key ?length) fun shape hshape =>
      endsWell_fillerOf ?derivation ?null ?length ?unavailable fun fil hfil =>
        endsWell_require (fun _ => ?length) fun _ => CommandWrites.encoded ?fits⟩
    case null | key | length => cases f <;> rfl
    case derivation =>
      rintro rfl
      exact derivationOf_fenc.mpr ⟨shape, hshape, rfl⟩
    case unavailable =>
      rintro rfl
      rfl
    case fits =>
      refine fits_of_buf (frameCheck_ok.mp hshape).2.1 ?_
      have := frameXor_length_le hshape hfil
      simp only [slice_length]
      omega
  | fdec f =>
    refine ⟨_, rfl, endsWell_bind (stopsWell_frameCheck ?null ?key ?length) fun shape hshape =>
      endsWell_fillerOf ?derivation ?null ?length ?unavailable fun fil hfil => CommandWrites.decoded ?fits⟩
    case null | key | length => cases f <;> rfl
    case derivation =>
      rintro rfl
      exact derivationOf_fdec.mpr ⟨shape, hshape, rfl⟩
    case unavailable =>
      rintro rfl
      rfl
    case fits => exact fits_of_buf (frameCheck_ok.mp hshape).2.1 (frameXor_length_le hshape hfil)
  | penc st =>
    refine ⟨_, rfl, endsWell_plainOperands ?null ?key ?mismatch fun o ho =>
      CommandWrites.encoded (fits_of_buf ho (by simp))⟩
    case null | key => cases st <;> rfl
    case mismatch =>
      rintro rfl
      rfl
  | pdec st =>
    refine ⟨_, rfl, endsWell_plainOperands ?null ?key ?mismatch fun o ho =>
      CommandWrites.decoded (fits_of_buf ho (by simp))⟩
    case null | key => cases st <;> rfl
    case mismatch =>
      rintro rfl
      rfl
  | cut d a b c =>
    exact ⟨_, rfl, endsWell_operand rfl fun _ hv => endsWell_require (fun _ => rfl) fun _ =>
      CommandWrites.buffer d (fits_of_buf hv (by simp))⟩
  | mrg d a b =>
    exact ⟨_, rfl, endsWell_operand rfl fun _ _ => endsWell_operand rfl fun _ _ =>
      endsWell_require (fun _ => rfl) fun hcap => CommandWrites.buffer d (fits_of_le (by simpa using hcap))⟩

/-- Every way a command can end: it completes with its writes, it raises an error of its row, or its derivation waits. -/
theorem exec_cases (i : Instr) (s : State) :
    (∃ u, CommandWrites s u ∧ exec i s = .next u.complete) ∨
      (∃ e, infoFor i e ∈ possibleErrors i ∧ exec i s = .next (s.raiseFor i e)) ∨
        (exec i s = .next s ∧ s.providerLive = false ∧ ∃ o, derivationOf i s = some o) := by
  obtain ⟨r, hexec, hends⟩ := exec_endsWell i s
  match r, hends with
  | .ok u, hwrites => exact .inl ⟨u, hwrites, hexec⟩
  | .error (.raise e), hraises => exact .inr (.inl ⟨e, List.contains_iff_mem.mp hraises, hexec⟩)
  | .error .waiting, hwaits => exact .inr (.inr ⟨hexec, hwaits⟩)

/-- Settles O41: the three ways a command can end are the three the statement names. -/
theorem everyCommandCompletesOrRaisesPrecisely : Obligations.EveryCommandCompletesOrRaisesPrecisely := by
  intro i s
  rcases exec_cases i s with ⟨u, hwrites, hexec⟩ | ⟨e, hinfo, hexec⟩ | ⟨hexec, hlive, hd⟩
  · exact ⟨_, hexec, .inl hwrites.completed⟩
  · exact ⟨_, hexec, .inr (.inl ⟨_, hinfo, raisedBy_raiseFor i s e⟩)⟩
  · exact ⟨s, hexec, .inr (.inr ⟨rfl, hlive, hd⟩)⟩

/-! ### The invariant, update by update -/

/-- The invariant asks for the parameters, the buffers, memory, ERRINFO, ERR, the reset input, the ready flags, and whether
the engine is busy. -/
theorem State.Inv.congr {s t : State} (h : s.Inv) (hp : t.params = s.params) (hb : t.bufs = s.bufs) (hd : t.dmem = s.dmem)
    (hi : t.errInfo = s.errInfo) (herr : t.stErr = true → s.stErr = true) (hpin : t.resetPin = s.resetPin)
    (henc : t.encReady = true → s.encReady = true) (hdec : t.decReady = true → s.decReady = true)
    (hbusy : s.busy = false → t.busy = false) : t.Inv where
  params_legal := hp ▸ h.params_legal
  buf_fits r v hv := hp ▸ h.buf_fits r v (State.buf_congr hb r ▸ hv)
  dmem_wf := by rw [hp, hd]; exact h.dmem_wf
  errInfo_legal := hi ▸ h.errInfo_legal
  halted_idle ht := hbusy (h.halted_idle (herr ht))
  reset_idle ht := hbusy (h.reset_idle (hpin ▸ ht))
  enc_present ht := by rw [State.buf_congr hb]; exact h.enc_present (henc ht)
  dec_present ht := by rw [State.buf_congr hb]; exact h.dec_present (hdec ht)

/-- A register with its ready flag up is present after a write of register `d`, if that write gave it a value or the flag
was up before (R26, R27). -/
theorem isSome_after_write {s : State} {r d : BufReg} {v : Option Bits} {ready : Bool}
    (hnew : if d = r then v.isSome = true else ready = true) (hold : ready = true → (s.buf r).isSome = true) :
    (if r = d then v else s.buf r).isSome = true := by
  by_cases hd : d = r
  · rw [if_pos hd] at hnew
    rwa [if_pos hd.symm]
  · rw [if_neg hd] at hnew
    rw [if_neg (Ne.symm hd)]
    exact hold hnew

/-- A write of the buffer `d` keeps the invariant where the value fits and no flag is left without its register (R26, R27). -/
theorem State.Inv.setBuf {s t : State} (h : s.Inv) {d : BufReg} {v : Option Bits}
    (ht : t = { s with bufs := s.bufs.set d.toNat v d.isLt, encReady := t.encReady, decReady := t.decReady })
    (hv : ∀ x, v = some x → s.Fits x)
    (henc : t.encReady = true → if d = encodedReg then v.isSome = true else s.encReady = true)
    (hdec : t.decReady = true → if d = decodedReg then v.isSome = true else s.decReady = true) : t.Inv := by
  have hbuf (r : BufReg) : t.buf r = if r = d then v else s.buf r := by rw [ht]; exact buf_of_set rfl r
  have hp : t.params = s.params := by rw [ht]
  have hbusy : t.busy = s.busy := by rw [ht]; rfl
  constructor
  case params_legal => rw [hp]; exact h.params_legal
  case buf_fits =>
    intro r x hx
    rw [hbuf] at hx
    rw [hp]
    split at hx
    · exact hv x hx h
    · exact h.buf_fits r x hx
  case dmem_wf => rw [ht]; exact h.dmem_wf
  case errInfo_legal => rw [ht]; exact h.errInfo_legal
  case halted_idle => rw [hbusy, ht]; exact h.halted_idle
  case reset_idle => rw [hbusy, ht]; exact h.reset_idle
  case enc_present =>
    intro hready
    rw [hbuf]
    exact isSome_after_write (henc hready) h.enc_present
  case dec_present =>
    intro hready
    rw [hbuf]
    exact isSome_after_write (hdec hready) h.dec_present

/-- ENC_READY is up after a setter write only if B2 was given a value, or it was up before (R26). -/
theorem encAfterSetter_eq_true {d : BufReg} {v : Option Bits} {old : Bool} (h : encAfterSetter d v old = true) :
    if d = encodedReg then v.isSome = true else old = true := by
  unfold encAfterSetter at h
  split_ifs at h ⊢ <;> exact h

/-- DEC_READY is up after a setter write only if B0 was given a value, or it was up before (R26). -/
theorem decAfterSetter_eq_true {d : BufReg} {v : Option Bits} {old : Bool} (h : decAfterSetter d v old = true) :
    if d = decodedReg then v.isSome = true else old = true := by
  unfold decAfterSetter at h
  split_ifs at h ⊢ <;> exact h

theorem State.Inv.writeBuf {s : State} (h : s.Inv) (d : BufReg) {v : Option Bits} (hv : ∀ x, v = some x → s.Fits x) :
    (s.writeBuf d v).Inv :=
  h.setBuf rfl hv encAfterSetter_eq_true decAfterSetter_eq_true

theorem State.Inv.writeEncoded {s : State} (h : s.Inv) {v : Bits} (hv : s.Fits v) : (s.writeEncoded v).Inv :=
  h.setBuf (d := encodedReg) rfl (by rintro _ ⟨⟩; exact hv) (fun _ => rfl) fun hready => hready

theorem State.Inv.writeDecoded {s : State} (h : s.Inv) {v : Bits} (hv : s.Fits v) : (s.writeDecoded v).Inv :=
  h.setBuf (d := decodedReg) rfl (by rintro _ ⟨⟩; exact hv) (fun hready => hready) fun _ => rfl

theorem State.Inv.writeBytes {s : State} (h : s.Inv) {a : Nat} {bs : List Byte} (ha : a + bs.length ≤ s.params.dmemBytes) :
    (s.writeBytes a bs).Inv :=
  ⟨h.params_legal, h.buf_fits, Memory.wf_storeBytes h.dmem_wf ha, h.errInfo_legal, h.halted_idle, h.reset_idle,
    h.enc_present, h.dec_present⟩

theorem CommandWrites.inv {s u : State} (hw : CommandWrites s u) (h : s.Inv) : u.Inv := by
  cases hw with
  | nothing => exact h
  | scalar d v => exact h.congr rfl rfl rfl rfl id rfl id id id
  | clear d => exact h.writeBuf d fun _ hx => by cases hx
  | buffer d hv => exact h.writeBuf d (by rintro _ ⟨⟩; exact hv)
  | encoded hv => exact h.writeEncoded hv
  | decoded hv => exact h.writeDecoded hv
  | bytes ha => exact h.writeBytes ha

/-- The words of the rows of rule R230 are words ERRINFO may hold. -/
theorem errInfoLegal_of_possibleErrors {i : Instr} {info : Word} (h : info ∈ possibleErrors i) :
    errInfoLegal info = true := by
  have hall : ([0x1, 0x2, 0x3, 0x4, 0x6, 0x8, 0x9, 0x15, 0x25, 0x35, 0x45, 0x65] : List Word).all errInfoLegal = true := by
    decide
  refine List.all_eq_true.mp hall info ?_
  revert info
  cases i with
  | fenc f | fdec f | penc f | pdec f => cases f <;> simp [possibleErrors]
  | _ => simp [possibleErrors]

theorem State.Inv.raiseError {s : State} (h : s.Inv) (w : Word) {e c : ErrorCode}
    (hi : errInfoLegal (errInfoWord e c) = true) : (s.raiseError w e c).Inv where
  params_legal := h.params_legal
  buf_fits := h.buf_fits
  dmem_wf := h.dmem_wf
  errInfo_legal := hi
  halted_idle _ := rfl
  reset_idle _ := rfl
  enc_present ht := h.enc_present (Bool.and_eq_true_iff.mp ht).1
  dec_present ht := h.dec_present (Bool.and_eq_true_iff.mp ht).1

theorem State.Inv.raiseFor {s : State} (h : s.Inv) {i : Instr} {e : ErrorCode} (hi : errInfoLegal (infoFor i e) = true) :
    (s.raiseFor i e).Inv := by
  unfold State.raiseFor
  unfold infoFor at hi
  split at hi
  next hf => rw [if_pos hf]; exact h.raiseError _ hi
  next hf => rw [if_neg hf]; exact h.raiseError _ hi

/-- A state at its reset values is legal, whatever its memory in range holds (R49). -/
theorem State.Inv.of_cleared {t : State} (hp : t.params.legal = true) (hb : ∀ r, t.buf r = none)
    (hd : Memory.wf t.params.dmemBytes t.dmem = true) (hi : t.errInfo = 0) (hidle : t.engine = .idle)
    (henc : t.encReady = false) (hdec : t.decReady = false) : t.Inv where
  params_legal := hp
  buf_fits r v hv := by simp [hb] at hv
  dmem_wf := hd
  errInfo_legal := hi ▸ rfl
  halted_idle _ := State.busy_false_iff.mpr hidle
  reset_idle _ := State.busy_false_iff.mpr hidle
  enc_present ht := by simp [henc] at ht
  dec_present ht := by simp [hdec] at ht

/-- The bytes an abandoned STB may still write are inside data memory (R262). -/
theorem State.Inv.abandonedDmem_wf {s : State} (h : s.Inv) : Memory.wf s.params.dmemBytes s.abandonedDmem = true := by
  unfold State.abandonedDmem
  split
  next => exact h.dmem_wf
  next a bytes hstore =>
    obtain ⟨_, _, _, _, v, -, -, -, -, hrange, ho⟩ := State.pendingStore_some.mp hstore
    cases ho
    exact Memory.wf_storeSome h.dmem_wf (by simpa using hrange)

theorem State.Inv.providerAnswer {s : State} (h : s.Inv) : s.providerAnswer.Inv := by
  rcases s.providerAnswer_cases with hs | ⟨i, -, -, -, ⟨-, hs⟩ | ⟨c, w, acc, -, he, hs⟩⟩ <;> rw [hs]
  case inl => exact h
  case inr.inl =>
    have hlegal : errInfoLegal (infoFor i .hashUnavailable) = true := by
      unfold infoFor
      split <;> decide
    exact h.raiseFor hlegal
  case inr.inr =>
    have hbusy : s.busy ≠ false := by simp [State.busy_false_iff, he]
    exact h.congr rfl rfl rfl rfl id rfl id id fun hfalse => absurd hfalse hbusy

theorem inv_kept : KeptByEvents State.Inv where
  inputs h _ := h.congr rfl rfl rfl rfl id rfl id id id
  exec {s t w acc i} h he hw hexec := by
    rcases exec_cases i s with ⟨u, hu, hx⟩ | ⟨e, hinfo, hx⟩ | ⟨hx, -⟩ <;> rw [hx] at hexec <;> cases hexec
    · exact (hu.inv h).congr rfl rfl rfl rfl id rfl id id fun _ => rfl
    · exact h.raiseFor (errInfoLegal_of_possibleErrors hinfo)
    · exact h
  illegal h w := h.raiseError w (by decide)
  softReset {s} h := .of_cleared h.params_legal (State.buf_resetWith s.params) h.abandonedDmem_wf rfl rfl rfl rfl
  enables h _ _ _ := h.congr rfl rfl rfl rfl id rfl id id id
  clearStatus h _ := h.congr rfl rfl rfl rfl (fun ht => (Bool.and_eq_true_iff.mp ht).1) rfl id id id
  drop h := h.congr rfl rfl rfl rfl id rfl id id id
  accept h hpin herr _ :=
    { h with
      halted_idle := fun ht => by simp [herr] at ht
      reset_idle := fun ht => by simp [hpin] at ht }
  scalar h _ _ _ := h.congr rfl rfl rfl rfl id rfl id id id
  byte h _ ha _ := h.writeBytes ha
  reply h _ _ := h.congr rfl rfl rfl rfl id rfl id id id
  providerAnswer h := h.providerAnswer
  providerLive h _ := h.congr rfl rfl rfl rfl id rfl id id id
  assertReset h := { h with halted_idle := fun _ => rfl, reset_idle := fun _ => rfl }
  hardwareReset {s} h := .of_cleared h.params_legal (State.buf_resetWith s.params) (Memory.wf_nil _) rfl rfl rfl rfl

/-- Settles O47: a command's writes fit and its errors are of its row; a host access, a reset and an answer keep the invariant
too. -/
theorem everyStepKeepsTheInvariant : Obligations.EveryStepKeepsTheInvariant :=
  fun _ _ h hstep => inv_kept.step h hstep

/-- Settles O46: everything is cleared at reset, and the test vectors' parameters are legal. -/
theorem resetStateIsLegal : Obligations.ResetStateIsLegal :=
  ⟨.of_cleared (by decide) (State.buf_resetWith _) (Memory.wf_nil _) rfl rfl rfl rfl, State.accHonest_of_idle rfl⟩

/-! ### No stop, and fixed parameters (R5, R163) -/

theorem engineStep_isNext (s : State) : ∃ t, engineStep s = .next t := by
  unfold engineStep
  split
  next => exact ⟨s, rfl⟩
  next w acc =>
    unfold runWord
    split
    next i _ =>
      obtain ⟨r, hr⟩ := exec_eq_finish i s
      rw [hr]
      exact finish_isNext i s r
    next => exact ⟨_, rfl⟩

theorem completeWith_isNext (s : State) (a : HostAccess) : ∃ t, s.completeWith a = .next t := by
  unfold State.completeWith
  split
  · exact engineStep_isNext _
  · obtain ⟨t, ht⟩ := engineStep_isNext s
    exact ⟨t.access a, by rw [ht]; rfl⟩

theorem handleEvent_isNext (e : Event) (s : State) : ∃ t, handleEvent e s = .next t := by
  cases e with
  | complete => exact engineStep_isNext s
  | completeWith a => exact completeWith_isNext s a
  | _ => exact ⟨_, rfl⟩

theorem step_isNext (s : State) : ∃ t, step s = .next t := by
  unfold step
  split
  · exact engineStep_isNext s
  · exact handleEvent_isNext _ _

theorem CommandWrites.params {s u : State} (h : CommandWrites s u) : u.params = s.params := by
  cases h <;> rfl

theorem State.raiseFor_params (s : State) (i : Instr) (e : ErrorCode) : (s.raiseFor i e).params = s.params := by
  unfold State.raiseFor
  split <;> rfl

theorem params_kept (p : Params) : KeptByEvents fun s => s.params = p where
  inputs h _ := h
  exec {s t w acc i} h he hw hexec := by
    rcases exec_cases i s with ⟨u, hu, hx⟩ | ⟨e, -, hx⟩ | ⟨hx, -⟩ <;> rw [hx] at hexec <;> cases hexec
    · exact hu.params.trans h
    · exact (s.raiseFor_params i e).trans h
    · exact h
  illegal h _ := h
  softReset h := h
  enables h _ _ _ := h
  clearStatus h _ := h
  drop h := h
  accept h _ _ _ := h
  scalar h _ _ _ := h
  byte h _ _ _ := h
  reply h _ _ := h
  providerAnswer {s} h := by
    rcases s.providerAnswer_cases with hs | ⟨i, -, -, -, ⟨-, hs⟩ | ⟨c, w, acc, -, -, hs⟩⟩ <;> rw [hs]
    · exact h
    · exact (s.raiseFor_params i _).trans h
    · exact h
  providerLive h _ := h
  assertReset h := h
  hardwareReset h := h

/-- Settles O48: every outcome is a next state, and everything a step is made of leaves the parameters. -/
theorem noStepStopsOrChangesTheParameters : Obligations.NoStepStopsOrChangesTheParameters := by
  intro s
  obtain ⟨t, ht⟩ := step_isNext s
  exact ⟨t, ht, (params_kept s.params).step rfl ht⟩

end Sys2Proof.Machine
end

section
/-! SUPPORT. The control commands: settles NopOnlyCompletes, LoadImmediates, BlenGivesTheLength, ClearAndInvalidate and
BmovCopies (40_control.md rules R100 to R106). -/

namespace Sys2Proof.Machine

/-- Settles O8: NOP's rule writes nothing, so its end is completion alone. -/
theorem nopOnlyCompletes : Obligations.NopOnlyCompletes := fun s => finish_of_ok (i := .nop) (s := s) (u := s) rfl

/-- `zext_32` as bits (R101). -/
theorem setWidth_eq_zero_append (imm : BitVec 16) : imm.setWidth 32 = 0#16 ++ imm := by
  apply BitVec.eq_of_getLsbD_eq
  intro i hi
  interval_cases i <;> simp only [BitVec.getLsbD_setWidth, BitVec.getLsbD_append] <;> simp

/-- The upper half replaced, the lower half kept (R102). -/
theorem upperHalf_or_lowerHalf (imm : BitVec 16) (x : Word) :
    (imm.setWidth 32 <<< 16) ||| (x &&& 0x0000FFFF) = imm ++ x.extractLsb' 0 16 := by
  apply BitVec.eq_of_getLsbD_eq
  intro i hi
  simp only [BitVec.getLsbD_or, BitVec.getLsbD_and, BitVec.getLsbD_append, BitVec.getLsbD_extractLsb']
  interval_cases i <;> simp

/-- Settles O9: both write the word their rule builds, read as its two halves. -/
theorem loadImmediates : Obligations.LoadImmediates := by
  intro d imm s
  constructor
  · rw [← setWidth_eq_zero_append]
    exact finish_wroteScalar (i := .li d imm) rfl
  · rw [← upperHalf_or_lowerHalf]
    exact finish_wroteScalar (i := .lih d imm) rfl

/-- The length of a buffer of a legal state is a 32-bit number (R5, R21). -/
theorem State.Inv.length_lt {s : State} (h : s.Inv) {r : BufReg} {v : Bits} (hv : s.buf r = some v) :
    v.length < 2 ^ 32 := by
  have hlegal := h.params_legal
  simp only [Params.legal, Bool.and_eq_true, decide_eq_true_eq] at hlegal
  obtain ⟨⟨⟨⟨-, -⟩, hmax⟩, -⟩, -⟩ := hlegal
  exact (h.buf_fits r v hv).trans_lt hmax

theorem exec_blen_completes {d : ScalReg} {a : BufReg} {s : State} {v : Bits} (hv : s.buf a = some v) :
    ∃ t, exec (.blen d a) s = .next t ∧ WroteScalar s t d (BitVec.ofNat 32 v.length) :=
  finish_wroteScalar (except_bind_ok.mpr ⟨v, operand_ok.mpr hv, rfl⟩)

/-- Settles O10: the length fits its 32 bits. -/
theorem blenGivesTheLength : Obligations.BlenGivesTheLength := by
  intro d a s hinv
  refine ⟨fun hv => ?absent, fun v hv => ?present⟩
  case absent =>
    exact finish_raised .nullOperand rfl rfl (except_bind_error.mpr (.inl (operand_error.mpr ⟨hv, rfl⟩)))
  case present =>
    obtain ⟨t, hexec, hwrote⟩ := exec_blen_completes (d := d) hv
    refine ⟨t, BitVec.ofNat 32 v.length, hexec, hwrote, ?_⟩
    rw [BitVec.toNat_ofNat, Nat.mod_eq_of_lt (hinv.length_lt hv)]

/-- Settles O11: both are setter writes with no check. -/
theorem clearAndInvalidate : Obligations.ClearAndInvalidate := fun d _ =>
  ⟨finish_wroteBuffer (i := .bclr d) rfl, finish_wroteBuffer (i := .binv d) rfl⟩

/-- Settles O12: the one check, then a setter write of the value read. -/
theorem bmovCopies : Obligations.BmovCopies := by
  intro d a s
  refine ⟨fun hv => ?absent, fun v hv => ?present⟩
  case absent =>
    exact finish_raised .nullOperand rfl rfl (except_bind_error.mpr (.inl (operand_error.mpr ⟨hv, rfl⟩)))
  case present => exact finish_wroteBuffer (except_bind_ok.mpr ⟨v, operand_ok.mpr hv, rfl⟩)

end Sys2Proof.Machine
end

section
/-! SUPPORT. The bit codec: settles UintAndBe32ArePositional, HdrxStripsHeaderAndFiller and StoreThenLoadGivesTheBuffer
(00_scope.md rule R8, 41_bitcodec.md rules R120 to R123). -/

namespace Sys2Proof.Machine

/-- Bit `i` of a sequence has the weight `2^(length - 1 - i)` (R8). -/
theorem uint_eq_sum (s : Bits) :
    uint s = ∑ i ∈ Finset.range s.length, (s.getD i false).toNat * 2 ^ (s.length - 1 - i) := by
  induction s with
  | nil => simp
  | cons b s ih =>
    rw [uint_cons, ih, List.length_cons, Finset.sum_range_succ', add_comm]
    congr 1
    refine Finset.sum_congr rfl fun i _ => ?_
    rw [List.getD_cons_succ, show s.length + 1 - 1 - (i + 1) = s.length - 1 - i by omega]

/-- Settles O16: the sum by induction on the sequence, the bits of `be32` by its definition. -/
theorem uintAndBe32ArePositional : Obligations.UintAndBe32ArePositional := by
  refine ⟨uint_eq_sum, fun n hn => ⟨be32_length n, uint_be32 n hn, fun j hj => ?bit⟩⟩
  case bit =>
    rw [List.getD_eq_getElem _ _ (by simpa using hj), be32_getElem, Nat.testBit_eq_decide_div_mod_eq,
      Nat.shiftRight_eq_div_pow]

/-! ### HDRX: its checks in order, and what it keeps (R122) -/

section
variable {d a : BufReg} {h : BitVec 6} {s : State} {v : Bits}

theorem exec_hdrx_nullOperand (hv : s.buf a = none) :
    ∃ t, exec (.hdrx d a h) s = .next t ∧ Raised s t 0x6 (encode (.hdrx d a h)) :=
  finish_raised .nullOperand rfl rfl <| except_bind_error.mpr (.inl (operand_error.mpr ⟨hv, rfl⟩))

theorem exec_hdrx_headerTooLong (hv : s.buf a = some v) (hlen : v.length < h.toNat) :
    ∃ t, exec (.hdrx d a h) s = .next t ∧ Raised s t 0x3 (encode (.hdrx d a h)) :=
  finish_raised .length rfl rfl <|
    except_bind_error.mpr (.inr ⟨v, operand_ok.mpr hv,
      except_bind_error.mpr (.inl (require_error.mpr ⟨decide_eq_false hlen.not_ge, rfl⟩))⟩)

theorem exec_hdrx_countTooLarge (hv : s.buf a = some v) (hlen : h.toNat ≤ v.length)
    (hcount : v.length - h.toNat < 8 * uint (v.take h.toNat)) :
    ∃ t, exec (.hdrx d a h) s = .next t ∧ Raised s t 0x3 (encode (.hdrx d a h)) := by
  rw [← slice_zero] at hcount
  exact finish_raised .length rfl rfl <|
    except_bind_error.mpr (.inr ⟨v, operand_ok.mpr hv,
      except_bind_error.mpr (.inr ⟨(), require_ok.mpr (decide_eq_true hlen),
        except_bind_error.mpr (.inl (require_error.mpr ⟨decide_eq_false hcount.not_ge, rfl⟩))⟩)⟩)

theorem exec_hdrx_completes (hv : s.buf a = some v) (hlen : h.toNat ≤ v.length)
    (hcount : 8 * uint (v.take h.toNat) ≤ v.length - h.toNat) :
    ∃ t, exec (.hdrx d a h) s = .next t ∧
      WroteBuffer s t d (some (v.drop (v.length - 8 * uint (v.take h.toNat)))) := by
  rw [← slice_zero] at hcount ⊢
  rw [← slice_tail]
  exact finish_wroteBuffer <|
    except_bind_ok.mpr ⟨v, operand_ok.mpr hv,
      except_bind_ok.mpr ⟨(), require_ok.mpr (decide_eq_true hlen),
        except_bind_ok.mpr ⟨(), require_ok.mpr (decide_eq_true hcount), rfl⟩⟩⟩

end

/-- Settles O15: each clause is one outcome of HDRX's checks, and the buffer is the source without its front. -/
theorem hdrxStripsHeaderAndFiller : Obligations.HdrxStripsHeaderAndFiller := by
  rintro d a h s
  refine ⟨exec_hdrx_nullOperand, ?_⟩
  rintro v n hv rfl
  refine ⟨exec_hdrx_headerTooLong hv, exec_hdrx_countTooLarge hv, fun hlen hcount => ?completes⟩
  case completes =>
    obtain ⟨t, hexec, hwrote⟩ := exec_hdrx_completes (d := d) hv hlen hcount
    refine ⟨t, _, hexec, hwrote, ?length, fun i _ => List.getElem?_drop⟩
    case length => rw [List.length_drop]; omega

/-! ### STB then LDB (R123) -/

/-- The bytes written are the bytes read back (R61, R62). -/
theorem State.readBytes_writeBytes (s : State) (addr : Nat) (bs : List Byte) :
    (s.writeBytes addr bs).readBytes addr bs.length = bs := by
  apply List.ext_getElem
  · exact State.readBytes_length _ _ _
  · intro j _ hj
    rw [State.readBytes_getElem, s.readByte_writeBytes_stored addr hj]

/-- Settles O17: STB leaves registers and parameters, so LDB reads the same address and count, and the bytes stored. -/
theorem storeThenLoadGivesTheBuffer : Obligations.StoreThenLoadGivesTheBuffer := by
  intro s a d b n v hv hlen hfit hn hrange
  have hcount : s.number n = v.length / 8 := hn
  have hrange : s.number b + v.length / 8 ≤ s.params.dmemBytes := hrange
  have hstore := exec_stb_completes hv hlen hrange
  obtain ⟨u, hexec, -, hu, -⟩ := exec_ldb_completes (d := d) (a := b) (b := n)
    (s := (s.writeBytes (s.number b) (bytesOf v)).complete) (by simpa [hcount] using hrange)
    (by simp [hcount]; omega)
  refine ⟨_, u, hstore, hexec, hu.trans (congrArg some ?_)⟩
  calc toBits ((s.writeBytes (s.number b) (bytesOf v)).complete.readBytes (s.number b) (s.number n))
    _ = toBits ((s.writeBytes (s.number b) (bytesOf v)).readBytes (s.number b) (s.number n)) :=
      congrArg toBits (State.readBytes_congr fun _ _ => rfl)
    _ = toBits (bytesOf v) := by rw [hcount, ← bytesOf_length, State.readBytes_writeBytes]
    _ = v := toBits_bytesOf v hlen

end Sys2Proof.Machine
end

section
/-! SUPPORT. The keystream commands: settles KsbGivesTheKeystreamBit, XorsNeedsEqualLengths and XorTwiceRestoresThePayload
(42_keystream_cipher.md rules R140 to R145). -/

namespace Sys2Proof.Machine

theorem exec_ksb_completes {d b : ScalReg} {a : BufReg} {s : State} {k : Bits} (hk : s.buf a = some k) (hne : k ≠ []) :
    ∃ t, exec (.ksb d a b) s = .next t ∧
      WroteScalar s t d ((BitVec.ofBool (keystreamAt k (s.number b))).setWidth 32) :=
  finish_wroteScalar (except_bind_ok.mpr ⟨k, keyOperand_ok.mpr ⟨hk, hne⟩, rfl⟩)

/-- Settles O18: the key's two failures are one error, and the bit is the key's at the index modulo its length. -/
theorem ksbGivesTheKeystreamBit : Obligations.KsbGivesTheKeystreamBit := by
  intro d a b s
  refine ⟨fun hk => ?raises, fun k hk hne => ?completes⟩
  case raises => exact finish_raised .emptyKey rfl rfl (except_bind_error.mpr (.inl (keyOperand_error.mpr ⟨hk, rfl⟩)))
  case completes =>
    obtain ⟨t, hexec, hwrote⟩ := exec_ksb_completes (d := d) (b := b) hk hne
    refine ⟨t, _, hexec, hwrote, ?_⟩
    have hbit (x : Bool) : ((BitVec.ofBool x).setWidth 32).toNat = x.toNat := by cases x <;> rfl
    exact hbit _

/-! ### XORS: its checks in order, and what it writes (R144) -/

section
variable {d a b : BufReg} {s : State} {p k : Bits}

theorem exec_xors_nullOperand (hp : s.buf a = none) :
    ∃ t, exec (.xors d a b) s = .next t ∧ Raised s t 0x6 (encode (.xors d a b)) :=
  finish_raised .nullOperand rfl rfl <| except_bind_error.mpr (.inl (operand_error.mpr ⟨hp, rfl⟩))

theorem exec_xors_emptyKey (hp : s.buf a = some p) (hk : s.buf b = none ∨ s.buf b = some []) :
    ∃ t, exec (.xors d a b) s = .next t ∧ Raised s t 0x1 (encode (.xors d a b)) :=
  finish_raised .emptyKey rfl rfl <|
    except_bind_error.mpr (.inr ⟨p, operand_ok.mpr hp,
      except_bind_error.mpr (.inl (keyOperand_error.mpr ⟨hk, rfl⟩))⟩)

theorem exec_xors_mismatch (hp : s.buf a = some p) (hk : s.buf b = some k) (hne : k ≠ []) (hlen : k.length ≠ p.length) :
    ∃ t, exec (.xors d a b) s = .next t ∧ Raised s t 0x2 (encode (.xors d a b)) :=
  finish_raised .keyLengthMismatch rfl rfl <|
    except_bind_error.mpr (.inr ⟨p, operand_ok.mpr hp,
      except_bind_error.mpr (.inr ⟨k, keyOperand_ok.mpr ⟨hk, hne⟩,
        except_bind_error.mpr (.inl (require_error.mpr ⟨beq_false_of_ne hlen, rfl⟩))⟩)⟩)

theorem exec_xors_completes (hp : s.buf a = some p) (hk : s.buf b = some k) (hne : k ≠ []) (hlen : k.length = p.length) :
    ∃ t, exec (.xors d a b) s = .next t ∧ WroteBuffer s t d (some (xorWith p k)) :=
  finish_wroteBuffer <|
    except_bind_ok.mpr ⟨p, operand_ok.mpr hp,
      except_bind_ok.mpr ⟨k, keyOperand_ok.mpr ⟨hk, hne⟩,
        except_bind_ok.mpr ⟨(), require_ok.mpr (beq_iff_eq.mpr hlen), rfl⟩⟩⟩

end

/-- Settles O20: each clause is one outcome of XORS's checks; of equal lengths, no index of the key wraps. -/
theorem xorsNeedsEqualLengths : Obligations.XorsNeedsEqualLengths := by
  intro d a b s
  refine ⟨exec_xors_nullOperand, fun p hp => ⟨exec_xors_emptyKey hp, fun k hk hne =>
    ⟨exec_xors_mismatch hp hk hne, fun hlen => ?completes⟩⟩⟩
  case completes =>
    obtain ⟨t, hexec, hwrote⟩ := exec_xors_completes (d := d) hp hk hne hlen
    refine ⟨t, xorWith p k, hexec, hwrote, xorWith_length p k, fun i hi => ?_⟩
    rw [xorWith_getD p k i hi, Nat.mod_eq_of_lt (hlen ▸ hi)]

/-- Settles O21: the first XOR leaves the key, so the second XORs its result with the same keystream. -/
theorem xorTwiceRestoresThePayload : Obligations.XorTwiceRestoresThePayload := by
  intro s d a b e p k hp hk hne hdb
  obtain ⟨t, hexec, -, hd, hother, -⟩ := exec_xor_completes (d := d) hp hk hne
  have hkey : t.buf b = some k := (hother b hdb.symm).trans hk
  obtain ⟨u, hexec', -, he, -⟩ := exec_xor_completes (d := e) hd hkey hne
  exact ⟨t, u, hexec, hexec', he.trans (congrArg some (xorWith_involutive p k))⟩

end Sys2Proof.Machine
end

section
/-! SUPPORT. The commands of the hash chain: settles RotrRotatesWholeBytes, AlgorithmOfEachHexDigit and DrvDerivesFromItsSeed
(43_hashchain.md rules R161 to R167). -/

namespace Sys2Proof.Machine

/-! ### ROTR (R164, R165) -/

theorem exec_rotr_nullOperand {d a : BufReg} {b : ScalReg} {s : State} (hv : s.buf a = none) :
    ∃ t, exec (.rotr d a b) s = .next t ∧ Raised s t 0x6 (encode (.rotr d a b)) :=
  finish_raised .nullOperand rfl rfl <| except_bind_error.mpr (.inl (textOperand_error.mpr (.inl ⟨hv, rfl⟩)))

section
variable {d a : BufReg} {b : ScalReg} {s : State} {v : Bits}

theorem exec_rotr_length (hv : s.buf a = some v) (hlen : v.length % 8 ≠ 0) :
    ∃ t, exec (.rotr d a b) s = .next t ∧ Raised s t 0x3 (encode (.rotr d a b)) :=
  finish_raised .length rfl rfl <| except_bind_error.mpr (.inl (textOperand_error.mpr (.inr ⟨v, hv, hlen, rfl⟩)))

theorem exec_rotr_completes (hv : s.buf a = some v) (hlen : v.length % 8 = 0) :
    ∃ t, exec (.rotr d a b) s = .next t ∧ WroteBuffer s t d (some (toBits (rotateRight (bytesOf v) (s.number b)))) :=
  finish_wroteBuffer <| except_bind_ok.mpr ⟨_, textOperand_ok.mpr ⟨v, hv, hlen, rfl⟩, rfl⟩

end

/-- Bit `8j + k` of a byte string as bits, inside the string or not (R7). -/
theorem toBits_bit? (bs : List Byte) (j : Nat) {k : Nat} (hk : k < 8) :
    (toBits bs)[8 * j + k]? = bs[j]?.map fun b => b.getLsbD (7 - k) := by
  by_cases hj : j < bs.length
  · rw [toBits_bit bs j k hj hk, List.getElem?_eq_getElem hj, Option.map_some]
  · rw [List.getElem?_eq_none (by simp; omega), List.getElem?_eq_none (by omega), Option.map_none]

/-- A rotation of whole bytes, bit by bit (R164). -/
theorem toBits_rotateRight_bit {v : Bits} (hlen : v.length % 8 = 0) {n j k : Nat} (hn : n ≤ 2 ^ 31 - 1)
    (hj : j < v.length / 8) (hk : k < 8) :
    (toBits (rotateRight (bytesOf v) n))[8 * j + k]? =
      v[8 * ((j + v.length / 8 - n % (v.length / 8)) % (v.length / 8)) + k]? := by
  conv_rhs => rw [← toBits_bytesOf v hlen]
  rw [toBits_bit? _ _ hk, rotateRight_getElem? _ _ _ hn (by simpa using hj), toBits_bytesOf v hlen, bytesOf_length,
    ← toBits_bit? _ _ hk, toBits_bytesOf v hlen]

/-- Settles O22: ROTR writes the rotation of the source's bytes, and an amount over the limit rotates nothing. -/
theorem rotrRotatesWholeBytes : Obligations.RotrRotatesWholeBytes := by
  rintro d a b s n hn
  obtain rfl : s.number b = n := hn
  refine ⟨exec_rotr_nullOperand, ?_⟩
  rintro v len hv rfl
  refine ⟨exec_rotr_length hv, fun hlen => ?completes⟩
  case completes =>
    obtain ⟨t, hexec, hwrote⟩ := exec_rotr_completes (d := d) (b := b) hv hlen
    refine ⟨t, _, hexec, hwrote, ?length, fun hbig => ?still, fun hn j hj k hk => toBits_rotateRight_bit hlen hn hj hk⟩
    case length => simp; omega
    case still => rw [rotateRight, if_pos hbig, toBits_bytesOf v hlen]

/-! ### Digits and algorithms (R11, R161) -/

/-- Settles O23: the tables, evaluated. -/
theorem algorithmOfEachHexDigit : Obligations.AlgorithmOfEachHexDigit := by
  refine ⟨?lower, ?upper, ?values, ?lowerCodes, ?upperCodes⟩ <;> decide

/-! ### DRV (R167) -/

theorem drvSeed_nullOperand {a : BufReg} {b : ScalReg} {s : State} (hv : s.buf a = none) :
    drvSeed a b s = .error (.raise .nullOperand) :=
  except_bind_error.mpr (.inl (textOperand_error.mpr (.inl ⟨hv, rfl⟩)))

section
variable {a : BufReg} {b : ScalReg} {s : State} {v : Bits}

theorem drvSeed_length (hv : s.buf a = some v) (hlen : v.length % 8 ≠ 0) : drvSeed a b s = .error (.raise .length) :=
  except_bind_error.mpr (.inl (textOperand_error.mpr (.inr ⟨v, hv, hlen, rfl⟩)))

theorem drvSeed_capacity (hv : s.buf a = some v) (hlen : v.length % 8 = 0) (hcap : s.params.maxlen < 8 * s.number b) :
    drvSeed a b s = .error (.raise .capacity) :=
  except_bind_error.mpr (.inr ⟨_, textOperand_ok.mpr ⟨v, hv, hlen, rfl⟩,
    except_bind_error.mpr (.inl (require_error.mpr ⟨decide_eq_false hcap.not_ge, rfl⟩))⟩)

end

/-- A DRV whose seed is refused is error entry (R222). -/
theorem exec_drv_refused {d a : BufReg} {b : ScalReg} {s : State} {e : ErrorCode}
    (h : drvSeed a b s = .error (.raise e)) :
    ∃ t, exec (.drv d a b) s = .next t ∧ Raised s t (errInfoWord e .none) (encode (.drv d a b)) :=
  finish_raised e rfl rfl (except_bind_error.mpr (.inl h))

/-- Settles O26: each clause is one outcome of the checks or of a whole derivation from the seed. -/
theorem drvDerivesFromItsSeed : Obligations.DrvDerivesFromItsSeed := by
  intro d a b s n hn
  obtain rfl : s.number b = n := hn
  refine ⟨fun hv => exec_drv_refused (drvSeed_nullOperand hv), fun v hv =>
    ⟨fun hlen => exec_drv_refused (drvSeed_length hv hlen),
     fun hlen hcap => exec_drv_refused (drvSeed_capacity hv hlen hcap), fun hlen hcap hfresh => ?derives⟩⟩
  case derives =>
    rw [exec_drv_eq (drvSeed_ok.mpr ⟨v, hv, hlen, hcap, rfl⟩), runDerivation_fresh hfresh]
    refine ⟨fun hnone => ?unavailable, fun out hout => ?available⟩
    case unavailable => exact finish_raised .hashUnavailable rfl rfl (by simp [hnone])
    case available => exact finish_wroteBuffer (by simp [hout])

end Sys2Proof.Machine
end

section
/-! SUPPORT. The bit buffers: settles CutSlices, MrgConcatenates and CutThenMergeRestores (45_bitbuffer.md rules R210 to
R212). -/

namespace Sys2Proof.Machine

/-! ### CUT (R210) -/

theorem exec_cut_nullOperand {d a : BufReg} {b c : ScalReg} {s : State} (hv : s.buf a = none) :
    ∃ t, exec (.cut d a b c) s = .next t ∧ Raised s t 0x6 (encode (.cut d a b c)) :=
  finish_raised .nullOperand rfl rfl <| except_bind_error.mpr (.inl (operand_error.mpr ⟨hv, rfl⟩))

section
variable {d a : BufReg} {b c : ScalReg} {s : State} {v : Bits}

theorem exec_cut_length (hv : s.buf a = some v) (hrange : ¬(s.number b ≤ s.number c ∧ s.number c ≤ v.length)) :
    ∃ t, exec (.cut d a b c) s = .next t ∧ Raised s t 0x3 (encode (.cut d a b c)) :=
  finish_raised .length rfl rfl <|
    except_bind_error.mpr (.inr ⟨v, operand_ok.mpr hv,
      except_bind_error.mpr (.inl (require_error.mpr ⟨decide_eq_false hrange, rfl⟩))⟩)

theorem exec_cut_completes (hv : s.buf a = some v) (hrange : s.number b ≤ s.number c ∧ s.number c ≤ v.length) :
    ∃ t, exec (.cut d a b c) s = .next t ∧ WroteBuffer s t d (some (slice v (s.number b) (s.number c))) :=
  finish_wroteBuffer <|
    except_bind_ok.mpr ⟨v, operand_ok.mpr hv,
      except_bind_ok.mpr ⟨(), require_ok.mpr (decide_eq_true hrange), rfl⟩⟩

end

/-- Settles O38: each clause is one outcome of CUT's checks, and the buffer is the slice bit by bit. -/
theorem cutSlices : Obligations.CutSlices := by
  intro d a b c s st en hst hen
  obtain rfl : s.number b = st := hst
  obtain rfl : s.number c = en := hen
  refine ⟨exec_cut_nullOperand, fun v hv => ⟨exec_cut_length hv, fun hrange => ?completes⟩⟩
  case completes =>
    obtain ⟨t, hexec, hwrote⟩ := exec_cut_completes (d := d) hv hrange
    refine ⟨t, _, hexec, hwrote, ?length, fun i hi => ?bit⟩
    case length => rw [slice_length]; omega
    case bit => rw [slice, List.getElem?_take, if_pos hi, List.getElem?_drop]

/-! ### MRG (R211) -/

theorem exec_mrg_nullOperand {d a b : BufReg} {s : State} (h : s.buf a = none ∨ s.buf b = none) :
    ∃ t, exec (.mrg d a b) s = .next t ∧ Raised s t 0x6 (encode (.mrg d a b)) := by
  refine finish_raised .nullOperand rfl rfl (except_bind_error.mpr ?_)
  cases ha : s.buf a with
  | none => exact .inl (operand_error.mpr ⟨ha, rfl⟩)
  | some u =>
    have hb : s.buf b = none := h.resolve_left (by simp [ha])
    exact .inr ⟨u, operand_ok.mpr ha, except_bind_error.mpr (.inl (operand_error.mpr ⟨hb, rfl⟩))⟩

section
variable {d a b : BufReg} {s : State} {u v : Bits}

theorem exec_mrg_capacity (hu : s.buf a = some u) (hv : s.buf b = some v) (hcap : s.params.maxlen < u.length + v.length) :
    ∃ t, exec (.mrg d a b) s = .next t ∧ Raised s t 0x9 (encode (.mrg d a b)) :=
  finish_raised .capacity rfl rfl <|
    except_bind_error.mpr (.inr ⟨u, operand_ok.mpr hu,
      except_bind_error.mpr (.inr ⟨v, operand_ok.mpr hv,
        except_bind_error.mpr (.inl (require_error.mpr ⟨decide_eq_false hcap.not_ge, rfl⟩))⟩)⟩)

theorem exec_mrg_completes (hu : s.buf a = some u) (hv : s.buf b = some v) (hcap : u.length + v.length ≤ s.params.maxlen) :
    ∃ t, exec (.mrg d a b) s = .next t ∧ WroteBuffer s t d (some (u ++ v)) :=
  finish_wroteBuffer <|
    except_bind_ok.mpr ⟨u, operand_ok.mpr hu,
      except_bind_ok.mpr ⟨v, operand_ok.mpr hv,
        except_bind_ok.mpr ⟨(), require_ok.mpr (decide_eq_true hcap), rfl⟩⟩⟩

end

/-- Settles O39: each clause is one outcome of MRG's checks, and the buffer is the first part, then the second. -/
theorem mrgConcatenates : Obligations.MrgConcatenates := by
  intro d a b s
  refine ⟨exec_mrg_nullOperand, fun u v hu hv => ⟨exec_mrg_capacity hu hv, fun hcap => ?completes⟩⟩
  case completes =>
    obtain ⟨t, hexec, hwrote⟩ := exec_mrg_completes (d := d) hu hv hcap
    refine ⟨t, _, hexec, hwrote, List.length_append, fun i hi => List.getElem?_append_left hi, fun i _ => ?second⟩
    case second => rw [List.getElem?_append_right (by omega), Nat.add_sub_cancel_left]

/-! ### CUT, CUT and MRG (R212) -/

theorem Completed.params {s t : State} (h : Completed s t) : t.params = s.params := by
  rw [h]

/-- The two parts of a sequence cut at `m` make it up. -/
theorem slice_append_slice (v : Bits) (m : Nat) : slice v 0 m ++ slice v m v.length = v := by
  rw [slice_zero, slice, List.take_of_length_le (l := v.drop m) (by simp), List.take_append_drop]

/-- Settles O40: the first CUT leaves the source and the second the first part, so MRG has both, within capacity because the
source was. -/
theorem cutThenMergeRestores : Obligations.CutThenMergeRestores := by
  intro s a d e g z m l v hinv hv hz hm hl hda hde
  obtain ⟨t, hcut, hdone, htd, htother, htscalars, -⟩ :=
    exec_cut_completes (d := d) (b := z) (c := m) hv ⟨by simp [State.number, hz], hm⟩
  have hnum (r : ScalReg) : t.number r = s.number r := congrArg BitVec.toNat (htscalars r)
  have htv : t.buf a = some v := (htother a hda.symm).trans hv
  obtain ⟨u, hcut', hdone', hue, huother, -⟩ :=
    exec_cut_completes (d := e) (b := m) (c := l) htv (by simp only [hnum]; exact ⟨hm.trans hl.ge, hl.le⟩)
  have hud := (huother d hde).trans htd
  have hfirst : slice v (s.number z) (s.number m) = slice v 0 (s.number m) := by rw [show s.number z = 0 from hz]
  have hsecond : slice v (t.number m) (t.number l) = slice v (s.number m) v.length := by
    rw [hnum, hnum, show s.number l = v.length from hl]
  rw [hfirst] at hud
  rw [hsecond] at hue
  have hcap : (slice v 0 (s.number m)).length + (slice v (s.number m) v.length).length ≤ u.params.maxlen := by
    rw [← List.length_append, slice_append_slice, hdone'.params, hdone.params]
    exact hinv.buf_fits a v hv
  obtain ⟨x, hmrg, -, hxg, -⟩ := exec_mrg_completes (d := g) hud hue hcap
  exact ⟨t, u, x, hcut, hcut', hmrg, by rw [hxg, slice_append_slice]⟩

end Sys2Proof.Machine
end

section
/-! SUPPORT. The frame commands: settles FrameChecksRaiseInOrder, FillerErrors, FencKeepsTheTailItsHeaderNames,
PlainFramesXorWithTheKey, PlainRoundTrip and SecureRoundTripWithZeroKeyPrefix (44_secureframe.md rules R180 to R187). -/

namespace Sys2Proof.Machine

/-! ### The checks of FENC and FDEC (R181, R182, R221) -/

section
variable {i : Instr} {s : State} {f : Bool} {x : BufReg} {e : ErrorCode} {info : Word}

/-- A frame check that fails is error entry, wrapped. -/
theorem exec_frame_checkFails (hi : (i = .fenc f ∧ x = 0) ∨ (i = .fdec f ∧ x = 2)) (hinfo : errInfoWord .convert e = info)
    (h : s.frameCheck x = .error (.raise e)) : ∃ t, exec i s = .next t ∧ RaisedBy i s t info := by
  rcases hi with ⟨rfl, rfl⟩ | ⟨rfl, rfl⟩
  · exact finish_raisedBy e hinfo (except_bind_error.mpr (.inl h))
  · exact finish_raisedBy e hinfo (except_bind_error.mpr (.inl h))

/-- A filler that fails is error entry, wrapped. -/
theorem exec_frame_fillerFails {p k : Bits} (hi : (i = .fenc f ∧ x = 0) ∨ (i = .fdec f ∧ x = 2))
    (hinfo : errInfoWord .convert e = info) (hready : FrameReady s x p k)
    (h : s.fillerOf f (frameShape p k) = .error (.raise e)) : ∃ t, exec i s = .next t ∧ RaisedBy i s t info := by
  have hcheck := frameCheck_frameShape.mpr hready
  rcases hi with ⟨rfl, rfl⟩ | ⟨rfl, rfl⟩
  · rw [exec_fenc_eq hcheck]
    exact finish_raisedBy e hinfo (except_bind_error.mpr (.inl h))
  · rw [exec_fdec_eq hcheck]
    exact finish_raisedBy e hinfo (except_bind_error.mpr (.inl h))

end

/-- Settles O31: the frame check is the first thing both commands do, and its failures come in order. -/
theorem frameChecksRaiseInOrder : Obligations.FrameChecksRaiseInOrder := by
  intro f s i x hi
  refine ⟨fun habsent => exec_frame_checkFails hi (by decide) (frameCheck_absent habsent), fun p k hp hk =>
    ⟨?emptyKey, fun hne hbytes => ?wholeBytes, fun hne hp8 hk8 hrange => ?range⟩⟩
  case emptyKey =>
    rintro rfl
    exact exec_frame_checkFails hi (by decide) (frameCheck_emptyKey hp hk)
  case wholeBytes => exact exec_frame_checkFails hi (by decide) (frameCheck_length hp hk hne (by omega))
  case range => exact exec_frame_checkFails hi (by decide) (frameCheck_length hp hk hne (by omega))

theorem fillerOf_absent {s : State} {shape : FrameShape} (h : s.buf 3 = none) :
    s.fillerOf true shape = .error (.raise .nullOperand) :=
  except_bind_error.mpr (.inl (operand_error.mpr ⟨h, rfl⟩))

theorem fillerOf_length {s : State} {shape : FrameShape} {fil : Bits} (h : s.buf 3 = some fil)
    (hlen : fil.length ≠ 8 * shape.fillerLen) : s.fillerOf true shape = .error (.raise .length) :=
  except_bind_error.mpr (.inr ⟨fil, operand_ok.mpr h,
    except_bind_error.mpr (.inl (require_error.mpr ⟨beq_false_of_ne hlen, rfl⟩))⟩)

theorem fillerOf_unavailable {s : State} {shape : FrameShape} (hfresh : s.derivationFresh)
    (h : derive s.params.hashFirst (bytesOf shape.payload) shape.fillerLen = none) :
    s.fillerOf false shape = .error (.raise .hashUnavailable) := by
  refine except_bind_error.mpr (.inl ?_)
  rw [runDerivation_fresh hfresh, h]

/-- Settles O32: the filler comes right after the frame check, and each clause is one failure of it. -/
theorem fillerErrors : Obligations.FillerErrors := by
  intro s x p k hready mk hmk
  have hi (f : Bool) : (mk f = .fenc f ∧ x = 0) ∨ (mk f = .fdec f ∧ x = 2) :=
    hmk.imp (And.imp_left fun h => congrFun h f) (And.imp_left fun h => congrFun h f)
  exact ⟨fun habsent => exec_frame_fillerFails (hi true) (by decide) hready (fillerOf_absent habsent),
    fun fil hfil hlen => exec_frame_fillerFails (hi true) (by decide) hready (fillerOf_length hfil hlen),
    fun hfresh hnone => exec_frame_fillerFails (hi false) (by decide) hready (fillerOf_unavailable hfresh hnone)⟩

/-! ### FENC (R183) -/

theorem finish_wroteEncoded {i : Instr} {s : State} {v : Bits} {r : Except Stop State} (h : r = .ok (s.writeEncoded v)) :
    ∃ t, finish i s r = .next t ∧ WroteEncoded s t v :=
  ⟨_, finish_of_ok h, wroteEncoded_complete s v⟩

section
variable {f : Bool} {s : State} {p k fil : Bits}

/-- With its operands there, FENC is the check of the header after the XOR, and the write. -/
theorem exec_fenc_ready (hready : FrameReady s 0 p k) (hfil : FillerIs s f p k fil) :
    exec (.fenc f) s = finish (.fenc f) s (s.encodeFrame (frameShape p k) fil) := by
  rw [exec_fenc_eq (frameCheck_frameShape.mpr hready), hfil.fillerOf, except_ok_bind]

theorem exec_fenc_length (hready : FrameReady s 0 p k) (hfil : FillerIs s f p k fil)
    (hlong : k.length < 8 * uint ((frameXor (frameShape p k) fil).take 32)) :
    ∃ t, exec (.fenc f) s = .next t ∧ RaisedEncode s t 0x35 (encode (.fenc f)) := by
  obtain ⟨hlen, -⟩ := isFrame_frameXor hready hfil.length
  rw [← hlen, ← slice_zero] at hlong
  rw [exec_fenc_ready hready hfil]
  exact finish_raisedBy (i := .fenc f) .length rfl
    (except_bind_error.mpr (.inl (require_error.mpr ⟨decide_eq_false hlong.not_ge, rfl⟩)))

theorem exec_fenc_completes (hready : FrameReady s 0 p k) (hfil : FillerIs s f p k fil)
    (hfits : 8 * uint ((frameXor (frameShape p k) fil).take 32) ≤ k.length) :
    ∃ t, exec (.fenc f) s = .next t ∧ WroteEncoded s t ((frameXor (frameShape p k) fil).drop
      (k.length - 8 * uint ((frameXor (frameShape p k) fil).take 32))) := by
  obtain ⟨hlen, -⟩ := isFrame_frameXor hready hfil.length
  rw [← hlen, ← slice_zero] at hfits ⊢
  rw [exec_fenc_ready hready hfil, ← slice_tail]
  exact finish_wroteEncoded (except_bind_ok.mpr ⟨(), require_ok.mpr (decide_eq_true hfits), rfl⟩)

end

/-- Settles O33: `frameXor` is the frame, and its header after the XOR decides between the two ends. -/
theorem fencKeepsTheTailItsHeaderNames : Obligations.FencKeepsTheTailItsHeaderNames := by
  intro f s p k fil hready hfil
  exact ⟨_, isFrame_frameXor hready hfil.length, exec_fenc_length hready hfil, exec_fenc_completes hready hfil⟩

/-! ### PENC and PDEC (R185, R186) -/

section
variable {s : State} {x : BufReg} {strict : Bool}

theorem plainOperands_nullOperand (hp : s.buf x = none) : s.plainOperands x strict = .error (.raise .nullOperand) :=
  except_bind_error.mpr (.inl (operand_error.mpr ⟨hp, rfl⟩))

theorem plainOperands_emptyKey {p : Bits} (hp : s.buf x = some p) (hk : s.buf 1 = none ∨ s.buf 1 = some []) :
    s.plainOperands x strict = .error (.raise .emptyKey) :=
  except_bind_error.mpr (.inr ⟨p, operand_ok.mpr hp, except_bind_error.mpr (.inl (keyOperand_error.mpr ⟨hk, rfl⟩))⟩)

theorem plainOperands_mismatch {p k : Bits} (hp : s.buf x = some p) (hk : s.buf 1 = some k) (hne : k ≠ [])
    (hlen : k.length ≠ p.length) : s.plainOperands x true = .error (.raise .keyLengthMismatch) :=
  except_bind_error.mpr (.inr ⟨p, operand_ok.mpr hp,
    except_bind_error.mpr (.inr ⟨k, keyOperand_ok.mpr ⟨hk, hne⟩,
      except_bind_error.mpr (.inl (require_error.mpr ⟨beq_false_of_ne hlen, rfl⟩))⟩)⟩)

end

/-- A plain frame command whose operands are refused is error entry, wrapped. -/
theorem exec_plain_refused {i : Instr} {s : State} {strict : Bool} {x : BufReg} {e : ErrorCode} {info : Word}
    (hi : (i = .penc strict ∧ x = 0) ∨ (i = .pdec strict ∧ x = 2)) (hinfo : errInfoWord .convert e = info)
    (h : s.plainOperands x strict = .error (.raise e)) : ∃ t, exec i s = .next t ∧ RaisedBy i s t info := by
  rcases hi with ⟨rfl, rfl⟩ | ⟨rfl, rfl⟩
  · exact finish_raisedBy e hinfo (except_bind_error.mpr (.inl h))
  · exact finish_raisedBy e hinfo (except_bind_error.mpr (.inl h))

section
variable {s : State} {strict : Bool} {p k : Bits}

theorem exec_penc_completes (hp : s.buf 0 = some p) (hk : s.buf 1 = some k) (hne : k ≠ [])
    (hlen : strict = true → k.length = p.length) :
    ∃ t, exec (.penc strict) s = .next t ∧ WroteEncoded s t (xorWith p k) :=
  finish_wroteEncoded <| except_bind_ok.mpr ⟨(p, k), plainOperands_ok.mpr ⟨hp, hk, hne, hlen⟩, rfl⟩

theorem exec_pdec_completes (hp : s.buf 2 = some p) (hk : s.buf 1 = some k) (hne : k ≠ [])
    (hlen : strict = true → k.length = p.length) :
    ∃ t, exec (.pdec strict) s = .next t ∧ WroteDecoded s t (xorWith p k) :=
  finish_wroteDecoded <| except_bind_ok.mpr ⟨(p, k), plainOperands_ok.mpr ⟨hp, hk, hne, hlen⟩, rfl⟩

end

/-- Settles O35: each clause is one outcome of the operands' checks, for either command. -/
theorem plainFramesXorWithTheKey : Obligations.PlainFramesXorWithTheKey := by
  intro strict s i x hi
  refine ⟨fun hp => exec_plain_refused hi (by decide) (plainOperands_nullOperand hp), fun p hp =>
    ⟨fun hk => exec_plain_refused hi (by decide) (plainOperands_emptyKey hp hk), fun k hk hne =>
      ⟨?mismatch, fun hlen => ?completes⟩⟩⟩
  case mismatch =>
    rintro rfl hlen
    exact exec_plain_refused hi (by decide) (plainOperands_mismatch hp hk hne hlen)
  case completes =>
    rcases hi with ⟨rfl, rfl⟩ | ⟨rfl, rfl⟩
    · obtain ⟨t, hexec, hwrote⟩ := exec_penc_completes hp hk hne hlen
      exact ⟨t, _, hexec, by rwa [if_pos rfl], xorWith_length p k, xorWith_getD p k⟩
    · obtain ⟨t, hexec, hwrote⟩ := exec_pdec_completes hp hk hne hlen
      exact ⟨t, _, hexec, by rwa [if_neg (by decide)], xorWith_length p k, xorWith_getD p k⟩

/-- Settles O36: PENC leaves the key, and the key's keystream undoes itself. -/
theorem plainRoundTrip : Obligations.PlainRoundTrip := by
  intro strictE strictD s p k hp hk hne hlen
  obtain ⟨t, hexec, hwrote⟩ := exec_penc_completes hp hk hne fun h => hlen (.inl h)
  obtain ⟨-, hcipher, hother, -⟩ := id hwrote
  refine ⟨t, _, hexec, hwrote, xorWith_length p k, fun t' hkey hin => ?_⟩
  have hk' : t'.buf 1 = some k := hkey.trans ((hother 1 (by decide)).trans hk)
  have hback := exec_pdec_completes (strict := strictD) (hin.trans hcipher) hk' hne fun h => by
    rw [xorWith_length]
    exact hlen (.inr h)
  rwa [xorWith_involutive] at hback

/-! ### The secure round trip (R187) -/

/-- Sequences that agree at every index, read with a default, are one sequence. -/
theorem bits_ext {u v : Bits} (hlen : u.length = v.length) (h : ∀ i < v.length, u.getD i false = v.getD i false) :
    u = v := by
  refine List.ext_getElem hlen fun i hu hv => ?_
  simpa [List.getD_eq_getElem?_getD, hu, hv] using h i hv

section
variable {p fil k r : Bits}

/-- Where the key starts with 32 zeros, the frame's header is left as it was, so it names the payload's byte count. -/
theorem IsFrame.uint_take (h : IsFrame p fil k r) (hk : 32 ≤ k.length) (hzero : ∀ i < 32, k.getD i false = false)
    (hp : p.length / 8 ≤ headerMax) : uint (r.take 32) = p.length / 8 := by
  have htake : r.take 32 = be32 (p.length / 8) := by
    obtain ⟨hlen, -⟩ := id h
    refine bits_ext (by simp; omega) fun i hi => ?_
    rw [be32_length] at hi
    rw [List.getD_eq_getElem?_getD, List.getElem?_take, if_pos hi, ← List.getD_eq_getElem?_getD, h.header hk hi, hzero i hi,
      Bool.xor_false]
  rw [htake, uint_be32 _ (by unfold headerMax at hp; omega)]

/-- The end of a frame is its payload, XORed with the end of the key (R180). -/
theorem IsFrame.payload (h : IsFrame p fil k r) (hfil : 32 + fil.length + p.length = k.length) {i : Nat}
    (hi : i < p.length) :
    (r.drop (k.length - p.length)).getD i false = (p.getD i false ^^ k.getD (k.length - p.length + i) false) := by
  obtain ⟨-, hbits⟩ := h
  rw [List.getD_eq_getElem?_getD, List.getElem?_drop, ← List.getD_eq_getElem?_getD, hbits _ (by omega),
    List.getD_append_right _ _ _ _ (by simp; omega)]
  congr 2
  simp
  omega

end

/-- Header, filler and payload fill the key (R180). -/
theorem FrameReady.length_sum {s : State} {x : BufReg} {f : Bool} {p k fil : Bits} (h : FrameReady s x p k)
    (hfil : FillerIs s f p k fil) : 32 + fil.length + p.length = k.length := by
  obtain ⟨-, -, -, h1, h2, -, h4⟩ := h
  have hlen := hfil.length
  unfold fillerBytes at hlen
  omega

/-- With a key that starts with 32 zeros, FENC gives the payload XORed with the end of the key. -/
theorem exec_fenc_zeroHeader {f : Bool} {s : State} {p k fil : Bits} (hready : FrameReady s 0 p k)
    (hfil : FillerIs s f p k fil) (hzero : ∀ i < 32, k.getD i false = false) :
    ∃ t c, exec (.fenc f) s = .next t ∧ WroteEncoded s t c ∧ c.length = p.length ∧
      ∀ i < p.length, c.getD i false = (p.getD i false ^^ k.getD (k.length - p.length + i) false) := by
  have hframe := isFrame_frameXor hready hfil.length
  have hsum := hready.length_sum hfil
  obtain ⟨-, -, -, hbytes, -, hmax, -⟩ := id hready
  have hcount : 8 * uint ((frameXor (frameShape p k) fil).take 32) = p.length := by
    rw [hframe.uint_take hready.header_le_key hzero hmax]
    omega
  obtain ⟨t, hexec, hwrote⟩ := exec_fenc_completes hready hfil (by omega)
  rw [hcount] at hwrote
  refine ⟨t, _, hexec, hwrote, ?length, fun i hi => hframe.payload hsum hi⟩
  case length =>
    obtain ⟨hlen, -⟩ := hframe
    rw [List.length_drop, hlen]
    omega

/-- With such a key, FDEC of that ciphertext and HDRX of its 32 header bits give the payload. -/
theorem exec_fdec_hdrx_zeroHeader {g : Bool} {t : State} {c k p fil : Bits} (d : BufReg) (hready : FrameReady t 2 c k)
    (hfil : FillerIs t g c k fil) (hzero : ∀ i < 32, k.getD i false = false) (hlen : c.length = p.length)
    (hbits : ∀ i < p.length, c.getD i false = (p.getD i false ^^ k.getD (k.length - p.length + i) false)) :
    ∃ u x, exec (.fdec g) t = .next u ∧ exec (.hdrx d 0 32) u = .next x ∧ x.buf d = some p := by
  obtain ⟨u, hfdec, -, hu, -⟩ := exec_fdec_completes hready hfil
  have hframe := isFrame_frameXor hready hfil.length
  have hsum := hready.length_sum hfil
  generalize frameXor (frameShape c k) fil = r at hu hframe
  obtain ⟨-, -, -, hbytes, -, hmax, -⟩ := id hready
  have hcount : 8 * uint (r.take (32 : BitVec 6).toNat) = c.length := by
    rw [show (32 : BitVec 6).toNat = 32 from rfl, hframe.uint_take hready.header_le_key hzero hmax]
    omega
  obtain ⟨hr, -⟩ := id hframe
  have hheader : (32 : BitVec 6).toNat = 32 := rfl
  obtain ⟨x, hhdrx, -, hx, -⟩ := exec_hdrx_completes (d := d) (h := 32) hu (by omega) (by omega)
  refine ⟨u, x, hfdec, hhdrx, hx.trans (congrArg some (bits_ext ?length fun i hi => ?bit))⟩
  case length => rw [List.length_drop]; omega
  case bit =>
    rw [hcount, hr, hframe.payload hsum (by omega), hbits i hi, hlen, Bool.xor_assoc, Bool.xor_self, Bool.xor_false]

/-- Settles O37: both headers are left as they were, so each names the payload's length, and the key's end is XORed twice. -/
theorem secureRoundTripWithZeroKeyPrefix : Obligations.SecureRoundTripWithZeroKeyPrefix := by
  intro f g s p k fil d hready hfil hzero
  obtain ⟨t, c, hfenc, ⟨-, hc, hother, -⟩, hlen, hbits⟩ := exec_fenc_zeroHeader hready hfil hzero
  refine ⟨t, c, hfenc, hc, hlen, hbits, fun fil' hfil' => ?_⟩
  obtain ⟨-, hk, hne, h1, h2, h3, h4⟩ := hready
  have hready' : FrameReady t 2 c k :=
    ⟨hc, (hother 1 (by decide)).trans hk, hne, by rwa [hlen], h2, by rwa [hlen], by rwa [hlen]⟩
  exact exec_fdec_hdrx_zeroHeader d hready' hfil' hzero hlen hbits

end Sys2Proof.Machine
end

section
/-! SUPPORT. The host's window: settles ErrorCodesAreThoseOfTheTable, StatusWriteClearsWrittenOnes, WritesWhileBusy,
ReadsWhileBusy, ReadsWhenIdle, UnsupportedAccesses, DmemWindowWhenIdle, HostWritesScalarsAndEnables and HostReadsNoBufferBits
(10_state.md rules R32 to R45, 20_memory.md rules R65 and R66, 60_exceptions.md rules R220 to R224, 70_reset_and_hazards.md
rules R271 to R273). -/

namespace Sys2Proof.Machine

/-! ### ERRINFO and STATUS -/

/-- Settles O42: the codes by the table, the word by where each of its 32 bits stands. -/
theorem errorCodesAreThoseOfTheTable : Obligations.ErrorCodesAreThoseOfTheTable := by
  refine ⟨rfl, fun e c => ?_⟩
  apply BitVec.eq_of_getLsbD_eq
  intro i hi
  interval_cases i <;> simp only [errInfoWord, BitVec.getLsbD_append, BitVec.getLsbD_or] <;> simp

theorem State.target_ctrl (s : State) : s.target 0x004 .w32 = .reg .ctrl := s.target_hostReg (by decide) (by decide)
theorem State.target_status (s : State) : s.target 0x008 .w32 = .reg .status := s.target_hostReg (by decide) (by decide)
theorem State.target_errInfo (s : State) : s.target 0x010 .w32 = .reg .errInfo := s.target_hostReg (by decide) (by decide)
theorem State.target_errCmd (s : State) : s.target 0x014 .w32 = .reg .errCmd := s.target_hostReg (by decide) (by decide)
theorem State.target_fstat (s : State) : s.target 0x018 .w32 = .reg .fstat := s.target_hostReg (by decide) (by decide)
theorem State.target_bvalid (s : State) : s.target 0x080 .w32 = .reg .bvalid := s.target_hostReg (by decide) (by decide)

/-- A write of STATUS is the acknowledgement, busy or not (R224). -/
theorem State.access_write_status {s : State} (hpin : s.resetPin = false) (v : Word) :
    s.access (.write 0x008 .w32 v) = s.clearStatus v :=
  State.access_write_reg hpin s.target_status v

/-- Settles O44: offset 0x008 is STATUS. -/
theorem statusWriteClearsWrittenOnes : Obligations.StatusWriteClearsWrittenOnes :=
  fun _ v hpin => State.access_write_status hpin v

/-! ### Writes (R34, R42, R65, R272) -/

section
variable {s : State} {v : Word}

/-- The offsets of data memory in its window (R65). -/
theorem State.target_dmem_offset {off : HostOffset} (hlow : 0x10000 ≤ off.toNat)
    (hhigh : off.toNat < 0x10000 + s.params.dmemBytes) : s.target off .w8 = .dmem (off.toNat - 0x10000) :=
  State.target_dmem.mpr ⟨hlow, rfl, rfl, by omega⟩

theorem State.writeCtrl_enables (hv : v.getLsbD 31 = false) :
    s.writeCtrl v = { s with ieDone := v.getLsbD 0, ieErr := v.getLsbD 1, ieOvr := v.getLsbD 2 } :=
  if_neg (by rw [hv]; decide)

theorem State.writeCtrl_softReset (hv : v.getLsbD 31 = true) : s.writeCtrl v = s.softReset := if_pos hv

theorem State.access_write_scalar_idle (hpin : s.resetPin = false) (hidle : s.busy = false) (n : ScalReg) (v : Word) :
    s.access (.write (0x040 + 4 * n.setWidth 17) .w32 v) = s.writeScalar n v := by
  rw [State.access_write_reg hpin (s.target_scalar n)]
  exact if_neg (by simp [hidle])

theorem State.access_write_dmem_idle (hpin : s.resetPin = false) (hidle : s.busy = false) {off : HostOffset}
    (hlow : 0x10000 ≤ off.toNat) (hhigh : off.toNat < 0x10000 + s.params.dmemBytes) (v : Word) :
    s.access (.write off .w8 v) = s.writeBytes (off.toNat - 0x10000) [v.setWidth 8] := by
  rw [State.access_write_dmem hpin (State.target_dmem_offset hlow hhigh)]
  exact if_neg (by simp [hidle])

end

/-- A scalar after the host's write of one, and the rest of the state. -/
theorem writeScalar_frame (s : State) (n : ScalReg) (v : Word) :
    s.writeScalar n v = { s with scalars := (s.writeScalar n v).scalars } ∧ (s.writeScalar n v).scalar n = v ∧
      ∀ r, r ≠ n → (s.writeScalar n v).scalar r = s.scalar r :=
  ⟨rfl, by rw [State.scalar_writeScalar, if_pos rfl], fun r hr => by rw [State.scalar_writeScalar, if_neg hr]⟩

/-- A byte of memory after the host's write of one, and the rest of the state. -/
theorem writeByte_frame (s : State) (a : Nat) (b : Byte) :
    s.writeBytes a [b] = { s with dmem := (s.writeBytes a [b]).dmem } ∧ (s.writeBytes a [b]).readByte a = b ∧
      ∀ x, x ≠ a → (s.writeBytes a [b]).readByte x = s.readByte x := by
  refine ⟨rfl, s.readByte_writeBytes_stored a (bs := [b]) (j := 0) (by simp), fun x hx => ?_⟩
  exact s.readByte_writeBytes_outside (by simp only [List.length_singleton]; omega)

/-- Settles O57: the offsets name the scalars and CTRL, and the writes change only what they name. -/
theorem hostWritesScalarsAndEnables : Obligations.HostWritesScalarsAndEnables := by
  intro s v hpin hidle
  refine ⟨fun n => ⟨_, State.access_write_scalar_idle hpin hidle n v, writeScalar_frame s n v⟩, fun hv => ?enables⟩
  case enables => exact (State.access_write_reg hpin s.target_ctrl v).trans (State.writeCtrl_enables hv)

/-- A write of a register that is read-only or reserved is ignored (R33, R37 to R41, R43 to R45). -/
theorem State.writeReg_readOnly (s : State) {off : Nat} (v : Word)
    (hoff : off = 0x000 ∨ (0x010 ≤ off ∧ off < 0x040) ∨ (0x060 ≤ off ∧ off < 0x10000)) :
    s.writeReg (hostReg off) v = s := by
  rcases hostReg_cases off with ⟨-, h⟩ | ⟨ho, -⟩ | ⟨ho, -⟩ | ⟨ho, -⟩ | ⟨-, h⟩ | ⟨-, h⟩ | ⟨-, h⟩ | ⟨-, h⟩ | ⟨-, h⟩ |
    ⟨hlow, hhigh, -⟩ | ⟨-, -, n, h⟩ | ⟨-, h⟩ | h
  · rw [h]; rfl
  · omega
  · omega
  · omega
  · rw [h]; rfl
  · rw [h]; rfl
  · rw [h]; rfl
  · rw [h]; rfl
  · rw [h]; rfl
  · omega
  · rw [h]; rfl
  · rw [h]; rfl
  · rw [h]; rfl

/-- Settles O51: each offset names its register, and busy decides what the write does; a read-only register ignores it. -/
theorem writesWhileBusy : Obligations.WritesWhileBusy := by
  refine ⟨fun s v hpin hbusy =>
      ⟨fun n => ?scalar, fun off hlow hhigh => ?dmem, ?cmd, fun hv => ?enables, fun hv => ?reset, ?status⟩,
    fun s v off hpin halign hoff => ?readOnly⟩
  case scalar =>
    rw [State.access_write_reg hpin (s.target_scalar n)]
    exact if_pos hbusy
  case dmem =>
    rw [State.access_write_dmem hpin (State.target_dmem_offset hlow hhigh)]
    exact if_pos hbusy
  case cmd =>
    exact (State.access_write_reg hpin s.target_cmd v).trans (State.acceptCommand_of_busy_or_err (.inl hbusy) v)
  case enables => exact (State.access_write_reg hpin s.target_ctrl v).trans (State.writeCtrl_enables hv)
  case reset => exact (State.access_write_reg hpin s.target_ctrl v).trans (State.writeCtrl_softReset hv)
  case status => exact State.access_write_status hpin v
  case readOnly =>
    have htarget := s.target_hostReg (off := off) (by omega) halign
    exact (State.access_write_reg hpin htarget v).trans (s.writeReg_readOnly v hoff)

/-! ### Unsupported accesses, and the window above data memory (R65, R66) -/

theorem State.target_unsupported (s : State) {off : HostOffset} {width : AccessWidth}
    (h : (off.toNat < 0x10000 ∧ (width ≠ .w32 ∨ off.toNat % 4 ≠ 0)) ∨ (0x10000 ≤ off.toNat ∧ width ≠ .w8)) :
    s.target off width = .unsupported := by
  unfold State.target
  rcases h with ⟨hlow, hbad⟩ | ⟨hhigh, hbad⟩
  · rw [if_pos hlow, if_neg (by tauto)]
  · rw [if_neg hhigh.not_gt, if_neg hbad]

theorem State.target_dmemReserved (s : State) {off : HostOffset} (h : 0x10000 + s.params.dmemBytes ≤ off.toNat) :
    s.target off .w8 = .dmemReserved := by
  unfold State.target
  rw [if_neg (by omega), if_pos rfl, if_neg (by omega)]

/-- A read with no specified value draws a free one and records it (R273; log entries 11 and 26). -/
theorem State.access_read_of_none {s : State} {off : HostOffset} {width : AccessWidth} (h : s.hostRead off width = none) :
    s.access (.read off width) = { s with busReply := some (freeReply width s.draws), draws := s.draws + 1 } := by
  simp only [State.access, h]

/-- Settles O55: such an access reaches nothing. -/
theorem unsupportedAccesses : Obligations.UnsupportedAccesses := by
  intro s off width v hpin hbad
  have ht := s.target_unsupported hbad
  have hread : s.hostRead off width = none := by simp [State.hostRead, hpin, ht]
  exact ⟨by simp [State.access, State.hostWrite, hpin, ht], State.access_read_of_none hread⟩

/-- A read of data memory while the engine is idle (R65). -/
theorem State.hostRead_dmem_idle {s : State} (hpin : s.resetPin = false) (hidle : s.busy = false) {off : HostOffset}
    (hlow : 0x10000 ≤ off.toNat) (hhigh : off.toNat < 0x10000 + s.params.dmemBytes) :
    s.hostRead off .w8 = some ((s.readByte (off.toNat - 0x10000)).setWidth 32) := by
  rw [State.hostRead_dmem hpin (State.target_dmem_offset hlow hhigh)]
  exact if_neg (by simp [hidle])

/-- Settles O56: below its size the window is the byte of that address, above it is reserved. -/
theorem dmemWindowWhenIdle : Obligations.DmemWindowWhenIdle := by
  intro s off v hpin hidle hlow
  refine ⟨fun hhigh => ?inside, fun habove => ?above⟩
  case inside =>
    exact ⟨State.hostRead_dmem_idle hpin hidle hlow hhigh, _, State.access_write_dmem_idle hpin hidle hlow hhigh v,
      writeByte_frame s _ _⟩
  case above =>
    have ht := s.target_dmemReserved habove
    exact ⟨by simp [State.hostRead, hpin, ht], by simp [State.access, State.hostWrite, hpin, ht]⟩

/-! ### Reads (R33 to R44, R273) -/

/-- Where the four low bits of a word of flags stand. -/
theorem lowBits_bits (b3 b2 b1 b0 : Bool) :
    (lowBits b3 b2 b1 b0).getLsbD 0 = b0 ∧ (lowBits b3 b2 b1 b0).getLsbD 1 = b1 ∧ (lowBits b3 b2 b1 b0).getLsbD 2 = b2 ∧
      (lowBits b3 b2 b1 b0).getLsbD 3 = b3 ∧ lowBits b3 b2 b1 b0 >>> 4 = 0 := by
  revert b3 b2 b1 b0
  decide

theorem lowBits_shift_three (b2 b1 b0 : Bool) : lowBits false b2 b1 b0 >>> 3 = 0 := by
  revert b2 b1 b0
  decide

/-- A read of an aligned offset of the register window. -/
theorem State.hostRead_hostReg {s : State} (hpin : s.resetPin = false) {off : HostOffset} (hlt : off.toNat < 0x10000)
    (halign : off.toNat % 4 = 0) : s.hostRead off .w32 = s.readReg (hostReg off.toNat) :=
  State.hostRead_reg hpin (s.target_hostReg hlt halign)

/-- The registers that are no operand of a command read as when idle, and always have a value; STATUS apart, which shows BUSY
(R273). -/
theorem State.readReg_engine (s : State) {off : Nat} (halign : off % 4 = 0) (hstatus : off ≠ 0x008) (hfstat : off ≠ 0x018)
    (hbvalid : off ≠ 0x080) (hoperand : ¬(0x040 ≤ off ∧ off < 0x080)) :
    s.readReg (hostReg off) = ({ s with engine := .idle } : State).readReg (hostReg off) ∧
      s.readReg (hostReg off) ≠ none := by
  rcases hostReg_cases off with ⟨-, h⟩ | ⟨-, h⟩ | ⟨ho, -⟩ | ⟨-, h⟩ | ⟨-, h⟩ | ⟨-, h⟩ | ⟨ho, -⟩ | ⟨-, h⟩ | ⟨-, h⟩ |
    ⟨hlow, hhigh, -⟩ | ⟨hlow, hhigh, -⟩ | ⟨ho, -⟩ | h
  · rw [h]; exact ⟨rfl, Option.some_ne_none _⟩
  · rw [h]; exact ⟨rfl, Option.some_ne_none _⟩
  · omega
  · rw [h]; exact ⟨rfl, Option.some_ne_none _⟩
  · rw [h]; exact ⟨rfl, Option.some_ne_none _⟩
  · rw [h]; exact ⟨rfl, Option.some_ne_none _⟩
  · omega
  · rw [h]; exact ⟨rfl, Option.some_ne_none _⟩
  · rw [h]; exact ⟨rfl, Option.some_ne_none _⟩
  · omega
  · omega
  · omega
  · rw [h]; exact ⟨rfl, Option.some_ne_none _⟩

/-- Settles O52: while busy the operands' registers have no value and the rest do not ask for the engine, STATUS apart. -/
theorem readsWhileBusy : Obligations.ReadsWhileBusy := by
  refine ⟨fun s hpin hbusy => ⟨fun n => ?scalar, fun n => ?blenr, ?fstat, ?bvalid, fun off hlow hhigh => ?dmem, ?status,
    fun off hlt halign hs hf hb hop => ?others⟩, fun s off width => ⟨fun v h => ?specified, fun h => ?free⟩⟩
  case scalar => exact (State.hostRead_reg hpin (s.target_scalar n)).trans (if_pos hbusy)
  case blenr => exact (State.hostRead_reg hpin (s.target_blenr n)).trans (if_pos hbusy)
  case fstat => exact (State.hostRead_reg hpin s.target_fstat).trans (if_pos hbusy)
  case bvalid => exact (State.hostRead_reg hpin s.target_bvalid).trans (if_pos hbusy)
  case dmem => exact (State.hostRead_dmem hpin (State.target_dmem_offset hlow hhigh)).trans (if_pos hbusy)
  case status =>
    obtain ⟨h0, h1, h2, h3, hhigh⟩ := lowBits_bits s.stOvr s.stErr s.stDone s.busy
    exact ⟨s.statusWord, State.hostRead_reg hpin s.target_status, h0.trans hbusy, h1, h2, h3, hhigh⟩
  case others =>
    rw [State.hostRead_hostReg hpin hlt halign, State.hostRead_hostReg (s := { s with engine := .idle }) hpin hlt halign]
    have hne {n : HostOffset} (h : off ≠ n) : off.toNat ≠ n.toNat := fun hn => h (BitVec.eq_of_toNat_eq hn)
    exact s.readReg_engine halign (hne hs) (hne hf) (hne hb) hop
  case specified => exact State.access_read_of_some h
  case free => exact State.access_read_of_none h

/-- KEY_SET: the key is present and not empty (R25). -/
theorem State.keySet_iff (s : State) : s.keySet = true ↔ ∃ k, s.buf 1 = some k ∧ k ≠ [] := by
  unfold State.keySet
  rw [show keyReg = 1 from rfl]
  rcases s.buf 1 with _ | k <;> simp

/-- A word of eight flags, one a buffer register; BVALID is one (R44). -/
def registerFlags (x : BufReg → Bool) : Word :=
  0#24 ++ BitVec.ofBool (x 7) ++ BitVec.ofBool (x 6) ++ BitVec.ofBool (x 5) ++ BitVec.ofBool (x 4) ++
    BitVec.ofBool (x 3) ++ BitVec.ofBool (x 2) ++ BitVec.ofBool (x 1) ++ BitVec.ofBool (x 0)

theorem State.bvalidWord_eq (s : State) : s.bvalidWord = registerFlags fun n => (s.buf n).isSome := rfl

theorem registerFlags_getLsbD (x : BufReg → Bool) (n : BufReg) : (registerFlags x).getLsbD n.toNat = x n := by
  have hreg : ∀ n : BufReg, n = 0 ∨ n = 1 ∨ n = 2 ∨ n = 3 ∨ n = 4 ∨ n = 5 ∨ n = 6 ∨ n = 7 := by decide
  simp only [registerFlags, BitVec.getLsbD_append]
  rcases hreg n with rfl | rfl | rfl | rfl | rfl | rfl | rfl | rfl <;> simp

theorem registerFlags_shift_eight (x : BufReg → Bool) : registerFlags x >>> 8 = 0 := by
  apply BitVec.eq_of_getLsbD_eq
  intro i hi
  rw [BitVec.getLsbD_ushiftRight]
  simp only [registerFlags, BitVec.getLsbD_append]
  simp

/-- The parameters of a legal state are 32-bit numbers (R5, R40, R41). -/
theorem State.Inv.params_lt {s : State} (h : s.Inv) : s.params.maxlen < 2 ^ 32 ∧ s.params.dmemBytes < 2 ^ 32 := by
  have hlegal := h.params_legal
  simp only [Params.legal, Bool.and_eq_true, decide_eq_true_eq] at hlegal
  obtain ⟨⟨⟨⟨-, -⟩, hmax⟩, -⟩, hdmem⟩ := hlegal
  exact ⟨hmax, by omega⟩

/-- The length register of a legal state holds the length, and 0 for an absent buffer (R43). -/
theorem State.Inv.blenWord_toNat {s : State} (h : s.Inv) (n : BufReg) :
    (s.blenWord n).toNat = ((s.buf n).map List.length).getD 0 := by
  unfold State.blenWord
  cases hv : s.buf n with
  | none => rfl
  | some v => exact (BitVec.toNat_ofNat _ _).trans (Nat.mod_eq_of_lt (h.length_lt hv))

/-- Settles O53: each offset names its register, and each register's word has its bits at their places. -/
theorem readsWhenIdle : Obligations.ReadsWhenIdle := by
  intro s hinv hpin hidle
  have hnot : ¬s.busy = true := by simp [hidle]
  obtain ⟨hmax, hdmem⟩ := hinv.params_lt
  refine ⟨State.hostRead_reg hpin s.target_id, State.hostRead_reg hpin s.target_cmd, State.hostRead_reg hpin s.target_errInfo,
    State.hostRead_reg hpin s.target_errCmd, ⟨_, State.hostRead_reg hpin s.target_capMaxlen, ?maxlen⟩,
    ⟨_, State.hostRead_reg hpin s.target_capDmem, ?dmem⟩, fun n => ?scalar, ?ctrl, ?status, ?fstat, fun n => ?blenr, ?bvalid⟩
  case maxlen => rw [BitVec.toNat_ofNat, Nat.mod_eq_of_lt hmax]
  case dmem => rw [BitVec.toNat_ofNat, Nat.mod_eq_of_lt hdmem]
  case scalar => exact (State.hostRead_reg hpin (s.target_scalar n)).trans (if_neg hnot)
  case ctrl =>
    obtain ⟨h0, h1, h2, -, -⟩ := lowBits_bits false s.ieOvr s.ieErr s.ieDone
    exact ⟨s.ctrlWord, State.hostRead_reg hpin s.target_ctrl, h0, h1, h2, lowBits_shift_three _ _ _⟩
  case status =>
    obtain ⟨h0, h1, h2, h3, hhigh⟩ := lowBits_bits s.stOvr s.stErr s.stDone s.busy
    exact ⟨s.statusWord, State.hostRead_reg hpin s.target_status, h0.trans hidle, h1, h2, h3, hhigh⟩
  case fstat =>
    obtain ⟨h0, h1, h2, h3, hhigh⟩ := lowBits_bits s.total s.keySet s.decReady s.encReady
    have hkey : s.fstatWord.getLsbD 2 = s.keySet := h2
    refine ⟨s.fstatWord, (State.hostRead_reg hpin s.target_fstat).trans (if_neg hnot), h0, h1, ?_, ?_, hhigh⟩
    · rw [hkey, s.keySet_iff]
    · rw [hkey]
      exact h3
  case blenr => exact ⟨_, (State.hostRead_reg hpin (s.target_blenr n)).trans (if_neg hnot), hinv.blenWord_toNat n⟩
  case bvalid =>
    have hread : s.hostRead 0x080 .w32 = some (registerFlags fun n => (s.buf n).isSome) := by
      rw [State.hostRead_reg hpin s.target_bvalid, ← s.bvalidWord_eq]
      exact if_neg hnot
    exact ⟨_, hread, registerFlags_getLsbD _, registerFlags_shift_eight _⟩

/-! ### What a read shows of a buffer (R21) -/

section
variable {s t : State} (h : SameButBufferBits s t)
include h

theorem SameButBufferBits.isSome (r : BufReg) : (t.buf r).isSome = (s.buf r).isSome := by
  obtain ⟨-, hlen⟩ := h
  simpa using congrArg Option.isSome (hlen r)

theorem SameButBufferBits.blenWord (r : BufReg) : t.blenWord r = s.blenWord r := by
  obtain ⟨-, hlen⟩ := h
  have hr := hlen r
  unfold State.blenWord
  cases ht : t.buf r <;> cases hs : s.buf r <;> simp_all

theorem SameButBufferBits.keySet : t.keySet = s.keySet := by
  obtain ⟨-, hlen⟩ := h
  have hr := hlen keyReg
  unfold State.keySet
  have hempty {u v : Bits} (huv : u.length = v.length) : u.isEmpty = v.isEmpty := by
    rw [Bool.eq_iff_iff, List.isEmpty_iff_length_eq_zero, List.isEmpty_iff_length_eq_zero, huv]
  cases ht : t.buf keyReg <;> cases hs : s.buf keyReg <;> simp_all
  exact hempty hr

theorem SameButBufferBits.fstatWord : t.fstatWord = s.fstatWord := by
  have hkey := h.keySet
  obtain ⟨ht, -⟩ := h
  have henc : t.encReady = s.encReady := by rw [ht]
  have hdec : t.decReady = s.decReady := by rw [ht]
  unfold State.fstatWord State.total
  rw [hkey, henc, hdec]

/-- No register's word has more of a buffer than its presence and its length. -/
theorem SameButBufferBits.readReg (r : HostReg) : t.readReg r = s.readReg r := by
  have hfstat := h.fstatWord
  have hblen := h.blenWord
  have hbvalid : t.bvalidWord = s.bvalidWord := by
    rw [State.bvalidWord_eq, State.bvalidWord_eq]
    exact congrArg registerFlags (funext h.isSome)
  obtain ⟨ht, -⟩ := h
  have hbusy : t.busy = s.busy := by rw [ht]; rfl
  cases r with
  | fstat => simp only [State.readReg, hbusy, hfstat]
  | blenr n => simp only [State.readReg, hbusy, hblen]
  | bvalid => simp only [State.readReg, hbusy, hbvalid]
  | _ => rw [ht]; rfl

end

/-- Settles O60: the target of an access asks for the parameters, and what is read there for no bit of a buffer. -/
theorem hostReadsNoBufferBits : Obligations.HostReadsNoBufferBits := by
  intro s t off width h
  have hreg := h.readReg
  obtain ⟨ht, -⟩ := h
  have hpin : t.resetPin = s.resetPin := by rw [ht]
  have htarget : t.target off width = s.target off width := by rw [ht]; rfl
  have hbusy : t.busy = s.busy := by rw [ht]; rfl
  have hbyte (a : Nat) : t.readByte a = s.readByte a := State.readByte_congr (by rw [ht]) (by rw [ht]) a
  simp only [State.hostRead, hpin, htarget, hbusy, hreg, hbyte]

end Sys2Proof.Machine
end

section
/-! SUPPORT. Resets and coincident events: settles HardwareResetResetsEverything, SoftResetKeepsDataMemory and
CoincidentEventsEndFirst (60_exceptions.md rule R228, 70_reset_and_hazards.md rules R260 and R262). -/

namespace Sys2Proof.Machine

/-! ### The hardware reset (R260) -/

/-- Settles O59: while reset is asserted an access goes nowhere, and its release is `State.hardwareReset`. -/
theorem hardwareResetResetsEverything : Obligations.HardwareResetResetsEverything := by
  intro s
  exact ⟨{ s with resetPin := true, engine := .idle }, { s with resetPin := true, engine := .idle }.hardwareReset, rfl, rfl,
    fun _ _ _ => ⟨rfl, rfl⟩, rfl, rfl, fun _ => rfl⟩

/-! ### The soft reset (R262) -/

/-- A write of CTRL with SRST is the soft reset, busy or not. -/
theorem State.access_write_softReset {s : State} {v : Word} (hpin : s.resetPin = false) (hv : v.getLsbD 31 = true) :
    s.access (.write 0x004 .w32 v) = s.softReset :=
  (State.access_write_reg hpin s.target_ctrl v).trans (State.writeCtrl_softReset hv)

/-- A byte of data memory after the soft reset: as before, or the byte a store in progress was to write there. -/
theorem State.readByte_softReset (s : State) (x : Nat) :
    s.softReset.readByte x = s.readByte x ∨
      ∃ a bytes j, s.pendingStore = some (a, bytes) ∧ ∃ hj : j < bytes.length,
        x = a + j ∧ s.softReset.readByte x = bytes[j] := by
  have hread : s.softReset.readByte x = (Memory.lookup s.abandonedDmem x).getD (Config.powerOnByte s.powerEpoch x) := rfl
  rw [hread]
  unfold State.abandonedDmem
  cases hstore : s.pendingStore with
  | none => exact .inl rfl
  | some o =>
    obtain ⟨a, bytes⟩ := o
    rcases lookup_storeSome s.dmem a x bytes s.draws with hsame | ⟨j, hj, hx, hnew⟩
    · exact .inl (by simp only [hsame, State.readByte])
    · exact .inr ⟨a, bytes, j, rfl, hj, hx, by simp only [hnew, Option.getD_some]⟩

/-- Settles O58: the write is the soft reset, and a byte it changes is one of the STB whose checks pass. -/
theorem softResetKeepsDataMemory : Obligations.SoftResetKeepsDataMemory := by
  rintro s t v hpin hv rfl
  rw [State.access_write_softReset hpin hv]
  refine ⟨by rw [State.softReset, hpin]; rfl, fun x => (s.readByte_softReset x).imp_right ?_⟩
  rintro ⟨addr, bytes, j, hstore, hj, rfl, hbyte⟩
  obtain ⟨w, acc, a, b, bits, he, hw, hbits, hlen, hrange, ho⟩ := State.pendingStore_some.mp hstore
  cases ho
  refine ⟨w, acc, a, b, bits, j, he, hw, hbits, hlen, hrange, by simpa using hj, rfl, ?_⟩
  rw [hbyte, List.getElem?_eq_getElem hj]

/-! ### A command and the STATUS bits: it ends alike whatever they are (R225, R228) -/

/-- `s` with its STATUS bits replaced. -/
def State.withStatus (s : State) (done err ovr : Bool) : State := { s with stDone := done, stErr := err, stOvr := ovr }

theorem State.clearStatus_eq_withStatus (s : State) (v : Word) :
    s.clearStatus v = s.withStatus (s.stDone && !v.getLsbD 1) (s.stErr && !v.getLsbD 2) (s.stOvr && !v.getLsbD 3) := rfl

/-- The steps of a rule's pseudocode that read no STATUS bit pass a change of these on to what it writes. -/
theorem except_bind_map_congr {α : Type} {x : Except Stop α} {f f' : α → Except Stop State} {g : State → State}
    (h : ∀ a, f' a = (f a).map g) : (x >>= f') = (x >>= f).map g := by
  cases x with
  | ok a => exact h a
  | error e => rfl

/-- The command ends with one result whatever the STATUS bits are, beside these bits. -/
def IgnoresStatus (i : Instr) (s : State) : Prop :=
  ∃ r, exec i s = finish i s r ∧ ∀ done err ovr, exec i (s.withStatus done err ovr) =
    finish i (s.withStatus done err ovr) (r.map fun u => u.withStatus done err ovr)

theorem ignoresStatus_of {i : Instr} {s : State} {r : Except Stop State} {r' : Bool → Bool → Bool → Except Stop State}
    (hr : exec i s = finish i s r)
    (hr' : ∀ done err ovr, exec i (s.withStatus done err ovr) = finish i (s.withStatus done err ovr) (r' done err ovr))
    (h : ∀ done err ovr, r' done err ovr = r.map fun u => u.withStatus done err ovr) : IgnoresStatus i s :=
  ⟨r, hr, fun done err ovr => h done err ovr ▸ hr' done err ovr⟩

/-- No rule reads STATUS: each step of its pseudocode, as many as the rule has, is the same at either state. -/
theorem ignoresStatus (i : Instr) (s : State) : IgnoresStatus i s := by
  cases i with
  | nop => exact ⟨.ok s, rfl, fun _ _ _ => rfl⟩
  | li d imm | lih d imm | bclr d | binv d => exact ⟨.ok _, rfl, fun _ _ _ => rfl⟩
  | blen d a | bmov d a | ksb d a b | rotr d a b | stb a b | penc f | pdec f =>
    exact ignoresStatus_of rfl (fun _ _ _ => rfl) fun _ _ _ => except_bind_map_congr fun _ => rfl
  | ldb d a b =>
    refine ignoresStatus_of rfl (fun _ _ _ => rfl) fun done err ovr =>
      except_bind_map_congr fun _ => except_bind_map_congr fun _ => ?_
    have hread : (s.withStatus done err ovr).readBytes (s.number a) (s.number b) = s.readBytes (s.number a) (s.number b) :=
      State.readBytes_congr fun _ _ => rfl
    exact congrArg (fun bs => Except.ok ((s.writeBuf d (some (toBits bs))).withStatus done err ovr)) hread
  | xor d a b | drv d a b | fdec f | cut d a b c =>
    exact ignoresStatus_of rfl (fun _ _ _ => rfl) fun _ _ _ =>
      except_bind_map_congr fun _ => except_bind_map_congr fun _ => rfl
  | hdrx d a h | xors d a b | fenc f | mrg d a b =>
    exact ignoresStatus_of rfl (fun _ _ _ => rfl) fun _ _ _ =>
      except_bind_map_congr fun _ => except_bind_map_congr fun _ => except_bind_map_congr fun _ => rfl

/-- Error entry leaves the STATUS bits but ERR (R222). -/
theorem State.raiseFor_withStatus (s : State) (i : Instr) (e : ErrorCode) (done err ovr : Bool) :
    (s.withStatus done err ovr).raiseFor i e = (s.raiseFor i e).withStatus done true ovr := by
  unfold State.raiseFor
  split <;> rfl

theorem State.raiseFor_status (s : State) (i : Instr) (e : ErrorCode) :
    (s.raiseFor i e).stErr = true ∧ (s.raiseFor i e).stDone = s.stDone ∧ (s.raiseFor i e).stOvr = s.stOvr := by
  unfold State.raiseFor
  split <;> exact ⟨rfl, rfl, rfl⟩

/-- How the end of a command meets the STATUS bits: a completion sets DONE, a raise sets ERR, each with the other bits as they
were before it, whatever these were (R222, R225). -/
theorem engineStep_status {s t : State} {w : Word} {acc : List Byte} (he : s.engine = .executing w acc)
    (hstep : engineStep s = .next t) (hidle : t.engine = .idle) :
    (t.stDone = true ∧ t.stErr = s.stErr ∧ t.stOvr = s.stOvr ∧
        ∀ done err ovr, engineStep (s.withStatus done err ovr) = .next (t.withStatus true err ovr)) ∨
      (t.stErr = true ∧ t.stDone = s.stDone ∧ t.stOvr = s.stOvr ∧
        ∀ done err ovr, engineStep (s.withStatus done err ovr) = .next (t.withStatus done true ovr)) := by
  cases hw : decode w with
  | error e =>
    rw [engineStep_eq_raise he hw] at hstep
    cases hstep
    exact .inr ⟨rfl, rfl, rfl, fun done err ovr => engineStep_eq_raise (s := s.withStatus done err ovr) he hw⟩
  | ok i =>
    rw [engineStep_eq_exec he hw] at hstep
    have hexec (done err ovr : Bool) : engineStep (s.withStatus done err ovr) = exec i (s.withStatus done err ovr) :=
      engineStep_eq_exec (s := s.withStatus done err ovr) he hw
    obtain ⟨r, hr, hall⟩ := ignoresStatus i s
    have hself := (hall s.stDone s.stErr s.stOvr).symm.trans hr
    match r with
    | .ok u =>
      rw [hr] at hstep
      cases hstep
      have hsame : (u.withStatus s.stDone s.stErr s.stOvr).complete = u.complete :=
        Host.Outcome.next.inj hself
      refine .inl ⟨rfl, ?err, ?ovr, fun done err ovr => (hexec done err ovr).trans (hall done err ovr)⟩
      case err => exact (congrArg State.stErr hsame).symm
      case ovr => exact (congrArg State.stOvr hsame).symm
    | .error (.raise e) =>
      rw [hr] at hstep
      cases hstep
      obtain ⟨herr, hdone, hovr⟩ := s.raiseFor_status i e
      refine .inr ⟨herr, hdone, hovr, fun done err ovr => ((hexec done err ovr).trans (hall done err ovr)).trans ?_⟩
      exact congrArg Host.Outcome.next (s.raiseFor_withStatus i e done err ovr)
    | .error .waiting =>
      rw [hr] at hstep
      cases hstep
      rw [he] at hidle
      cases hidle

/-! ### Coincident events (R228) -/

theorem CommandWrites.resetPin {s u : State} (h : CommandWrites s u) : u.resetPin = s.resetPin := by
  cases h <;> rfl

theorem State.raiseFor_resetPin (s : State) (i : Instr) (e : ErrorCode) : (s.raiseFor i e).resetPin = s.resetPin := by
  unfold State.raiseFor
  split <;> rfl

/-- The end of a command leaves the reset input. -/
theorem engineStep_resetPin {s t : State} {w : Word} {acc : List Byte} (he : s.engine = .executing w acc)
    (hstep : engineStep s = .next t) : t.resetPin = s.resetPin := by
  cases hw : decode w with
  | error e =>
    rw [engineStep_eq_raise he hw] at hstep
    cases hstep
    rfl
  | ok i =>
    rw [engineStep_eq_exec he hw] at hstep
    rcases exec_cases i s with ⟨u, hu, hx⟩ | ⟨e, -, hx⟩ | ⟨hx, -⟩ <;> rw [hx] at hstep <;> cases hstep
    · exact hu.resetPin
    · exact s.raiseFor_resetPin i e
    · rfl

theorem State.completeWith_of_not_statusWrite {s t : State} {a : HostAccess} (hstep : engineStep s = .next t)
    (ha : isStatusWrite a = false) : s.completeWith a = .next (t.access a) := by
  simp [State.completeWith, ha, hstep, andThen]

theorem State.completeWith_statusWrite {s : State} (hpin : s.resetPin = false) (v : Word) :
    s.completeWith (.write 0x008 .w32 v) = engineStep (s.clearStatus v) := by
  have hwrite : isStatusWrite (.write 0x008 .w32 v) = true := by simp [isStatusWrite]
  rw [State.completeWith, if_pos hwrite, State.access_write_status hpin]

/-- Only a 32-bit write at 0x008 is a write of STATUS. -/
theorem isStatusWrite_eq_false {a : HostAccess} (h : ∀ x, a ≠ .write 0x008 .w32 x) : isStatusWrite a = false := by
  cases a with
  | read off width => rfl
  | write off width v =>
    rw [Bool.eq_false_iff]
    intro hwrite
    simp only [isStatusWrite, Bool.and_eq_true, beq_iff_eq] at hwrite
    obtain ⟨rfl, rfl⟩ := hwrite
    exact h v rfl

/-- With the engine idle nothing is abandoned, and the soft reset leaves data memory and the free draws (R262). -/
theorem State.softReset_idle {s : State} (hidle : s.engine = .idle) (hpin : s.resetPin = false) :
    s.softReset = { State.resetWith s.params with
      dmem := s.dmem, draws := s.draws, powerEpoch := s.powerEpoch, providerLive := s.providerLive, inputs := s.inputs,
      busReply := s.busReply } := by
  have hstore : s.pendingStore = none := by simp [State.pendingStore, hidle]
  simp [State.softReset, State.abandonedDmem, State.abandonedDraws, hstore, hpin, State.resetWith]

theorem State.withStatus_eq_of_done {t : State} {done err ovr : Bool} (hd : done = t.stDone) (he : err = t.stErr) :
    t.withStatus done err ovr = { t with stOvr := ovr } := by
  rw [hd, he]
  rfl

theorem State.withStatus_eq_of_err {t : State} {done err ovr : Bool} (he : err = t.stErr) :
    t.withStatus done err ovr = { t with stDone := done, stOvr := ovr } := by
  rw [he]
  rfl

/-- A write of STATUS at the moment a command ends clears what it writes 1, but not the bit the end sets (R228). -/
theorem completeWith_statusWrite {s t : State} {w : Word} {acc : List Byte} (hpin : s.resetPin = false)
    (herr : s.stErr = false) (he : s.engine = .executing w acc) (hstep : engineStep s = .next t) (hidle : t.engine = .idle)
    (v : Word) :
    (t.stErr = false → s.completeWith (.write 0x008 .w32 v) = .next { t with stOvr := s.stOvr && !v.getLsbD 3 } ∧
      t.stDone = true) ∧
    (t.stErr = true → s.completeWith (.write 0x008 .w32 v) =
      .next { t with stDone := s.stDone && !v.getLsbD 1, stOvr := s.stOvr && !v.getLsbD 3 }) := by
  rw [State.completeWith_statusWrite hpin, State.clearStatus_eq_withStatus]
  rcases engineStep_status he hstep hidle with ⟨hdone, hsame, -, hall⟩ | ⟨hraised, -, -, hall⟩ <;> rw [hall]
  case inl =>
    have hterr : t.stErr = false := hsame.trans herr
    refine ⟨fun _ => ⟨?_, hdone⟩, fun h => by simp [hterr] at h⟩
    rw [State.withStatus_eq_of_done hdone.symm (by rw [herr, hterr, Bool.false_and])]
  case inr =>
    refine ⟨fun h => by simp [hraised] at h, fun _ => ?_⟩
    rw [State.withStatus_eq_of_err hraised.symm]

/-- Settles O45: the end of the command leads to `t`, with the engine idle and reset not asserted, and every access but a
write of STATUS is one at `t`. -/
theorem coincidentEventsEndFirst : Obligations.CoincidentEventsEndFirst := by
  refine ⟨fun s t w v acc hinv he hstep hidle => ?complete, fun s v a hdrop => ?drop, fun s v u hpin hu => ?reset⟩
  case complete =>
    have hbusy : s.busy ≠ false := by simp [State.busy_false_iff, he]
    have herr : s.stErr = false := by simpa using fun h => hbusy (hinv.halted_idle h)
    have hpin : s.resetPin = false := by simpa using fun h => hbusy (hinv.reset_idle h)
    have hpin' : t.resetPin = false := (engineStep_resetPin he hstep).trans hpin
    have hparams : t.params = s.params := (params_kept s.params).engineStep rfl hstep
    have hidle' : t.busy = false := State.busy_false_iff.mpr hidle
    have hat {a : HostAccess} (h : isStatusWrite a = false) : s.completeWith a = .next (t.access a) :=
      State.completeWith_of_not_statusWrite hstep h
    obtain ⟨hdone, hraised⟩ := completeWith_statusWrite hpin herr he hstep hidle v
    have hscalar (n : ScalReg) (x : Word) : isStatusWrite (.write (0x040 + 4 * n.setWidth 17) .w32 x) = false := by
      have hoff : ∀ n : ScalReg, (0x040 + 4 * n.setWidth 17 : HostOffset) ≠ 0x008 := by decide
      exact isStatusWrite_eq_false fun y h => hoff n (HostAccess.write.inj h).1
    have hcmd : s.completeWith (.write 0x00C .w32 v) = .next (t.acceptCommand v) := by
      rw [hat (by rfl), State.access_write_reg hpin' t.target_cmd]
      rfl
    refine ⟨fun hok => ⟨(hdone hok).1, (hdone hok).2, ?accepted⟩, fun hbad => ⟨hraised hbad, ?dropped⟩, fun hv => ?softReset,
      fun n => ?writeScalar, fun off hlow hhigh => ⟨?writeByte, ?readByte⟩, fun n => ?readScalar, fun a ha => ?others⟩
    case accepted => rw [hcmd, State.acceptCommand_of_ready hidle' hok]
    case dropped => rw [hcmd, State.acceptCommand_of_busy_or_err (.inr hbad)]; rfl
    case softReset => rw [hat (by rfl), State.access_write_softReset hpin' hv, State.softReset_idle hidle hpin']
    case writeScalar =>
      exact ⟨_, (hat (hscalar n v)).trans (by rw [State.access_write_scalar_idle hpin' hidle']), writeScalar_frame t n v⟩
    case writeByte =>
      refine ⟨_, (hat (by simp [isStatusWrite])).trans ?_, writeByte_frame t _ _⟩
      rw [State.access_write_dmem_idle hpin' hidle' hlow (hparams ▸ hhigh)]
    case readByte =>
      rw [hat rfl, State.access_read_of_some (State.hostRead_dmem_idle hpin' hidle' hlow (hparams ▸ hhigh))]
    case readScalar =>
      have hread : t.hostRead (0x040 + 4 * n.setWidth 17) .w32 = some (t.scalar n) :=
        (State.hostRead_reg hpin' (t.target_scalar n)).trans (if_neg (by simp [hidle']))
      rw [hat rfl, State.access_read_of_some hread]
    case others => exact hat (isStatusWrite_eq_false ha)
  case drop =>
    rw [State.clearWith, if_pos hdrop]
    rfl
  case reset =>
    have hdrops : s.drops (.write 0x004 .w32 u) = false := by
      simp only [State.drops, s.target_ctrl, Bool.and_false]
    have hpin' : s.softReset.resetPin = false := hpin
    rw [State.clearWith, hdrops, State.access_write_softReset hpin hu]
    exact State.access_write_status hpin' v

end Sys2Proof.Machine
end
